-- ==== Sys2Proof/Word.lean ====
section
/-! DEFINITION. The word types of the block: the 64-bit command word (30_encoding.md R70), the byte of the two
buses (R8) and the display frame of four segment bytes (R13). -/

namespace Sys2Proof

/-- One bus byte, register value, segment byte or pin id: 8 bits (R8). -/
abbrev Byte := BitVec 8

/-- One command word `W` (R70). -/
abbrev CmdWord := BitVec 64

/-- The four segment bytes of a display frame, position 0 (leftmost) first (R13, R53). -/
abbrev Frame := Vector Byte 4

end Sys2Proof
end

