-- ==== Sys2Proof/Config.lean ====
section
/-! DEFINITION. The two buses and their lines (10_state.md R23), the implementation parameters of 00_scope.md R7,
and the free value: what the environment does at each micro-step (R22, R25, R26, R240). -/

namespace Sys2Proof

/-- The two buses: `rtc` is bus 0, `disp` is bus 1 (R23). -/
inductive Bus where
  | rtc
  | disp
deriving DecidableEq, Repr, Inhabited

/-- The two lines of a bus (R23). -/
inductive Line where
  | scl
  | sda
deriving DecidableEq, Repr, Inhabited

/-- The order of a byte's bits on the wire (R27, R54). -/
inductive BitOrder where
  | msbFirst
  | lsbFirst
deriving DecidableEq, Repr, Inhabited

/-- One thing for each bus. -/
structure PerBus (α : Type) where
  rtc : α
  disp : α
deriving DecidableEq, Repr, Inhabited

/-- One thing for each line of a bus. -/
structure PerLine (α : Type) where
  scl : α
  sda : α
deriving DecidableEq, Repr, Inhabited

/-- The parameters of R7 that the spec leaves `OPEN`, decides by a default, or takes from general knowledge.
They are fixed for a machine; a statement that needs one of the defaults takes it as a premise. -/
structure Config where
  /-- `N_PINS`, `OPEN` (D7). -/
  nPins : Nat
  /-- `RESERVED_PINS`, `OPEN`: exactly four ids (D7). -/
  reservedPins : Vector Byte 4
  /-- `PINS_PER_PORT`, decision D6. -/
  pinsPerPort : Nat
  /-- `SCL_PIN[b]`, `OPEN` (D2). -/
  sclPin : PerBus Byte
  /-- `SDA_PIN[b]`, `OPEN` (D2). -/
  sdaPin : PerBus Byte
  /-- `T_HALF` in microseconds, decision D11. -/
  tHalf : Nat
  /-- `T_SETTLE` in microseconds, decision D10. -/
  tSettle : Nat
  /-- `RTC_ADDR`, general knowledge (D19). -/
  rtcAddr : BitVec 7
  /-- The RTC register addresses, general knowledge (D19). -/
  regSeconds : Byte
  regMinutes : Byte
  regHours : Byte
  regDay : Byte
  regMonth : Byte
  regYear : Byte
  regAlarm1 : Byte
  regAlarm2 : Byte
  regControl : Byte
  regStatus : Byte
  regTempMsb : Byte
  regTempLsb : Byte
  /-- `CTRL_INIT`, general knowledge (D24). -/
  ctrlInit : Byte
  /-- `A1IE_BIT`, general knowledge (D26). -/
  a1ieBit : Fin 8
  /-- `A1F_BIT`, general knowledge (D26). -/
  a1fBit : Fin 8
  /-- The flag bits of the status register beside `A1F_BIT` (R183, R192); no parameter of R7 (log entry 10). -/
  statusFlags : Byte
  /-- `ALARM_SECOND`, decision D25. -/
  alarmSecond : Byte
  /-- `ALARM_MASK`, general knowledge (D25). -/
  alarmMask : Byte
  /-- `SEG_TABLE`, general knowledge (D30). -/
  segTable : Vector Byte 16
  /-- `COLON_POS`, general knowledge (D29). -/
  colonPos : Fin 4
  /-- `ABORT_SENDS_STOP`, decision D15. -/
  abortSendsStop : Bool
  /-- `PULLUPS_PRESENT`, a platform requirement (D35). -/
  pullupsPresent : Bool
deriving DecidableEq, Repr

/-- `ORDER[b]`: bus 0 most significant bit first, bus 1 least significant bit first (R7, R27, R54). -/
def Config.order : Bus → BitOrder
  | .rtc => .msbFirst
  | .disp => .lsbFirst

/-- `ADDRESSED[b]`: whether the adapter of bus `b` uses the addressing phase (R7, R27). -/
def Config.addressed : Bus → Bool
  | .rtc => true
  | .disp => false

/-- `CENTURY_BIT` (R7, R82). -/
def Config.centuryBit : Nat := 7

/-- `YEAR_MIN` (R7, D21). -/
def Config.yearMin : Nat := 2000

/-- `YEAR_MAX` (R7, D21). -/
def Config.yearMax : Nat := 2199

/-- `TEMP_FRAC_SCALE` (R7, R84). -/
def Config.tempFracScale : Nat := 25

/-- `DISP_CMD_AUTOINC` (R7, R86). -/
def Config.dispCmdAutoInc : Byte := 0x40

/-- `DISP_CMD_ADDR0` (R7, R86). -/
def Config.dispCmdAddr0 : Byte := 0xC0

/-- `DISP_CTRL_BASE` (R7, R86). -/
def Config.dispCtrlBase : Byte := 0x80

/-- `DISP_ON` (R7, R86). -/
def Config.dispOn : Byte := 0x08

/-- The default segment table of R210 (general knowledge, D30). -/
def Config.defaultSegTable : Vector Byte 16 :=
  #v[0x3F, 0x06, 0x5B, 0x4F, 0x66, 0x6D, 0x7D, 0x07, 0x7F, 0x6F, 0x77, 0x7C, 0x39, 0x5E, 0x79, 0x71]

/-- The defaults of R7; the `OPEN` rows take the instantiation of 95_test_vectors.md (log entry 1). -/
def Config.default : Config where
  nPins := 28
  reservedPins := #v[7, 8, 20, 22]
  pinsPerPort := 8
  sclPin := { rtc := 24, disp := 3 }
  sdaPin := { rtc := 23, disp := 4 }
  tHalf := 5
  tSettle := 5
  rtcAddr := 0x68
  regSeconds := 0x00
  regMinutes := 0x01
  regHours := 0x02
  regDay := 0x04
  regMonth := 0x05
  regYear := 0x06
  regAlarm1 := 0x07
  regAlarm2 := 0x0B
  regControl := 0x0E
  regStatus := 0x0F
  regTempMsb := 0x11
  regTempLsb := 0x12
  ctrlInit := 0x04
  a1ieBit := 0
  a1fBit := 0
  statusFlags := 0x82
  alarmSecond := 0
  alarmMask := 0x80
  segTable := Config.defaultSegTable
  colonPos := 1
  abortSendsStop := true
  pullupsPresent := true

/-- The RTC's time counters as the environment may set them (R192: time passes in the device, R250). -/
structure Counters where
  second : Byte
  minute : Byte
  hour : Byte
  day : Byte
  month : Byte
  year : Byte
deriving DecidableEq, Repr, Inhabited

/-- What the environment does before one micro-step: every bit of it is a draw under no law (93 B1, B2, B3, B14). -/
structure EnvMove where
  /-- `peer_low(b, L)` of an unconstrained peer from now on: true drives the line low (R26). -/
  drive : PerBus (PerLine Bool)
  /-- The level of a line nobody drives low where there is no pull-up (R25). -/
  floating : PerBus (PerLine Bool)
  /-- `ext[p]` of the pin a PIN_READ reads now (R22). -/
  ext : Bool
  /-- An unconstrained notification source raises its notification (R240). -/
  pending : Bool
  /-- An unconstrained notification source takes a RTC_ACK_ALARM that has just returned 1 as clearing it (R240). -/
  cleared : Bool
  /-- The notification fires now if R245 lets it fire. -/
  fire : Bool
  /-- The expected RTC's time counters change to these values (R192). -/
  clock : Option Counters
deriving DecidableEq, Repr, Inhabited

/-- The free value: the environment's move number `n` where no script names it. It has no value in Lean. -/
opaque Config.freeMove : Nat → EnvMove

/-- The environment that does nothing: every peer releases, nothing is pending. -/
def EnvMove.quiet : EnvMove where
  drive := { rtc := { scl := false, sda := false }, disp := { scl := false, sda := false } }
  floating := { rtc := { scl := true, sda := true }, disp := { scl := true, sda := true } }
  ext := false
  pending := false
  cleared := false
  fire := false
  clock := none

end Sys2Proof
end

