-- ==== Sys2Proof/Syntax.lean ====
section
/-! DEFINITION. The 35 commands of the opcode map (30_encoding.md R72), one constructor per row of
opcode_table.json, each operand field with the width the command word gives it (R71). -/

namespace Sys2Proof

/-- A command. Field order follows the assembler syntax of R88. -/
inductive Instr where
  /-- PIN_VALID, 0x01, format FPR (R100). -/
  | pinValid (pin : Byte)
  /-- PIN_SET_MODE, 0x02, format FP; `v` false is INPUT, true is OUTPUT (R102). -/
  | pinSetMode (pin : Byte) (v : Bool)
  /-- PIN_WRITE, 0x03, format FP (R103). -/
  | pinWrite (pin : Byte) (v : Bool)
  /-- PIN_READ, 0x04, format FPR (R104). -/
  | pinRead (pin : Byte)
  /-- LINE_DRIVE_LOW, 0x10, format FL (R110). -/
  | lineDriveLow (bus : Bus) (line : Line)
  /-- LINE_RELEASE, 0x11, format FL (R111). -/
  | lineRelease (bus : Bus) (line : Line)
  /-- LINE_READ, 0x12, format FL (R112). -/
  | lineRead (bus : Bus) (line : Line)
  /-- SCL_WAIT_HIGH, 0x13, format FB (R113). -/
  | sclWaitHigh (bus : Bus)
  /-- HALF_DELAY, 0x14, format FB (R114). -/
  | halfDelay (bus : Bus)
  /-- BUS_INIT, 0x20, format FB (R130). -/
  | busInit (bus : Bus)
  /-- BUS_START, 0x21, format FS (R131). -/
  | busStart (bus : Bus) (ha : Bool) (addr : BitVec 7) (rw : Bool)
  /-- BUS_WRITE_BIT, 0x22, format FT (R132). -/
  | busWriteBit (bus : Bus) (bit : Bool)
  /-- BUS_READ_BIT, 0x23, format FB (R133). -/
  | busReadBit (bus : Bus)
  /-- BUS_WRITE, 0x24, format FW (R134). -/
  | busWrite (bus : Bus) (byte : Byte)
  /-- BUS_READ, 0x25, format FR (R135). -/
  | busRead (bus : Bus) (last : Bool)
  /-- BUS_STOP, 0x26, format FB (R136). -/
  | busStop (bus : Bus)
  /-- BCD_ENCODE, 0x30, format FX (R160). -/
  | bcdEncode (x : Byte)
  /-- BCD_DECODE, 0x31, format FX (R161). -/
  | bcdDecode (x : Byte)
  /-- YEAR_ENCODE, 0x32, format FY (R163). -/
  | yearEncode (year : BitVec 16)
  /-- YEAR_DECODE, 0x33, format FYD (R164). -/
  | yearDecode (yb : Byte) (cen : Bool)
  /-- TEMP_DECODE, 0x34, format FTD (R165). -/
  | tempDecode (msb lsb : Byte)
  /-- RTC_READ_REGS, 0x40, format FRR (R180). -/
  | rtcReadRegs (reg : Byte) (n : BitVec 3)
  /-- RTC_WRITE_REGS, 0x41, format FRW (R181). -/
  | rtcWriteRegs (reg : Byte) (n : BitVec 3) (data0 data1 data2 data3 : Byte)
  /-- RTC_READ_TIME, 0x42, format FN (R184). -/
  | rtcReadTime
  /-- RTC_WRITE_TIME, 0x43, format FTM (R185). -/
  | rtcWriteTime (hour min sec : Byte)
  /-- RTC_READ_DATE, 0x44, format FN (R186). -/
  | rtcReadDate
  /-- RTC_WRITE_DATE, 0x45, format FDT (R187). -/
  | rtcWriteDate (day month : Byte) (year : BitVec 16)
  /-- RTC_READ_TEMP, 0x46, format FN (R188). -/
  | rtcReadTemp
  /-- RTC_INIT, 0x47, format FN (R189). -/
  | rtcInit
  /-- RTC_ARM_ALARM, 0x48, format FN (R190). -/
  | rtcArmAlarm
  /-- RTC_ACK_ALARM, 0x49, format FN (R191). -/
  | rtcAckAlarm
  /-- SEG_DIGIT, 0x50, format FSG (R211). -/
  | segDigit (d : BitVec 4)
  /-- SEG_SET_DOT, 0x51, format FDOT (R212). -/
  | segSetDot (seg0 seg1 seg2 seg3 : Byte) (pos : BitVec 2)
  /-- SEG_NUMBER, 0x52, format FNUM (R213). -/
  | segNumber (value : BitVec 16) (sup : Bool) (dots : BitVec 4)
  /-- DISP_SHOW_FRAME, 0x53, format FFR (R214). -/
  | dispShowFrame (seg0 seg1 seg2 seg3 : Byte) (bright : BitVec 3)
deriving DecidableEq, Repr

/-- Why a command word is refused (R78, R242). -/
inductive RefuseReason where
  /-- The opcode is unassigned (R75). -/
  | illegalOpcode
  /-- A reserved bit of the command's format is 1 (R74). -/
  | reservedBits
  /-- An operand value lies outside the operation's domain (R77). -/
  | outOfDomain
deriving DecidableEq, Repr

end Sys2Proof
end

