-- ==== Sys2Proof/WellFormed.lean ====
section
/-! DEFINITION. Well-formed commands: the operand domains of 30_encoding.md R77. Every field already has the width
of its command-word field, so every command can be encoded; a command outside its domain is refused with
OutOfDomain (R77, R242). -/

namespace Sys2Proof

/-- The domains of R77, command by command; a command R77 does not name has no domain restriction. -/
def Instr.wellFormed : Instr → Bool
  | .bcdEncode x => x.toNat ≤ 99
  | .yearEncode year => 2000 ≤ year.toNat && year.toNat ≤ 2199
  | .rtcReadRegs _ n => 1 ≤ n.toNat && n.toNat ≤ 7
  | .rtcWriteRegs _ n _ d1 d2 d3 =>
    1 ≤ n.toNat && n.toNat ≤ 4 &&
      (2 ≤ n.toNat || d1 == 0) && (3 ≤ n.toNat || d2 == 0) && (4 ≤ n.toNat || d3 == 0)
  | .rtcWriteTime hour min sec => hour.toNat ≤ 99 && min.toNat ≤ 99 && sec.toNat ≤ 99
  | .rtcWriteDate day month year =>
    day.toNat ≤ 99 && month.toNat ≤ 99 && (2000 ≤ year.toNat && year.toNat ≤ 2199)
  | .segNumber value _ _ => value.toNat ≤ 9999
  | .pinValid .. | .pinSetMode .. | .pinWrite .. | .pinRead .. => true
  | .lineDriveLow .. | .lineRelease .. | .lineRead .. | .sclWaitHigh .. | .halfDelay .. => true
  | .busInit .. | .busStart .. | .busWriteBit .. | .busReadBit .. | .busWrite .. | .busRead .. | .busStop .. => true
  | .bcdDecode .. | .yearDecode .. | .tempDecode .. => true
  | .rtcReadTime | .rtcReadDate | .rtcReadTemp | .rtcInit | .rtcArmAlarm | .rtcAckAlarm => true
  | .segDigit .. | .segSetDot .. | .dispShowFrame .. => true

end Sys2Proof
end

