-- ==== Sys2Proof/Decode.lean ====
section
/-! DEFINITION. The command word of 30_encoding.md Part A: formats and their fields (R71), the opcode map (R72),
reserved bits (R74), unassigned opcodes (R75); the decoder, and after it the encoder from the same tables. -/

namespace Sys2Proof

/-- The 21 formats of R71. -/
inductive Format where
  | fn | fb | fl | fp | fpr | fs | fw | fr | ft | fx | fy | fyd | ftd | frr | frw | ftm | fdt | fsg | fdot | fnum | ffr
deriving DecidableEq, Repr

/-- The `n` bits of `w` from bit `lo` up (R9). -/
def field (w : CmdWord) (lo n : Nat) : BitVec n := w.extractLsb' lo n

/-- Bit `i` of `w` (R9). -/
def bitField (w : CmdWord) (i : Nat) : Bool := w.getLsbD i

/-- The value of an `n`-bit field placed at bit `lo` of a command word (R71). -/
def placed {n : Nat} (v : BitVec n) (lo : Nat) : CmdWord := v.setWidth 64 <<< lo

/-- A one-bit field placed at bit `i` (R71). -/
def placedBit (v : Bool) (i : Nat) : CmdWord := (BitVec.ofBool v).setWidth 64 <<< i

/-- `W[n-1+lo:lo]` all ones: the place of a field (R71). -/
def fieldMask (lo n : Nat) : CmdWord := placed (BitVec.allOnes n) lo

/-- The bits of `W[55:0]` the format names (R71); all others are reserved (R70). -/
def Format.named : Format → CmdWord
  | .fn => 0
  | .fb => fieldMask 48 1
  | .fl => fieldMask 48 1 ||| fieldMask 49 1
  | .fp => fieldMask 0 8 ||| fieldMask 8 1
  | .fpr => fieldMask 0 8
  | .fs => fieldMask 48 1 ||| fieldMask 0 1 ||| fieldMask 1 7 ||| fieldMask 8 1
  | .fw => fieldMask 48 1 ||| fieldMask 0 8
  | .fr => fieldMask 48 1 ||| fieldMask 8 1
  | .ft => fieldMask 48 1 ||| fieldMask 0 1
  | .fx => fieldMask 0 8
  | .fy => fieldMask 0 16
  | .fyd => fieldMask 0 8 ||| fieldMask 8 1
  | .ftd => fieldMask 0 8 ||| fieldMask 8 8
  | .frr => fieldMask 0 8 ||| fieldMask 8 3
  | .frw => fieldMask 0 8 ||| fieldMask 8 3 ||| fieldMask 16 8 ||| fieldMask 24 8 ||| fieldMask 32 8 ||| fieldMask 40 8
  | .ftm => fieldMask 0 8 ||| fieldMask 8 8 ||| fieldMask 16 8
  | .fdt => fieldMask 0 8 ||| fieldMask 8 8 ||| fieldMask 16 16
  | .fsg => fieldMask 0 4
  | .fdot => fieldMask 0 8 ||| fieldMask 8 8 ||| fieldMask 16 8 ||| fieldMask 24 8 ||| fieldMask 32 2
  | .fnum => fieldMask 0 16 ||| fieldMask 16 1 ||| fieldMask 20 4
  | .ffr => fieldMask 0 8 ||| fieldMask 8 8 ||| fieldMask 16 8 ||| fieldMask 24 8 ||| fieldMask 32 3

/-- The reserved bits of a format: what `W[55:0]` holds beside the named fields (R70, R74). -/
def Format.reserved (f : Format) : CmdWord := ~~~(f.named) &&& 0x00FFFFFFFFFFFFFF#64

/-- The command `i` the word selects, refused where a reserved bit of its format is 1 (R74). -/
def unlessReserved (f : Format) (w : CmdWord) (i : Instr) : Except RefuseReason Instr :=
  if w &&& f.reserved = 0 then .ok i else .error .reservedBits

/-- `BUS`: 0 is the RTC bus, 1 the display bus (R70). -/
def busField (w : CmdWord) : Bus := bif bitField w 48 then .disp else .rtc

/-- `LINE`: 0 is SCL, 1 is SDA (R70). -/
def lineField (w : CmdWord) : Line := bif bitField w 49 then .sda else .scl

/-- The decoder: every 64-bit word is either one command of R72 or refused by name (R74, R75, R76). -/
def decode (w : CmdWord) : Except RefuseReason Instr :=
  match (field w 56 8).toNat with
  | 0x01 => unlessReserved .fpr w (.pinValid (field w 0 8))
  | 0x02 => unlessReserved .fp w (.pinSetMode (field w 0 8) (bitField w 8))
  | 0x03 => unlessReserved .fp w (.pinWrite (field w 0 8) (bitField w 8))
  | 0x04 => unlessReserved .fpr w (.pinRead (field w 0 8))
  | 0x10 => unlessReserved .fl w (.lineDriveLow (busField w) (lineField w))
  | 0x11 => unlessReserved .fl w (.lineRelease (busField w) (lineField w))
  | 0x12 => unlessReserved .fl w (.lineRead (busField w) (lineField w))
  | 0x13 => unlessReserved .fb w (.sclWaitHigh (busField w))
  | 0x14 => unlessReserved .fb w (.halfDelay (busField w))
  | 0x20 => unlessReserved .fb w (.busInit (busField w))
  | 0x21 => unlessReserved .fs w (.busStart (busField w) (bitField w 8) (field w 1 7) (bitField w 0))
  | 0x22 => unlessReserved .ft w (.busWriteBit (busField w) (bitField w 0))
  | 0x23 => unlessReserved .fb w (.busReadBit (busField w))
  | 0x24 => unlessReserved .fw w (.busWrite (busField w) (field w 0 8))
  | 0x25 => unlessReserved .fr w (.busRead (busField w) (bitField w 8))
  | 0x26 => unlessReserved .fb w (.busStop (busField w))
  | 0x30 => unlessReserved .fx w (.bcdEncode (field w 0 8))
  | 0x31 => unlessReserved .fx w (.bcdDecode (field w 0 8))
  | 0x32 => unlessReserved .fy w (.yearEncode (field w 0 16))
  | 0x33 => unlessReserved .fyd w (.yearDecode (field w 0 8) (bitField w 8))
  | 0x34 => unlessReserved .ftd w (.tempDecode (field w 0 8) (field w 8 8))
  | 0x40 => unlessReserved .frr w (.rtcReadRegs (field w 0 8) (field w 8 3))
  | 0x41 => unlessReserved .frw w
      (.rtcWriteRegs (field w 0 8) (field w 8 3) (field w 16 8) (field w 24 8) (field w 32 8) (field w 40 8))
  | 0x42 => unlessReserved .fn w .rtcReadTime
  | 0x43 => unlessReserved .ftm w (.rtcWriteTime (field w 16 8) (field w 8 8) (field w 0 8))
  | 0x44 => unlessReserved .fn w .rtcReadDate
  | 0x45 => unlessReserved .fdt w (.rtcWriteDate (field w 0 8) (field w 8 8) (field w 16 16))
  | 0x46 => unlessReserved .fn w .rtcReadTemp
  | 0x47 => unlessReserved .fn w .rtcInit
  | 0x48 => unlessReserved .fn w .rtcArmAlarm
  | 0x49 => unlessReserved .fn w .rtcAckAlarm
  | 0x50 => unlessReserved .fsg w (.segDigit (field w 0 4))
  | 0x51 => unlessReserved .fdot w
      (.segSetDot (field w 0 8) (field w 8 8) (field w 16 8) (field w 24 8) (field w 32 2))
  | 0x52 => unlessReserved .fnum w (.segNumber (field w 0 16) (bitField w 16) (field w 20 4))
  | 0x53 => unlessReserved .ffr w
      (.dispShowFrame (field w 0 8) (field w 8 8) (field w 16 8) (field w 24 8) (field w 32 3))
  | _ => .error .illegalOpcode

/-- The host's reading of one row of opcode_table.json: every row has 64 bits, bit 0 the least significant. -/
def decodeTableWord (nbits w : Nat) : Option Instr :=
  match decode (BitVec.ofNat 64 (w % 2 ^ nbits)) with
  | .ok i => some i
  | .error _ => none

/-- The opcode of a command (R72). -/
def opcodeOf : Instr → BitVec 8
  | .pinValid .. => 0x01
  | .pinSetMode .. => 0x02
  | .pinWrite .. => 0x03
  | .pinRead .. => 0x04
  | .lineDriveLow .. => 0x10
  | .lineRelease .. => 0x11
  | .lineRead .. => 0x12
  | .sclWaitHigh .. => 0x13
  | .halfDelay .. => 0x14
  | .busInit .. => 0x20
  | .busStart .. => 0x21
  | .busWriteBit .. => 0x22
  | .busReadBit .. => 0x23
  | .busWrite .. => 0x24
  | .busRead .. => 0x25
  | .busStop .. => 0x26
  | .bcdEncode .. => 0x30
  | .bcdDecode .. => 0x31
  | .yearEncode .. => 0x32
  | .yearDecode .. => 0x33
  | .tempDecode .. => 0x34
  | .rtcReadRegs .. => 0x40
  | .rtcWriteRegs .. => 0x41
  | .rtcReadTime => 0x42
  | .rtcWriteTime .. => 0x43
  | .rtcReadDate => 0x44
  | .rtcWriteDate .. => 0x45
  | .rtcReadTemp => 0x46
  | .rtcInit => 0x47
  | .rtcArmAlarm => 0x48
  | .rtcAckAlarm => 0x49
  | .segDigit .. => 0x50
  | .segSetDot .. => 0x51
  | .segNumber .. => 0x52
  | .dispShowFrame .. => 0x53

/-- The format of a command (R72). -/
def formatOf : Instr → Format
  | .pinValid .. | .pinRead .. => .fpr
  | .pinSetMode .. | .pinWrite .. => .fp
  | .lineDriveLow .. | .lineRelease .. | .lineRead .. => .fl
  | .sclWaitHigh .. | .halfDelay .. | .busInit .. | .busReadBit .. | .busStop .. => .fb
  | .busStart .. => .fs
  | .busWriteBit .. => .ft
  | .busWrite .. => .fw
  | .busRead .. => .fr
  | .bcdEncode .. | .bcdDecode .. => .fx
  | .yearEncode .. => .fy
  | .yearDecode .. => .fyd
  | .tempDecode .. => .ftd
  | .rtcReadRegs .. => .frr
  | .rtcWriteRegs .. => .frw
  | .rtcReadTime | .rtcReadDate | .rtcReadTemp | .rtcInit | .rtcArmAlarm | .rtcAckAlarm => .fn
  | .rtcWriteTime .. => .ftm
  | .rtcWriteDate .. => .fdt
  | .segDigit .. => .fsg
  | .segSetDot .. => .fdot
  | .segNumber .. => .fnum
  | .dispShowFrame .. => .ffr

/-- `BUS = W[48]` (R70). -/
def placedBus (b : Bus) : CmdWord := placedBit (b == .disp) 48

/-- `LINE = W[49]` (R70). -/
def placedLine (l : Line) : CmdWord := placedBit (l == .sda) 49

/-- The operand fields of a command in `W[55:0]` (R71). -/
def operandsOf : Instr → CmdWord
  | .pinValid pin | .pinRead pin => placed pin 0
  | .pinSetMode pin v | .pinWrite pin v => placed pin 0 ||| placedBit v 8
  | .lineDriveLow b l | .lineRelease b l | .lineRead b l => placedBus b ||| placedLine l
  | .sclWaitHigh b | .halfDelay b | .busInit b | .busReadBit b | .busStop b => placedBus b
  | .busStart b ha addr rw => placedBus b ||| placedBit ha 8 ||| placed addr 1 ||| placedBit rw 0
  | .busWriteBit b bit => placedBus b ||| placedBit bit 0
  | .busWrite b x => placedBus b ||| placed x 0
  | .busRead b last => placedBus b ||| placedBit last 8
  | .bcdEncode x | .bcdDecode x => placed x 0
  | .yearEncode y => placed y 0
  | .yearDecode yb cen => placed yb 0 ||| placedBit cen 8
  | .tempDecode m l => placed m 0 ||| placed l 8
  | .rtcReadRegs reg n => placed reg 0 ||| placed n 8
  | .rtcWriteRegs reg n d0 d1 d2 d3 =>
    placed reg 0 ||| placed n 8 ||| placed d0 16 ||| placed d1 24 ||| placed d2 32 ||| placed d3 40
  | .rtcReadTime | .rtcReadDate | .rtcReadTemp | .rtcInit | .rtcArmAlarm | .rtcAckAlarm => 0
  | .rtcWriteTime hour min sec => placed sec 0 ||| placed min 8 ||| placed hour 16
  | .rtcWriteDate day month year => placed day 0 ||| placed month 8 ||| placed year 16
  | .segDigit d => placed d 0
  | .segSetDot s0 s1 s2 s3 pos => placed s0 0 ||| placed s1 8 ||| placed s2 16 ||| placed s3 24 ||| placed pos 32
  | .segNumber v sup dots => placed v 0 ||| placedBit sup 16 ||| placed dots 20
  | .dispShowFrame s0 s1 s2 s3 br => placed s0 0 ||| placed s1 8 ||| placed s2 16 ||| placed s3 24 ||| placed br 32

/-- The encoder: the opcode of R72 above the operand fields of R71, every reserved bit 0. -/
def encode (i : Instr) : CmdWord := placed (opcodeOf i) 56 ||| operandsOf i

end Sys2Proof
end

