-- ==== Sys2Proof/Machine/State.lean ====
section
/-! DEFINITION. The state of the block, its environment and its run as plain data (10_state.md R20 to R39,
60_exceptions.md R236 to R245), the reasons a step can stop, and the state after reset (R39, R260). -/

namespace Sys2Proof.Machine

/-- A sparse store in canonical form: keys strictly rising, no entry equal to what an unlisted key reads as. -/
abbrev Sparse (α : Type) := List (Nat × α)

/-- A byte memory as the host writes one down: a sparse list of (address, byte). -/
abbrev Memory := List Host.Cell

/-- `pin[p].mode` (R20). -/
inductive Mode where
  | input
  | output
deriving DecidableEq, Repr, Inhabited

/-- The two bits of one valid pin (R20). -/
structure PinState where
  mode : Mode
  latch : Bool
deriving DecidableEq, Repr, Inhabited

/-- A pin after reset, and what an unlisted pin holds (R39). -/
def PinState.reset : PinState := { mode := .input, latch := false }

/-- The engine phase of a bus (R28). -/
inductive Phase where
  | idle
  | started
  | addrSent
  | transfer
deriving DecidableEq, Repr, Inhabited

/-- The two host contexts (R30). -/
inductive Ctx where
  | main
  | handler
deriving DecidableEq, Repr, Inhabited

/-- `owner[b]` (R31). -/
inductive Owner where
  | none
  | main
  | handler
deriving DecidableEq, Repr, Inhabited

/-- One event of the trace (R35). -/
inductive Event where
  /-- `DL(b,L)` -/
  | driveLow (b : Bus) (l : Line)
  /-- `RL(b,L)` -/
  | release (b : Bus) (l : Line)
  /-- `W(b)` -/
  | waited (b : Bus)
  /-- `D(t)` -/
  | delay (t : Nat)
  /-- `S(b,L)=v` -/
  | sample (b : Bus) (l : Line) (v : Bool)
  /-- `LOG(AckFail, b, byte)` (R34) -/
  | ackFail (b : Bus) (byte : Byte)
deriving DecidableEq, Repr

/-- What a command returns to its context (R79). -/
inductive Result where
  | nothing
  | bit (v : Bool)
  | byte (v : Byte)
  | number (n : Nat)
  /-- The pair of YEAR_ENCODE (R163). -/
  | yearCode (yb : Byte) (cen : Bool)
  /-- The pair of TEMP_DECODE (R165). -/
  | temperature (int : Int) (frac : Nat)
  /-- Four segment bytes (R212, R213). -/
  | frame (s : Frame)
  /-- `ok` of an RTC operation that returns nothing else, or `ok = 0` of one that would (R180 to R191). -/
  | ok (v : Bool)
  /-- `(1, d[0 .. N-1])` (R180). -/
  | registers (d : List Byte)
  /-- `(1, hour, minute, second)` (R184). -/
  | time (hour minute second : Nat)
  /-- `(1, day, month, year)` (R186). -/
  | date (day month year : Nat)
  /-- `(1, int, frac)` of RTC_READ_TEMP (R188). -/
  | rtcTemperature (int : Int) (frac : Nat)
deriving DecidableEq, Repr

/-- A command in progress (R37): which command, and the answers its micro-steps have had so far, oldest first.
The answers fix the position within the command's sequence. -/
structure Job where
  instr : Instr
  trail : List Bool
deriving DecidableEq, Repr

/-- One thing MAIN's host does (R255): issue a command word, or set or clear `masked` (R244). -/
inductive HostMove where
  | command (w : CmdWord)
  | mask (v : Bool)
deriving DecidableEq, Repr

/-- What the serial link of an expected peer is doing (44_rtc.md R192, 45_display.md R215). -/
inductive Link where
  | idle
  | receive
  | send
deriving DecidableEq, Repr, Inhabited

/-- The serial link of an expected peer: the levels it last saw, the byte in transfer, and its own drive of SDA. -/
structure Wire where
  scl : Bool
  sda : Bool
  link : Link
  shift : Byte
  /-- Clock pulses of the present byte seen so far: 0 to 8 data bits, 9 after the acknowledgment bit. -/
  count : Nat
  /-- The level sampled at the acknowledgment bit of a byte the peer sent. -/
  ackBit : Bool
  /-- The peer drives SDA low. -/
  low : Bool
deriving DecidableEq, Repr, Inhabited

/-- A peer that waits for a start condition and drives nothing. -/
def Wire.idle : Wire :=
  { scl := true, sda := true, link := .idle, shift := 0, count := 0, ackBit := false, low := false }

/-- What the next byte of a transaction means to the expected RTC (R192). -/
inductive RtcStage where
  | address
  | pointer
  | data
  | reading
deriving DecidableEq, Repr, Inhabited

/-- The expected RTC peer (R183, R192). -/
structure RtcDevice where
  wire : Wire
  stage : RtcStage
  regs : Memory
  ptr : Byte
deriving DecidableEq, Repr

/-- The expected display peer (R215). -/
structure DisplayDevice where
  wire : Wire
  /-- The next byte is the command byte of its transaction. -/
  atCommand : Bool
  segments : Memory
  ptr : Byte
  autoInc : Bool
  control : Byte
deriving DecidableEq, Repr

/-- What stands at the far end of a bus (R26, D45). -/
inductive Peer where
  /-- An unconstrained agent: its drive bits are draws (R26, 93 B1). -/
  | free
  /-- No device: the lines read 1 whenever the block releases them (95_test_vectors.md P4). -/
  | absent
  /-- The expected RTC of R192, an assumption about the environment. -/
  | rtc (d : RtcDevice)
  /-- The expected display of R215, an assumption about the environment. -/
  | display (d : DisplayDevice)
deriving DecidableEq, Repr

/-- The environment: what stands on each bus, its present move, and where its next moves come from: the script
while it lasts, then the free value `Config.freeMove` at the counter `tick` (log entry 2). -/
structure Env where
  peers : PerBus Peer
  now : EnvMove
  script : List EnvMove
  tick : Nat
deriving DecidableEq, Repr

/-- The fault kinds of R236 with their info. A meaning never answers with one: the command that raises it leaves it
in `State.fault` (`State.raise`), and every later `step` answers `.fault` with it. Safe: the run is quiescent, and
the spec itself says that a faulted run refutes every claim about it. -/
inductive Fault where
  /-- Code 1: PIN_SET_MODE or PIN_WRITE would make bus pin `pin` output-high (R238). -/
  | outputHigh (pin : Byte)
  /-- Code 2: context `c` begins a command on bus `b` while the other context owns it (R237). -/
  | overlap (b : Bus) (c : Ctx) (o : Owner)
  /-- Code 3: an engine command outside a transaction, or an adapter operation inside one (R239). -/
  | protocolMisuse (b : Bus)
  /-- Code 4: SCL_WAIT_HIGH while the block itself drives SCL (R241). -/
  | selfStall (b : Bus)
deriving DecidableEq, Repr

/-- The numeric codes of R236. -/
def Fault.code : Fault → Nat
  | .outputHigh _ => 1
  | .overlap .. => 2
  | .protocolMisuse _ => 3
  | .selfStall _ => 4

/-- The state of the block, its run records, its host's pending moves and its environment. -/
structure State where
  /-- The build-time parameters (R7); no step changes them. -/
  cfg : Config
  /-- `pin[p]`, keyed by pin id; an unlisted pin is INPUT with latch 0 (R20, R39). -/
  pins : Sparse PinState
  /-- `phase[b]` (R28). -/
  phase : PerBus Phase
  /-- `owner[b]` (R31). -/
  owner : PerBus Owner
  /-- The trace, newest event first (R35); `State.trace` gives it in order. -/
  traceRev : List Event
  /-- The sticky fault record (R236). -/
  fault : Option Fault
  /-- The refusal mark (R78, R242). -/
  refusal : Option RefuseReason
  /-- The host's mask (R244). -/
  masked : Bool
  /-- HANDLER is running (R245). -/
  handlerRunning : Bool
  /-- MAIN's command in progress (R37, R245). -/
  mainJob : Option Job
  /-- HANDLER's command in progress (R234). -/
  handlerJob : Option Job
  /-- What MAIN's host does next, in order (R255). -/
  mainTodo : List HostMove
  /-- The commands HANDLER still issues in this activation (R245). -/
  handlerTodo : List CmdWord
  /-- The commands of HANDLER's later activations, one list for each (R246, R255). -/
  activations : List (List CmdWord)
  /-- The results returned to the contexts, newest first (R79). -/
  returned : List (Ctx × Result)
  /-- The environment (R22, R26, R32, R240). -/
  env : Env
deriving DecidableEq, Repr

/-- Why a command word has no meaning. Safe: the spec gives the word no meaning. -/
inductive Refusal where
  /-- An instruction whose arm has no meaning yet; raised by `exec` alone (no arm of this model raises it). -/
  | notModelled (mnemonic : String)
  /-- R78, R242: raised by `step` for a word that decodes to nothing (IllegalOpcode, ReservedBits) and by a meaning
  for operands outside its domain (OutOfDomain). `run` is the run as the refusal leaves it: the refusal mark is
  set and nothing else is changed. -/
  | refuse (reason : RefuseReason) (run : State)
deriving DecidableEq, Repr

/-- The environment at reset: unconstrained peers on both buses and nothing known of any draw (R39, 93 B17). -/
def Env.reset : Env where
  peers := { rtc := .free, disp := .free }
  now := Config.freeMove 0
  script := []
  tick := 1

/-- The state after reset (R39, R260): every pin INPUT with latch 0, both phases IDLE, no owner, empty trace, no
fault, no refusal mark, `masked = 0`, HANDLER not running, no command in progress or pending. -/
def State.reset : State where
  cfg := Config.default
  pins := []
  phase := { rtc := .idle, disp := .idle }
  owner := { rtc := .none, disp := .none }
  traceRev := []
  fault := none
  refusal := none
  masked := false
  handlerRunning := false
  mainJob := none
  handlerJob := none
  mainTodo := []
  handlerTodo := []
  activations := []
  returned := []
  env := Env.reset

end Sys2Proof.Machine
end

