-- ==== Sys2Proof/Machine/Sparse.lean ====
section
/-! DEFINITION. The named operations over sparse stores (the pin file) and byte memories (the expected peers'
registers): read, write and the canonical form. -/

namespace Sys2Proof.Machine

/-- What key `k` reads as: its entry, else the default `d`. -/
def Sparse.get {α : Type} (d : α) : Sparse α → Nat → α
  | [], _ => d
  | (k', v) :: rest, k => if k' = k then v else Sparse.get d rest k

/-- Store `v` at key `k`, keeping the canonical form: writing the default removes the entry. -/
def Sparse.set {α : Type} [DecidableEq α] (d : α) : Sparse α → Nat → α → Sparse α
  | [], k, v => if v = d then [] else [(k, v)]
  | (k', v') :: rest, k, v =>
    if k < k' then (if v = d then (k', v') :: rest else (k, v) :: (k', v') :: rest)
    else if k = k' then (if v = d then rest else (k, v) :: rest)
    else (k', v') :: Sparse.set d rest k v

/-- Every key of the store lies above `lo`, the keys rise strictly, and no entry is the default. -/
def Sparse.above {α : Type} [DecidableEq α] (d : α) : Nat → Sparse α → Bool
  | _, [] => true
  | lo, (k, v) :: rest => decide (lo ≤ k) && decide (v ≠ d) && Sparse.above d (k + 1) rest

/-- The canonical form of a sparse store. -/
def Sparse.wf {α : Type} [DecidableEq α] (d : α) (m : Sparse α) : Bool := Sparse.above d 0 m

/-- What an unlisted address of a peer's memory reads as (log entry 8). -/
def Memory.blank : Byte := 0

/-- The byte at address `a`. -/
def Memory.read (m : Memory) (a : Byte) : Byte := Sparse.get Memory.blank m a.toNat

/-- Write the byte `v` at address `a`. -/
def Memory.write (m : Memory) (a v : Byte) : Memory := Sparse.set Memory.blank m a.toNat v

/-- The canonical form of a memory. -/
def Memory.wf (m : Memory) : Bool := Sparse.wf Memory.blank m

end Sys2Proof.Machine

namespace Sys2Proof

/-- The thing of bus `b`. -/
def PerBus.get {α : Type} (x : PerBus α) : Bus → α
  | .rtc => x.rtc
  | .disp => x.disp

/-- `x` with `v` for bus `b`. -/
def PerBus.set {α : Type} (x : PerBus α) (b : Bus) (v : α) : PerBus α :=
  match b with
  | .rtc => { x with rtc := v }
  | .disp => { x with disp := v }

/-- The thing of line `l`. -/
def PerLine.get {α : Type} (x : PerLine α) : Line → α
  | .scl => x.scl
  | .sda => x.sda

end Sys2Proof
end

