-- ==== Sys2Proof/Machine/Operands.lean ====
section
/-! DEFINITION. Operand forms: pin ids and their mapping (R50, R100, R101), bus pins (R23), the address byte (R80),
bit selection and assembly on the wire (R54, R137), operand domains (R77), and platform requirements (R183, R263). -/

namespace Sys2Proof.Machine

/-- `valid(p)` (R100). -/
def validPin (c : Config) (p : Byte) : Bool :=
  1 ≤ p.toNat && p.toNat ≤ c.nPins && !c.reservedPins.toList.contains p

/-- `slot(p)`: the reserved ids below `p` are skipped (R101). -/
def pinSlot (c : Config) (p : Byte) : Nat :=
  p.toNat - 1 - (c.reservedPins.toList.filter fun r => r.toNat < p.toNat).length

/-- `port(p)` (R101). -/
def pinPort (c : Config) (p : Byte) : Nat := pinSlot c p / c.pinsPerPort

/-- `bit(p)` (R101). -/
def pinBit (c : Config) (p : Byte) : Nat := pinSlot c p % c.pinsPerPort

/-- `P(b, L)`: the pin of line `l` of bus `b` (R23). -/
def pinOf (c : Config) (b : Bus) : Line → Byte
  | .scl => c.sclPin.get b
  | .sda => c.sdaPin.get b

/-- The bus and line a bus pin carries (R23). -/
def lineOf (c : Config) (p : Byte) : Option (Bus × Line) :=
  if p = pinOf c .rtc .scl then some (.rtc, .scl)
  else if p = pinOf c .rtc .sda then some (.rtc, .sda)
  else if p = pinOf c .disp .scl then some (.disp, .scl)
  else if p = pinOf c .disp .sda then some (.disp, .sda)
  else none

/-- `bitAt(order, x, i)`: the byte bit carried as the i-th bit on the wire (R137). -/
def bitAt (o : BitOrder) (x : Byte) (i : Nat) : Bool :=
  match o with
  | .msbFirst => x.getLsbD (7 - i)
  | .lsbFirst => x.getLsbD i

/-- `place(order, v, i, s)`: put the i-th bit from the wire into the byte (R137). -/
def place (o : BitOrder) (v : Byte) (i : Nat) (s : Bool) : Byte :=
  match o with
  | .msbFirst => v ||| ((BitVec.ofBool s).setWidth 8 <<< (7 - i))
  | .lsbFirst => v ||| ((BitVec.ofBool s).setWidth 8 <<< i)

/-- The bits of a byte in the order they go over the wire (R54). -/
def wireBits (o : BitOrder) (x : Byte) : List Bool := (List.range 8).map (bitAt o x)

/-- The address byte `(address << 1) | read_flag` (R80). -/
def addressByte (addr : BitVec 7) (rw : Bool) : Byte := (addr.setWidth 8 <<< 1) ||| (BitVec.ofBool rw).setWidth 8

/-- `X <= 99` (R77, R160). -/
def bcdDomain (x : Byte) : Bool := x.toNat ≤ 99

/-- `YEAR_MIN <= YEAR <= YEAR_MAX` (R77, R163). -/
def yearDomain (y : BitVec 16) : Bool := Config.yearMin ≤ y.toNat && y.toNat ≤ Config.yearMax

/-- `1 <= N <= 7` (R77, R180). -/
def readDomain (n : BitVec 3) : Bool := 1 ≤ n.toNat && n.toNat ≤ 7

/-- `1 <= N <= 4` and every `DATAi` with `i >= N` zero (R77, R181). -/
def writeDomain (n : BitVec 3) (data : List Byte) : Bool :=
  1 ≤ n.toNat && n.toNat ≤ 4 && (data.drop n.toNat).all (· == 0)

/-- `VALUE <= 9999` (R77, R213). -/
def numberDomain (v : BitVec 16) : Bool := v.toNat ≤ 9999

/-- The platform requirements on the parameters: a valid board (R7, R23, R263), register addresses that allow the
bursts (R183), segment entries with bit 7 clear (R210), an encodable alarm second (R190). -/
def configWf (c : Config) : Bool :=
  c.nPins ≤ 255 && decide c.reservedPins.toList.Nodup &&
    c.reservedPins.toList.all (fun r => 1 ≤ r.toNat && r.toNat ≤ c.nPins) &&
    validPin c (pinOf c .rtc .scl) && validPin c (pinOf c .rtc .sda) &&
    validPin c (pinOf c .disp .scl) && validPin c (pinOf c .disp .sda) &&
    decide [pinOf c .rtc .scl, pinOf c .rtc .sda, pinOf c .disp .scl, pinOf c .disp .sda].Nodup &&
    decide (0 < c.pinsPerPort) &&
    c.regMinutes == c.regSeconds + 1 && c.regHours == c.regSeconds + 2 &&
    c.regMonth == c.regDay + 1 && c.regYear == c.regDay + 2 && c.regTempLsb == c.regTempMsb + 1 &&
    c.segTable.toList.all (fun m => !m.getLsbD 7) && bcdDomain c.alarmSecond

end Sys2Proof.Machine
end

