-- ==== Sys2Proof/Machine/Flags.lean ====
section
/-! DEFINITION. Flags. The block keeps no condition flags and no acknowledgment register (R29); the flag bits it
computes with are single bits of RTC register bytes (R87) and the century flag (R82). -/

namespace Sys2Proof.Machine

/-- `1 << i` as a byte. -/
def flagMask (i : Fin 8) : Byte := 1#8 <<< i.val

/-- `v | (1 << i)` (R190). -/
def setFlag (v : Byte) (i : Fin 8) : Byte := v ||| flagMask i

/-- `v & ~(1 << i)` (R191). -/
def clearFlag (v : Byte) (i : Fin 8) : Byte := v &&& ~~~(flagMask i)

/-- The flag bits of the status register: `A1F_BIT` and the others (R183, R192). -/
def statusFlagMask (c : Config) : Byte := c.statusFlags ||| flagMask c.a1fBit

/-- An acknowledgment bit that samples low is an acknowledgment (R13, R134). -/
def acked (sample : Bool) : Bool := !sample

end Sys2Proof.Machine
end

