-- ==== Sys2Proof/Machine/Peers.lean ====
section
/-! DEFINITION. The expected peers at the level of line transitions: the RTC of 44_rtc.md R192 and the display of
45_display.md R215. A peer samples SDA on each rising edge of SCL, changes SDA only after a falling edge of SCL, and
recognises start and stop conditions (95_test_vectors.md). Both are assumptions about the environment. -/

namespace Sys2Proof.Machine

/-- What an expected peer sees when the lines change from what it last saw to `scl`, `sda`. -/
inductive WireEdge where
  | start
  | stop
  | rise
  | fall
  | none
deriving DecidableEq, Repr

/-- The edge between the levels last seen and the present levels (R13). -/
def Wire.edge (w : Wire) (scl sda : Bool) : WireEdge :=
  match w.scl, scl, w.sda, sda with
  | true, true, true, false => .start
  | true, true, false, true => .stop
  | false, true, _, _ => .rise
  | true, false, _, _ => .fall
  | _, _, _, _ => .none

/-- A start condition: await a byte, drive nothing. -/
def Wire.onStart (w : Wire) : Wire := { w with link := .receive, shift := 0, count := 0, low := false }

/-- A stop condition, or an address or byte the peer does not take: drive nothing until the next start. -/
def Wire.onStop (w : Wire) : Wire := { w with link := .idle, low := false }

/-- The byte with one more bit received in order `o`. -/
def shiftIn (o : BitOrder) (x : Byte) (v : Bool) : Byte :=
  match o with
  | .msbFirst => (x <<< 1) ||| (BitVec.ofBool v).setWidth 8
  | .lsbFirst => (x >>> 1) ||| ((BitVec.ofBool v).setWidth 8 <<< 7)

/-- A rising edge of SCL: a data bit, or the acknowledgment bit of a byte. -/
def Wire.onRise (o : BitOrder) (sda : Bool) (w : Wire) : Wire :=
  match w.link with
  | .idle => w
  | .receive =>
    if w.count < 8 then { w with shift := shiftIn o w.shift sda, count := w.count + 1 } else { w with count := 9 }
  | .send => if w.count < 8 then { w with count := w.count + 1 } else { w with count := 9, ackBit := sda }

/-- Present a byte to the block: its first bit is driven at once. -/
def Wire.load (o : BitOrder) (x : Byte) (w : Wire) : Wire :=
  { w with link := .send, shift := x, count := 0, low := !bitAt o x 0 }

/-- The peer acknowledges the byte just received by holding SDA low through the ninth clock pulse. -/
def Wire.acknowledge (w : Wire) : Wire := { w with low := true }

/-- After the acknowledgment pulse: await the next byte. -/
def Wire.nextByte (w : Wire) : Wire := { w with shift := 0, count := 0, low := false }

/-- A falling edge while the peer sends: the next bit, or the line released for the block's acknowledgment. -/
def Wire.sendFall (o : BitOrder) (w : Wire) : Wire :=
  { w with low := bif w.count < 8 then !bitAt o w.shift w.count else false }

/-- The RTC loads the register at the pointer and the pointer advances by 1 (R192). DESIGN CHOICE, the spec is silent: it
advances when the byte is loaded to be sent, so a byte presented after an acknowledged one counts as read even if a stop or
a repeated start comes before it is clocked out. DESIGN CHOICE, the spec leaves it open (R56, 93_implementation_defined.md
B4): past its last register the RTC goes on through 256 stored registers, and its pointer wraps from 0xFF to 0x00, for a
byte read here and for a byte written in `RtcDevice.store` (log entry 10). -/
def RtcDevice.load (d : RtcDevice) : RtcDevice :=
  { d with wire := d.wire.load .msbFirst (d.regs.read d.ptr), ptr := d.ptr + 1 }

/-- The status register after the bus wrote `x` over `old`: a flag bit is cleared by writing 0 and left unchanged by
writing 1; any other bit is stored as written (R192, log entry 10). -/
def statusAfter (c : Config) (old x : Byte) : Byte :=
  (old &&& x &&& statusFlagMask c) ||| (x &&& ~~~(statusFlagMask c))

/-- A byte stored by the bus at the pointer, which advances by 1 (R192). DESIGN CHOICE, the spec is silent: a write that
makes the counters equal the alarm-1 registers does not itself set the alarm-1 flag (log entry 10). -/
def RtcDevice.store (c : Config) (d : RtcDevice) (x : Byte) : RtcDevice :=
  let v := bif d.ptr == c.regStatus then statusAfter c (d.regs.read d.ptr) x else x
  { d with regs := d.regs.write d.ptr v, ptr := d.ptr + 1 }

/-- A whole byte received: address, register pointer, or data (R192). -/
def RtcDevice.onByte (c : Config) (d : RtcDevice) : RtcDevice :=
  let x := d.wire.shift
  match d.stage with
  | .address =>
    if x = addressByte c.rtcAddr false then { d with wire := d.wire.acknowledge, stage := .pointer }
    else if x = addressByte c.rtcAddr true then { d with wire := d.wire.acknowledge, stage := .reading }
    else { d with wire := d.wire.onStop }
  | .pointer => { d with wire := d.wire.acknowledge, stage := .data, ptr := x }
  | .data => { d.store c x with wire := d.wire.acknowledge }
  | .reading => d

/-- A falling edge of SCL at the RTC. DESIGN CHOICE, the spec is silent (R192) on a transfer against the direction of the
address byte: a BUS_READ after RW = 0 is to the RTC a byte written whose bits are the levels of SDA; after RW = 1 it keeps
sending through a BUS_WRITE and does not acknowledge it (log entry 10). -/
def RtcDevice.onFall (c : Config) (d : RtcDevice) : RtcDevice :=
  match d.wire.link with
  | .idle => d
  | .receive =>
    if d.wire.count = 8 then d.onByte c
    else if d.wire.count = 9 then
      match d.stage with
      | .reading => d.load
      | _ => { d with wire := d.wire.nextByte }
    else d
  | .send =>
    if d.wire.count = 9 then (if d.wire.ackBit then { d with wire := d.wire.onStop } else d.load)
    else { d with wire := d.wire.sendFall .msbFirst }

/-- The RTC after a change of its lines to `scl`, `sda`. DESIGN CHOICE, the spec leaves it open
(93_implementation_defined.md B20): after a BUS_INIT in the middle of a byte it keeps the bits it has received and goes on
from the line changes it sees (log entry 10). -/
def RtcDevice.observe (c : Config) (scl sda : Bool) (d : RtcDevice) : RtcDevice :=
  let d' := match d.wire.edge scl sda with
    | .start => { d with wire := d.wire.onStart, stage := .address }
    | .stop => { d with wire := d.wire.onStop }
    | .rise => { d with wire := d.wire.onRise .msbFirst sda }
    | .fall => d.onFall c
    | .none => d
  { d' with wire := { d'.wire with scl := scl, sda := sda } }

/-- The RTC's interrupt output: flag and enable both set and the square-wave output off (R192); `CTRL_INIT` is the
control value that switches the square wave off (R87). -/
def RtcDevice.interrupt (c : Config) (d : RtcDevice) : Bool :=
  (d.regs.read c.regStatus).getLsbD c.a1fBit.val && (d.regs.read c.regControl).getLsbD c.a1ieBit.val &&
    (d.regs.read c.regControl &&& c.ctrlInit == c.ctrlInit)

/-- One alarm-1 register against its counter: its mask bit set, or equal (R83, R192). DESIGN CHOICE where `ALARM_MASK` (a
parameter, R7) is other than 0x80: R83 names bit 7, and the model takes any set bit of `ALARM_MASK` for the mask bit (log
entry 10). -/
def alarmMatches (c : Config) (alarm counter : Byte) : Bool := (alarm &&& c.alarmMask != 0) || alarm == counter

/-- The time counters change, and the alarm-1 flag is set when they match the alarm-1 registers (R192). DESIGN CHOICE, the
spec leaves it open (R272, 93_implementation_defined.md B22): the RTC changes nothing else by itself; it never sets another
status flag, the second alarm's among them, and never changes its temperature registers. DESIGN CHOICE, the spec names the
seconds register alone (R83) and not when the match is tested: the alarm-1 registers +1, +2 and +3 are matched with the
minute, hour and day-of-month counters as whole bytes, and only here, where time passes (log entry 10). -/
def RtcDevice.setClock (c : Config) (t : Counters) (d : RtcDevice) : RtcDevice :=
  let regs := ((((((d.regs.write c.regSeconds t.second).write c.regMinutes t.minute).write c.regHours t.hour).write
    c.regDay t.day).write c.regMonth t.month).write c.regYear t.year)
  let hit := alarmMatches c (regs.read c.regAlarm1) t.second && alarmMatches c (regs.read (c.regAlarm1 + 1)) t.minute &&
    alarmMatches c (regs.read (c.regAlarm1 + 2)) t.hour && alarmMatches c (regs.read (c.regAlarm1 + 3)) t.day
  { d with regs := bif hit then regs.write c.regStatus (setFlag (regs.read c.regStatus) c.a1fBit) else regs }

/-- The first byte after a start condition is a command (R215, R86). DESIGN CHOICE, the spec is silent: any other command
byte changes nothing, and what follows any command is segment data (log entry 11). -/
def DisplayDevice.command (d : DisplayDevice) (x : Byte) : DisplayDevice :=
  if x = Config.dispCmdAutoInc then { d with atCommand := false, autoInc := true }
  else if x = Config.dispCmdAddr0 then { d with atCommand := false, ptr := 0 }
  else if x &&& 0xF8#8 = Config.dispCtrlBase ||| Config.dispOn then { d with atCommand := false, control := x }
  else { d with atCommand := false }

/-- A whole byte received by the display: its command byte or a segment byte; every byte is acknowledged (R215).
DESIGN CHOICE, the spec is silent (R53, R215): a segment byte past position 3 is stored at position 4, 5, ... of a memory
of 256 positions, whose pointer wraps at 8 bits; and every byte after the command byte of a transaction is stored at the
pointer as segment data, whatever the command was, 0xC0 or not (log entry 11). -/
def DisplayDevice.onByte (d : DisplayDevice) : DisplayDevice :=
  let x := d.wire.shift
  let d' := bif d.atCommand then d.command x
    else { d with segments := d.segments.write d.ptr x, ptr := bif d.autoInc then d.ptr + 1 else d.ptr }
  { d' with wire := d.wire.acknowledge }

/-- A falling edge of SCL at the display. -/
def DisplayDevice.onFall (d : DisplayDevice) : DisplayDevice :=
  match d.wire.link with
  | .receive =>
    if d.wire.count = 8 then d.onByte
    else if d.wire.count = 9 then { d with wire := d.wire.nextByte }
    else d
  | _ => d

/-- The display after a change of its lines to `scl`, `sda`. DESIGN CHOICE, the spec leaves it open
(93_implementation_defined.md B20): after a BUS_INIT in the middle of a byte it keeps the bits it has received and goes on
from the line changes it sees (log entry 11). -/
def DisplayDevice.observe (scl sda : Bool) (d : DisplayDevice) : DisplayDevice :=
  let d' := match d.wire.edge scl sda with
    | .start => { d with wire := d.wire.onStart, atCommand := true }
    | .stop => { d with wire := d.wire.onStop }
    | .rise => { d with wire := d.wire.onRise .lsbFirst sda }
    | .fall => d.onFall
    | .none => d
  { d' with wire := { d'.wire with scl := scl, sda := sda } }

/-- `peer_low(b, L)` (R26): the draw of an unconstrained peer, or what the expected peer drives (never SCL). -/
def Peer.low (p : Peer) (drive : PerLine Bool) (l : Line) : Bool :=
  match p, l with
  | .free, l => drive.get l
  | .absent, _ => false
  | .rtc _, .scl => false
  | .rtc d, .sda => d.wire.low
  | .display _, .scl => false
  | .display d, .sda => d.wire.low

/-- The peer after the block changed a line: an expected peer reacts to the levels, any other does not. -/
def Peer.observe (c : Config) (scl sda : Bool) : Peer → Peer
  | .free => .free
  | .absent => .absent
  | .rtc d => .rtc (d.observe c scl sda)
  | .display d => .display (d.observe scl sda)

/-- The peer after the environment set the RTC's counters. -/
def Peer.setClock (c : Config) (t : Option Counters) (p : Peer) : Peer :=
  match t, p with
  | some t, .rtc d => .rtc (d.setClock c t)
  | _, p => p

/-- The notification as an expected RTC holds it pending; an RTC that is not modelled leaves it to `drawn` (R240). -/
def Peer.pending (c : Config) (drawn : Bool) : Peer → Bool
  | .rtc d => d.interrupt c
  | .free | .absent | .display _ => drawn

end Sys2Proof.Machine
end

