-- ==== Sys2Proof/Machine/Ops.lean ====
section
/-! DEFINITION. The named operations over the state: pins, lines and levels (10_state.md R20 to R26), the trace (R35),
ownership (R31), faults and refusals (60_exceptions.md R236, R242), the environment's moves (R22, R26), the
notification's entry and HANDLER's end (R245), and the line-driver actions (41_line.md R110 to R113). -/

namespace Sys2Proof.Machine

/-- The trace in order (R35). -/
def State.trace (s : State) : List Event := s.traceRev.reverse

/-- `pin[p]` (R20). -/
def State.pin (s : State) (p : Byte) : PinState := Sparse.get PinState.reset s.pins p.toNat

/-- Write both fields of `pin[p]` (R20). -/
def State.setPin (s : State) (p : Byte) (v : PinState) : State :=
  { s with pins := Sparse.set PinState.reset s.pins p.toNat v }

/-- The block drives line `l` of bus `b` low (R24). -/
def State.drivesLow (s : State) (b : Bus) (l : Line) : Bool := (s.pin (pinOf s.cfg b l)).mode == .output

/-- `peer_low(b, L)` (R26). -/
def State.peerLow (s : State) (b : Bus) (l : Line) : Bool := (s.env.peers.get b).low (s.env.now.drive.get b) l

/-- `level(b, L)`: the wired-AND; without a pull-up a line nobody drives low is a draw (R25). -/
def State.level (s : State) (b : Bus) (l : Line) : Bool :=
  !(s.drivesLow b l || s.peerLow b l) && (s.cfg.pullupsPresent || (s.env.now.floating.get b).get l)

/-- Record one event (R35). -/
def State.record (s : State) (e : Event) : State := { s with traceRev := e :: s.traceRev }

/-- `phase[b] <- p` (R28). -/
def State.setPhase (s : State) (b : Bus) (p : Phase) : State := { s with phase := s.phase.set b p }

/-- `owner[b] <- o` (R31). -/
def State.setOwner (s : State) (b : Bus) (o : Owner) : State := { s with owner := s.owner.set b o }

/-- The context whose command is issued: HANDLER while it runs, MAIN otherwise (R30, R245). -/
def State.ctx (s : State) : Ctx := bif s.handlerRunning then .handler else .main

/-- A context as an owner (R31). -/
def Ctx.owner : Ctx → Owner
  | .main => .main
  | .handler => .handler

/-- Return a result to the issuing context (R79). -/
def State.give (s : State) (r : Result) : State := { s with returned := (s.ctx, r) :: s.returned }

/-- `raise Fault(kind, info)`: set the sticky record and nothing else; the command goes no further (R236). -/
def State.raise (s : State) (f : Fault) : State := { s with fault := some f }

/-- `refuse(reason)`: set the refusal mark and nothing else (R78, R242). -/
def State.mark (s : State) (r : RefuseReason) : State := { s with refusal := some r }

/-- A context's command is left in progress at the position its answers fix (R37, R245). -/
def State.suspend (s : State) (j : Job) : State :=
  { s with
    handlerJob := bif s.handlerRunning then some j else s.handlerJob
    mainJob := bif s.handlerRunning then s.mainJob else some j }

/-- An expected peer reacts to the block's change of a line of bus `b` (R192, R215). -/
def State.observe (s : State) (b : Bus) : State :=
  { s with env := { s.env with
      peers := s.env.peers.set b ((s.env.peers.get b).observe s.cfg (s.level b .scl) (s.level b .sda)) } }

/-- The environment's next move: the script's, or the free value (log entry 2). -/
def Env.upcoming (e : Env) : EnvMove :=
  match e.script with
  | m :: _ => m
  | [] => Config.freeMove e.tick

/-- The environment's move number `k` from now, if it is not asked for in between (log entry 2). -/
def Env.moveAt (e : Env) (k : Nat) : EnvMove := (e.script[k]?).getD (Config.freeMove (e.tick + k))

/-- The environment moves. A pending notification stays pending (R244, R245). -/
def Env.advance (c : Config) (e : Env) : Env where
  peers := { rtc := e.peers.rtc.setClock c e.upcoming.clock, disp := e.peers.disp.setClock c e.upcoming.clock }
  now := { e.upcoming with pending := e.upcoming.pending || e.now.pending }
  script := e.script.tail
  tick := e.tick + 1

/-- The environment's move before a micro-step (R26). -/
def State.envMove (s : State) : State := { s with env := s.env.advance s.cfg }

/-- The notification is pending (R240). -/
def State.pending (s : State) : Bool := s.env.peers.rtc.pending s.cfg s.env.now.pending

/-- The notification fires now: pending, `masked = 0`, HANDLER not running, and the source so chooses (R245). -/
def State.fires (s : State) : Bool := !s.masked && !s.handlerRunning && s.pending && s.env.now.fire

/-- The notification's entry: HANDLER starts, with the commands its host chose; nothing is saved or changed (R245). -/
def State.startHandler (s : State) : State :=
  { s with handlerRunning := true, handlerTodo := s.activations.headD [], activations := s.activations.tail }

/-- HANDLER has issued its last command and it has returned; MAIN resumes where it stood (R245). -/
def State.endHandler (s : State) : State := { s with handlerRunning := false }

/-- `drive_low(b, L)`: latch 0, mode OUTPUT, record (R110). -/
def State.driveLow (s : State) (b : Bus) (l : Line) : State :=
  ((s.setPin (pinOf s.cfg b l) { mode := .output, latch := false }).record (.driveLow b l)).observe b

/-- `release(b, L)`: mode INPUT, the latch left as it is, record (R111). -/
def State.release (s : State) (b : Bus) (l : Line) : State :=
  ((s.setPin (pinOf s.cfg b l) { s.pin (pinOf s.cfg b l) with mode := .input }).record (.release b l)).observe b

/-- The other context owns bus `b` (R31). -/
def State.ownedByOther (s : State) (b : Bus) : Bool :=
  s.owner.get b != .none && s.owner.get b != s.ctx.owner

/-- The commands that clear the notification when they return `r`: RTC_ACK_ALARM, and RTC_ARM_ALARM, which returns what
its last step RTC_ACK_ALARM returns (R190, R191, R240). -/
def clearsPending (i : Instr) (r : Result) : Bool :=
  match i, r with
  | .rtcAckAlarm, .ok true => true
  | .rtcArmAlarm, .ok true => true
  | _, _ => false

/-- Command `i` returns `r`: an unconstrained source's notification ceases to be pending only where that is a
RTC_ACK_ALARM's clear and the source takes it so (R245, log entry 12). -/
def State.acknowledge (s : State) (i : Instr) (r : Result) : State :=
  { s with env := { s.env with now := { s.env.now with
      pending := s.env.now.pending && !(clearsPending i r && s.env.now.cleared) } } }

/-- The end of a bus command: `owner[b]` is NONE if the bus is IDLE and stays otherwise; the result returns (R31). -/
def State.finish (s : State) (b : Bus) (r : Result) : State :=
  { s with
    owner := bif s.phase.get b == .idle then s.owner.set b .none else s.owner
    returned := (s.ctx, r) :: s.returned }

end Sys2Proof.Machine
end

