-- ==== Sys2Proof/Machine/Micro.lean ====
section
/-! DEFINITION. A bus command as its fixed sequence of micro-steps (10_state.md R37, 00_scope.md R10), and what
running one does: the environment moves before each micro-step (R26), the notification may start HANDLER between two
micro-steps of MAIN (60_exceptions.md R245), and a clock wait holds while SCL is low (41_line.md R113). -/

namespace Sys2Proof.Machine

/-- The micro-steps that answer nothing. -/
inductive Act where
  /-- `drive_low(b, L)` (R110). -/
  | driveLow (b : Bus) (l : Line)
  /-- `release(b, L)` (R111). -/
  | release (b : Bus) (l : Line)
  /-- `wait_high(b)` (R113). -/
  | waitHigh (b : Bus)
  /-- `delay(t)` (R33). -/
  | delay (t : Nat)
  /-- `phase[b] <- p` (R28). -/
  | phase (b : Bus) (p : Phase)
  /-- `emit Log(AckFail, b, byte)` (R34). -/
  | ackFail (b : Bus) (byte : Byte)
deriving DecidableEq, Repr

/-- A sequence of micro-steps, its course depending on the answers of samples and phase tests. -/
inductive Prog where
  /-- `return r`. -/
  | ret (r : Result)
  /-- A micro-step, then the rest. -/
  | act (a : Act) (rest : Prog)
  /-- `sample`: a read of line `l` of bus `b`, then the rest as it answers (R112). -/
  | sample (b : Bus) (l : Line) (rest : Bool → Prog)
  /-- Whether `phase[b]` is IDLE (R131). -/
  | ifIdle (b : Bus) (rest : Bool → Prog)

/-- What one micro-step does. -/
inductive Effect where
  /-- It completes in the given state. -/
  | done (s : State)
  /-- It is not enabled now (R113, R234). -/
  | hold
  /-- It raises a fault; the state stays as it found it (R236). -/
  | fault (f : Fault)

/-- One micro-step (R33, R34, R110, R111, R113). DEDUCED: the clock wait of an engine command makes the check of R113 too,
at its first try and at every later one. R241 says that no engine command reaches SelfStall, but a PIN_SET_MODE of HANDLER,
which no owner stops (R102), may drive SCL between the command's release of it and a try; the try then raises SelfStall (log
entry 14). -/
def Act.effect (s : State) : Act → Effect
  | .driveLow b l => .done (s.driveLow b l)
  | .release b l => .done (s.release b l)
  | .waitHigh b =>
    if s.drivesLow b .scl then .fault (.selfStall b)
    else if s.level b .scl then .done (s.record (.waited b)) else .hold
  | .delay t => .done (s.record (.delay t))
  | .phase b p => .done (s.setPhase b p)
  | .ackFail b x => .done (s.record (.ackFail b x))

/-- Run command `i` on bus `b` from the position `trail` (answers so far, newest first) until it returns, holds,
faults, or the notification preempts it. -/
def run (i : Instr) (b : Bus) : Prog → List Bool → State → State
  | .ret r, _, s => (s.acknowledge i r).finish b r
  | .act a rest, trail, s =>
    let m := s.envMove
    bif m.fires then (m.suspend { instr := i, trail := trail.reverse }).startHandler
    else match a.effect m with
      | .done t => run i b rest (true :: trail) t
      | .hold => m.suspend { instr := i, trail := trail.reverse }
      | .fault f => m.raise f
  | .sample b' l rest, trail, s =>
    let m := s.envMove
    bif m.fires then (m.suspend { instr := i, trail := trail.reverse }).startHandler
    else run i b (rest (m.level b' l)) (m.level b' l :: trail) (m.record (.sample b' l (m.level b' l)))
  | .ifIdle b' rest, trail, s =>
    run i b (rest (s.phase.get b' == .idle)) ((s.phase.get b' == .idle) :: trail) s

/-- The rest of a sequence after the answers `trail` (oldest first): where a command in progress stands (R37). -/
def Prog.after : Prog → List Bool → Prog
  | .act _ rest, _ :: trail => rest.after trail
  | .sample _ _ rest, v :: trail => (rest v).after trail
  | .ifIdle _ rest, v :: trail => (rest v).after trail
  | p, _ => p

/-- What a bus command requires of `phase[b]` before its first micro-step (R138, R182, R214). -/
inductive Need where
  /-- Legal in every phase. -/
  | anyPhase
  /-- An open transaction (R138). -/
  | openTransaction
  /-- No open transaction (R182, R214). -/
  | idle
deriving DecidableEq, Repr

/-- The phase precondition holds. -/
def Need.met : Need → Phase → Bool
  | .anyPhase, _ => true
  | .openTransaction, p => p != .idle
  | .idle, p => p == .idle

/-- Begin and run a command that touches bus `b`: the ownership check, then the phase precondition, then the
micro-steps (R31, R237, R239, R243). -/
def busCommand (i : Instr) (b : Bus) (need : Need) (p : Prog) (s : State) : State :=
  bif s.ownedByOther b then s.raise (.overlap b s.ctx (s.owner.get b))
  else bif need.met (s.phase.get b) then run i b p [] (s.setOwner b s.ctx.owner)
  else (s.setOwner b s.ctx.owner).raise (.protocolMisuse b)

/-- The refusal of a command whose operands lie outside its domain (R77, R78). -/
def outOfDomain (s : State) : Host.Outcome State Fault Refusal :=
  .refused (.refuse .outOfDomain (s.mark .outOfDomain))

end Sys2Proof.Machine
end

