-- ==== Sys2Proof/Machine/Codec.lean ====
section
/-! DEFINITION. The BCD, year and temperature codec (43_codec.md): pure commands, no bus, no trace event. -/

namespace Sys2Proof.Machine

/-- `encode(d)` (R81, R160). -/
def bcdEncode (d : Nat) : Byte := BitVec.ofNat 8 (((d / 10) <<< 4) ||| (d % 10))

/-- `decode(b)`; the mask applies to `b` alone (R161, C2). -/
def bcdDecode (b : Byte) : Nat := (b.toNat >>> 4) * 10 + (b.toNat &&& 0xF)

/-- The stored year byte (R163). -/
def yearByte (year : Nat) : Byte := bcdEncode ((year - 1900) % 100)

/-- The century flag (R163, C1). -/
def centuryFlag (year : Nat) : Bool := 2100 ≤ year

/-- The year a stored byte and century flag stand for (R164). -/
def yearDecode (yb : Byte) (cen : Bool) : Nat := 2000 + 100 * cen.toNat + bcdDecode yb

/-- The signed integer part of a temperature (R165). -/
def tempInt (msb : Byte) : Int := msb.toInt

/-- The fraction in hundredths (R84, R165). -/
def tempFrac (lsb : Byte) : Nat := (lsb.toNat >>> 6) * Config.tempFracScale

/-- `month_byte(m, cen)` (R82, R166). -/
def monthByte (m : Nat) (cen : Bool) : Byte :=
  ((BitVec.ofBool cen).setWidth 8 <<< Config.centuryBit) ||| bcdEncode m

/-- The month of `split_month(mb)` (R166). -/
def splitMonth (mb : Byte) : Nat := bcdDecode (mb &&& 0x7F#8)

/-- The century flag of `split_month(mb)` (R166). -/
def splitCentury (mb : Byte) : Bool := mb.getLsbD Config.centuryBit

/-- BCD_ENCODE (R160). -/
def execBcdEncode (x : Byte) (s : State) : Host.Outcome State Fault Refusal :=
  bif bcdDomain x then .next (s.give (.byte (bcdEncode x.toNat))) else outOfDomain s

/-- BCD_DECODE (R161). -/
def execBcdDecode (x : Byte) (s : State) : Host.Outcome State Fault Refusal :=
  .next (s.give (.number (bcdDecode x)))

/-- YEAR_ENCODE (R163). -/
def execYearEncode (year : BitVec 16) (s : State) : Host.Outcome State Fault Refusal :=
  bif yearDomain year then .next (s.give (.yearCode (yearByte year.toNat) (centuryFlag year.toNat)))
  else outOfDomain s

/-- YEAR_DECODE (R164). -/
def execYearDecode (yb : Byte) (cen : Bool) (s : State) : Host.Outcome State Fault Refusal :=
  .next (s.give (.number (yearDecode yb cen)))

/-- TEMP_DECODE (R165). -/
def execTempDecode (msb lsb : Byte) (s : State) : Host.Outcome State Fault Refusal :=
  .next (s.give (.temperature (tempInt msb) (tempFrac lsb)))

end Sys2Proof.Machine
end

