-- ==== Sys2Proof/Machine/LineDriver.lean ====
section
/-! DEFINITION. The open-drain line driver (41_line.md): LINE_DRIVE_LOW R110, LINE_RELEASE R111, LINE_READ R112,
SCL_WAIT_HIGH R113, HALF_DELAY R114. Each applies the ownership check to its bus and changes no phase (R116). -/

namespace Sys2Proof.Machine

/-- The sequence of LINE_DRIVE_LOW (R110). -/
def lineDriveLowBody (b : Bus) (l : Line) : Prog := .act (.driveLow b l) (.ret .nothing)

/-- LINE_DRIVE_LOW (R110). -/
def execLineDriveLow (bus : Bus) (line : Line) (s : State) : Host.Outcome State Fault Refusal :=
  .next (busCommand (.lineDriveLow bus line) bus .anyPhase (lineDriveLowBody bus line) s)

/-- The sequence of LINE_RELEASE (R111). -/
def lineReleaseBody (b : Bus) (l : Line) : Prog := .act (.release b l) (.ret .nothing)

/-- LINE_RELEASE (R111). -/
def execLineRelease (bus : Bus) (line : Line) (s : State) : Host.Outcome State Fault Refusal :=
  .next (busCommand (.lineRelease bus line) bus .anyPhase (lineReleaseBody bus line) s)

/-- The sequence of LINE_READ (R112). -/
def lineReadBody (b : Bus) (l : Line) : Prog := .sample b l fun v => .ret (.bit v)

/-- LINE_READ (R112). -/
def execLineRead (bus : Bus) (line : Line) (s : State) : Host.Outcome State Fault Refusal :=
  .next (busCommand (.lineRead bus line) bus .anyPhase (lineReadBody bus line) s)

/-- The sequence of SCL_WAIT_HIGH (R113). -/
def sclWaitHighBody (b : Bus) : Prog := .act (.waitHigh b) (.ret .nothing)

/-- SCL_WAIT_HIGH (R113). -/
def execSclWaitHigh (bus : Bus) (s : State) : Host.Outcome State Fault Refusal :=
  .next (busCommand (.sclWaitHigh bus) bus .anyPhase (sclWaitHighBody bus) s)

/-- `dly()`: one half-bit period (R114). -/
def dly (c : Config) : Act := .delay c.tHalf

/-- The sequence of HALF_DELAY (R114). -/
def halfDelayBody (c : Config) : Prog := .act (dly c) (.ret .nothing)

/-- HALF_DELAY (R114). -/
def execHalfDelay (bus : Bus) (s : State) : Host.Outcome State Fault Refusal :=
  .next (busCommand (.halfDelay bus) bus .anyPhase (halfDelayBody s.cfg) s)

end Sys2Proof.Machine
end

