-- ==== Sys2Proof/Machine/Engine.lean ====
section
/-! DEFINITION. The two-wire engine (42_engine.md): the sub-procedures `wbit`, `rbit`, `xfer_out`, `xfer_in`, each
followed by the rest `k` of its command, and the commands BUS_INIT R130 to BUS_STOP R136. -/

namespace Sys2Proof.Machine

/-- `wbit(b, v)`: clock one bit out (R132). -/
def wbit (c : Config) (b : Bus) (v : Bool) (k : Prog) : Prog :=
  .act (bif v then .release b .sda else .driveLow b .sda) <|
  .act (dly c) <|
  .act (.release b .scl) <|
  .act (.waitHigh b) <|
  .act (dly c) <|
  .act (.driveLow b .scl) k

/-- `rbit(b)`: clock one bit in (R133). -/
def rbit (c : Config) (b : Bus) (k : Bool → Prog) : Prog :=
  .act (.release b .sda) <|
  .act (dly c) <|
  .act (.release b .scl) <|
  .act (.waitHigh b) <|
  .act (dly c) <|
  .sample b .sda fun s =>
  .act (.driveLow b .scl) (k s)

/-- Clock the bits out, first to last. -/
def wbits (c : Config) (b : Bus) : List Bool → Prog → Prog
  | [], k => k
  | v :: vs, k => wbit c b v (wbits c b vs k)

/-- Clock in the bits with the given wire indices, placing each into the byte (R135, R137). -/
def rbits (c : Config) (b : Bus) : List Nat → Byte → (Byte → Prog) → Prog
  | [], v, k => k v
  | i :: is, v, k => rbit c b fun s => rbits c b is (place (Config.order b) v i s) k

/-- `xfer_out(b, x)`: eight bits in `ORDER[b]`, then the acknowledgment sample; the answer is 1 for an
acknowledgment (R134). -/
def xferOut (c : Config) (b : Bus) (x : Byte) (k : Bool → Prog) : Prog :=
  wbits c b (wireBits (Config.order b) x) (rbit c b fun a => k (acked a))

/-- `xfer_in(b, last)`: eight bits in `ORDER[b]`, then the acknowledgment the block drives (R135). -/
def xferIn (c : Config) (b : Bus) (last : Bool) (k : Byte → Prog) : Prog :=
  rbits c b (List.range 8) 0 fun v => wbit c b last (k v)

/-- The repeated start's prefix: both lines released and SCL seen high (R131). -/
def restart (c : Config) (b : Bus) (k : Prog) : Prog :=
  .act (.release b .sda) <|
  .act (dly c) <|
  .act (.release b .scl) <|
  .act (.waitHigh b) <|
  .act (dly c) k

/-- The start condition: SDA falls while SCL is high, then SCL falls (R131). -/
def startCondition (c : Config) (b : Bus) (k : Prog) : Prog :=
  .act (.driveLow b .sda) <|
  .act (dly c) <|
  .act (.driveLow b .scl) k

/-- What follows the start condition: the optional addressing phase (R131). -/
def addressing (c : Config) (b : Bus) (ha : Bool) (addr : BitVec 7) (rw : Bool) (k : Bool → Prog) : Prog :=
  bif ha then .act (.phase b .addrSent) (xferOut c b (addressByte addr rw) k)
  else .act (.phase b .started) (k true)

/-- BUS_START as other commands expand to it (R131). -/
def startSeq (c : Config) (b : Bus) (ha : Bool) (addr : BitVec 7) (rw : Bool) (k : Bool → Prog) : Prog :=
  .ifIdle b fun idle =>
    bif idle then startCondition c b (addressing c b ha addr rw k)
    else restart c b (startCondition c b (addressing c b ha addr rw k))

/-- BUS_WRITE as other commands expand to it: a NACK is logged (R134). -/
def writeSeq (c : Config) (b : Bus) (x : Byte) (k : Bool → Prog) : Prog :=
  xferOut c b x fun ack =>
    .act (.phase b .transfer) (bif ack then k true else .act (.ackFail b x) (k false))

/-- BUS_READ as other commands expand to it (R135). -/
def readSeq (c : Config) (b : Bus) (last : Bool) (k : Byte → Prog) : Prog :=
  xferIn c b last fun v => .act (.phase b .transfer) (k v)

/-- BUS_STOP as other commands expand to it (R136). -/
def stopSeq (c : Config) (b : Bus) (k : Prog) : Prog :=
  .act (.driveLow b .sda) <|
  .act (dly c) <|
  .act (.release b .scl) <|
  .act (.waitHigh b) <|
  .act (dly c) <|
  .act (.release b .sda) <|
  .act (.delay c.tSettle) <|
  .act (.phase b .idle) k

/-- The sequence of BUS_INIT (R130). -/
def busInitBody (b : Bus) : Prog :=
  .act (.release b .sda) <| .act (.release b .scl) <| .act (.phase b .idle) (.ret .nothing)

/-- BUS_INIT (R130). -/
def execBusInit (bus : Bus) (s : State) : Host.Outcome State Fault Refusal :=
  .next (busCommand (.busInit bus) bus .anyPhase (busInitBody bus) s)

/-- The sequence of BUS_START (R131). -/
def busStartBody (c : Config) (b : Bus) (ha : Bool) (addr : BitVec 7) (rw : Bool) : Prog :=
  startSeq c b ha addr rw fun ack => .ret (.bit ack)

/-- BUS_START (R131). -/
def execBusStart (bus : Bus) (ha : Bool) (addr : BitVec 7) (rw : Bool) (s : State) :
    Host.Outcome State Fault Refusal :=
  .next (busCommand (.busStart bus ha addr rw) bus .anyPhase (busStartBody s.cfg bus ha addr rw) s)

/-- The sequence of BUS_WRITE_BIT (R132). -/
def busWriteBitBody (c : Config) (b : Bus) (bit : Bool) : Prog := wbit c b bit (.ret .nothing)

/-- BUS_WRITE_BIT (R132). -/
def execBusWriteBit (bus : Bus) (bit : Bool) (s : State) : Host.Outcome State Fault Refusal :=
  .next (busCommand (.busWriteBit bus bit) bus .openTransaction (busWriteBitBody s.cfg bus bit) s)

/-- The sequence of BUS_READ_BIT (R133). -/
def busReadBitBody (c : Config) (b : Bus) : Prog := rbit c b fun v => .ret (.bit v)

/-- BUS_READ_BIT (R133). -/
def execBusReadBit (bus : Bus) (s : State) : Host.Outcome State Fault Refusal :=
  .next (busCommand (.busReadBit bus) bus .openTransaction (busReadBitBody s.cfg bus) s)

/-- The sequence of BUS_WRITE (R134). -/
def busWriteBody (c : Config) (b : Bus) (x : Byte) : Prog := writeSeq c b x fun ack => .ret (.bit ack)

/-- BUS_WRITE (R134). -/
def execBusWrite (bus : Bus) (byte : Byte) (s : State) : Host.Outcome State Fault Refusal :=
  .next (busCommand (.busWrite bus byte) bus .openTransaction (busWriteBody s.cfg bus byte) s)

/-- The sequence of BUS_READ (R135). -/
def busReadBody (c : Config) (b : Bus) (last : Bool) : Prog := readSeq c b last fun v => .ret (.byte v)

/-- BUS_READ (R135). -/
def execBusRead (bus : Bus) (last : Bool) (s : State) : Host.Outcome State Fault Refusal :=
  .next (busCommand (.busRead bus last) bus .openTransaction (busReadBody s.cfg bus last) s)

/-- The sequence of BUS_STOP (R136). -/
def busStopBody (c : Config) (b : Bus) : Prog := stopSeq c b (.ret .nothing)

/-- BUS_STOP (R136). -/
def execBusStop (bus : Bus) (s : State) : Host.Outcome State Fault Refusal :=
  .next (busCommand (.busStop bus) bus .openTransaction (busStopBody s.cfg bus) s)

end Sys2Proof.Machine
end

