-- ==== Sys2Proof/Machine/Rtc.lean ====
section
/-! DEFINITION. The RTC protocol adapter (44_rtc.md): register framing R180 to R182 and the operations R184 to R191,
each a fixed expansion into engine commands on bus 0. -/

namespace Sys2Proof.Machine

/-- BUS_START as an adapter issues it: with the address where its bus is addressed (R27, C4). -/
def adapterStart (c : Config) (b : Bus) (rw : Bool) (k : Bool → Prog) : Prog :=
  startSeq c b (Config.addressed b) c.rtcAddr rw k

/-- `rtc_abort()`: a stop when `ABORT_SENDS_STOP`, and no more of the operation (R182). -/
def rtcAbort (c : Config) (k : Prog) : Prog := bif c.abortSendsStop then stopSeq c .rtc k else k

/-- The data bytes of a read burst, NACKing only the last (R180); `done` holds the bytes read, newest first. -/
def readBurst (c : Config) : Nat → List Byte → (List Byte → Prog) → Prog
  | 0, done, k => k done.reverse
  | n + 1, done, k => readSeq c .rtc (n == 0) fun v => readBurst c n (v :: done) k

/-- RTC_READ_REGS as the operations expand to it: the bytes, or nothing after an address NACK (R180, R182). -/
def readRegs (c : Config) (reg : Byte) (n : Nat) (k : Option (List Byte) → Prog) : Prog :=
  adapterStart c .rtc false fun ok =>
    bif !ok then rtcAbort c (k none) else
      writeSeq c .rtc reg fun _ =>
        adapterStart c .rtc true fun ok =>
          bif !ok then rtcAbort c (k none) else
            readBurst c n [] fun d => stopSeq c .rtc (k (some d))

/-- The bytes of a write, first to last (R181); data acknowledgments are not checked (R193). -/
def writeBurst (c : Config) : List Byte → Prog → Prog
  | [], k => k
  | x :: xs, k => writeSeq c .rtc x fun _ => writeBurst c xs k

/-- RTC_WRITE_REGS as the operations expand to it (R181, R182). -/
def writeRegs (c : Config) (reg : Byte) (data : List Byte) (k : Bool → Prog) : Prog :=
  adapterStart c .rtc false fun ok =>
    bif !ok then rtcAbort c (k false) else
      writeBurst c (reg :: data) (stopSeq c .rtc (k true))

/-- The result of a read operation: `(0)` after an abort, else what `f` makes of the bytes (R184, R186, R188). -/
def readResult (f : List Byte → Result) : Option (List Byte) → Prog
  | none => .ret (.ok false)
  | some d => .ret (f d)

/-- Byte `i` of a burst. -/
def burstByte (d : List Byte) (i : Nat) : Byte := d.getD i 0

/-- The four bytes of RTC_WRITE_REGS, cut to `N` (R181). -/
def writeData (n : BitVec 3) (d0 d1 d2 d3 : Byte) : List Byte := [d0, d1, d2, d3].take n.toNat

/-- The sequence of RTC_READ_REGS (R180). -/
def rtcReadRegsBody (c : Config) (reg : Byte) (n : BitVec 3) : Prog :=
  readRegs c reg n.toNat (readResult .registers)

/-- RTC_READ_REGS (R180). -/
def execRtcReadRegs (reg : Byte) (n : BitVec 3) (s : State) : Host.Outcome State Fault Refusal :=
  bif readDomain n then
    .next (busCommand (.rtcReadRegs reg n) .rtc .idle (rtcReadRegsBody s.cfg reg n) s)
  else outOfDomain s

/-- The sequence of RTC_WRITE_REGS (R181). -/
def rtcWriteRegsBody (c : Config) (reg : Byte) (n : BitVec 3) (d0 d1 d2 d3 : Byte) : Prog :=
  writeRegs c reg (writeData n d0 d1 d2 d3) fun ok => .ret (.ok ok)

/-- RTC_WRITE_REGS (R181). -/
def execRtcWriteRegs (reg : Byte) (n : BitVec 3) (d0 d1 d2 d3 : Byte) (s : State) :
    Host.Outcome State Fault Refusal :=
  bif writeDomain n [d0, d1, d2, d3] then
    .next (busCommand (.rtcWriteRegs reg n d0 d1 d2 d3) .rtc .idle (rtcWriteRegsBody s.cfg reg n d0 d1 d2 d3) s)
  else outOfDomain s

/-- The time a burst from `REG_SECONDS` holds (R184). -/
def timeOf (d : List Byte) : Result :=
  .time (bcdDecode (burstByte d 2)) (bcdDecode (burstByte d 1)) (bcdDecode (burstByte d 0))

/-- The sequence of RTC_READ_TIME (R184). -/
def rtcReadTimeBody (c : Config) : Prog := readRegs c c.regSeconds 3 (readResult timeOf)

/-- RTC_READ_TIME (R184). -/
def execRtcReadTime (s : State) : Host.Outcome State Fault Refusal :=
  .next (busCommand .rtcReadTime .rtc .idle (rtcReadTimeBody s.cfg) s)

/-- The sequence of RTC_WRITE_TIME (R185). -/
def rtcWriteTimeBody (c : Config) (hour min sec : Byte) : Prog :=
  writeRegs c c.regSeconds [bcdEncode sec.toNat, bcdEncode min.toNat, bcdEncode hour.toNat] fun ok => .ret (.ok ok)

/-- RTC_WRITE_TIME (R185). -/
def execRtcWriteTime (hour min sec : Byte) (s : State) : Host.Outcome State Fault Refusal :=
  bif bcdDomain hour && bcdDomain min && bcdDomain sec then
    .next (busCommand (.rtcWriteTime hour min sec) .rtc .idle (rtcWriteTimeBody s.cfg hour min sec) s)
  else outOfDomain s

/-- The date a burst from `REG_DAY` holds (R186). -/
def dateOf (d : List Byte) : Result :=
  .date (bcdDecode (burstByte d 0)) (splitMonth (burstByte d 1))
    (yearDecode (burstByte d 2) (splitCentury (burstByte d 1)))

/-- The sequence of RTC_READ_DATE (R186). -/
def rtcReadDateBody (c : Config) : Prog := readRegs c c.regDay 3 (readResult dateOf)

/-- RTC_READ_DATE (R186). -/
def execRtcReadDate (s : State) : Host.Outcome State Fault Refusal :=
  .next (busCommand .rtcReadDate .rtc .idle (rtcReadDateBody s.cfg) s)

/-- The sequence of RTC_WRITE_DATE (R187). -/
def rtcWriteDateBody (c : Config) (day month : Byte) (year : BitVec 16) : Prog :=
  writeRegs c c.regDay
    [bcdEncode day.toNat, monthByte month.toNat (centuryFlag year.toNat), yearByte year.toNat] fun ok => .ret (.ok ok)

/-- RTC_WRITE_DATE (R187). -/
def execRtcWriteDate (day month : Byte) (year : BitVec 16) (s : State) : Host.Outcome State Fault Refusal :=
  bif bcdDomain day && bcdDomain month && yearDomain year then
    .next (busCommand (.rtcWriteDate day month year) .rtc .idle (rtcWriteDateBody s.cfg day month year) s)
  else outOfDomain s

/-- The temperature a burst from `REG_TEMP_MSB` holds (R188). -/
def temperatureOf (d : List Byte) : Result :=
  .rtcTemperature (tempInt (burstByte d 0)) (tempFrac (burstByte d 1))

/-- The sequence of RTC_READ_TEMP (R188). -/
def rtcReadTempBody (c : Config) : Prog := readRegs c c.regTempMsb 2 (readResult temperatureOf)

/-- RTC_READ_TEMP (R188). -/
def execRtcReadTemp (s : State) : Host.Outcome State Fault Refusal :=
  .next (busCommand .rtcReadTemp .rtc .idle (rtcReadTempBody s.cfg) s)

/-- The sequence of RTC_INIT: a full write of the control register (R189). -/
def rtcInitBody (c : Config) : Prog := writeRegs c c.regControl [c.ctrlInit] fun ok => .ret (.ok ok)

/-- RTC_INIT (R189). -/
def execRtcInit (s : State) : Host.Outcome State Fault Refusal :=
  .next (busCommand .rtcInit .rtc .idle (rtcInitBody s.cfg) s)

/-- Read one register and write it back as `f` changes it; `k` gets `ok` (R190, R191). -/
def updateReg (c : Config) (reg : Byte) (f : Byte → Byte) (k : Bool → Prog) : Prog :=
  readRegs c reg 1 fun d =>
    match d with
    | none => k false
    | some d => writeRegs c reg [f (burstByte d 0)] k

/-- The sequence of RTC_ACK_ALARM (R191). -/
def ackAlarmSeq (c : Config) : Prog := updateReg c c.regStatus (clearFlag · c.a1fBit) fun ok => .ret (.ok ok)

/-- The once-per-minute alarm configuration (R83, R190). -/
def alarmBytes (c : Config) : List Byte := [bcdEncode c.alarmSecond.toNat, c.alarmMask, c.alarmMask, c.alarmMask]

/-- The sequence of RTC_ARM_ALARM: five transactions, stopping at the first that is not acknowledged (R190). -/
def rtcArmAlarmBody (c : Config) : Prog :=
  writeRegs c c.regAlarm1 (alarmBytes c) fun ok =>
    bif !ok then .ret (.ok false) else
      updateReg c c.regControl (setFlag · c.a1ieBit) fun ok =>
        bif !ok then .ret (.ok false) else ackAlarmSeq c

/-- RTC_ARM_ALARM (R190). -/
def execRtcArmAlarm (s : State) : Host.Outcome State Fault Refusal :=
  .next (busCommand .rtcArmAlarm .rtc .idle (rtcArmAlarmBody s.cfg) s)

/-- RTC_ACK_ALARM (R191). -/
def execRtcAckAlarm (s : State) : Host.Outcome State Fault Refusal :=
  .next (busCommand .rtcAckAlarm .rtc .idle (ackAlarmSeq s.cfg) s)

end Sys2Proof.Machine
end

