-- ==== Sys2Proof/Machine/Display.lean ====
section
/-! DEFINITION. The display protocol adapter (45_display.md): SEG_DIGIT R211, SEG_SET_DOT R212, SEG_NUMBER R213, pure
commands, and DISP_SHOW_FRAME R214, three transactions on bus 1. -/

namespace Sys2Proof.Machine

/-- `SEG_TABLE[d]` (R210). -/
def segDigit (c : Config) (d : BitVec 4) : Byte := c.segTable[d.toFin]

/-- SEG_DIGIT (R211). -/
def execSegDigit (d : BitVec 4) (s : State) : Host.Outcome State Fault Refusal :=
  .next (s.give (.byte (segDigit s.cfg d)))

/-- `s[POS] <- s[POS] | 0x80` (R212). -/
def setDot (f : Frame) (pos : BitVec 2) : Frame := f.set pos.toFin (f[pos.toFin] ||| 0x80#8)

/-- SEG_SET_DOT (R212). -/
def execSegSetDot (seg0 seg1 seg2 seg3 : Byte) (pos : BitVec 2) (s : State) : Host.Outcome State Fault Refusal :=
  .next (s.give (.frame (setDot #v[seg0, seg1, seg2, seg3] pos)))

/-- The four decimal digits of a number, position 0 leftmost (R213). -/
def digitsOf (v : Nat) : Vector Nat 4 := #v[v / 1000, (v / 100) % 10, (v / 10) % 10, v % 10]

/-- The number of leading zeros to erase: the units digit is never erased (R213, D31). -/
def leadingZeros (dg : Vector Nat 4) : Nat :=
  if dg[0] ≠ 0 then 0 else if dg[1] ≠ 0 then 1 else if dg[2] ≠ 0 then 2 else 3

/-- Position `i` of a number: the digit's segments with its dot, erased where it is a leading zero (R213). -/
def numberSegment (c : Config) (dg : Vector Nat 4) (sup : Bool) (dots : BitVec 4) (i : Fin 4) : Byte :=
  let s := segDigit c (BitVec.ofNat 4 dg[i]) ||| ((BitVec.ofBool (dots.getLsbD i.val)).setWidth 8 <<< 7)
  bif sup && decide (i.val < leadingZeros dg) then s &&& ~~~(segDigit c 0) else s

/-- The frame of a number (R213). -/
def numberFrame (c : Config) (v : Nat) (sup : Bool) (dots : BitVec 4) : Frame :=
  let dg := digitsOf v
  #v[numberSegment c dg sup dots 0, numberSegment c dg sup dots 1, numberSegment c dg sup dots 2,
    numberSegment c dg sup dots 3]

/-- SEG_NUMBER (R213). -/
def execSegNumber (value : BitVec 16) (sup : Bool) (dots : BitVec 4) (s : State) : Host.Outcome State Fault Refusal :=
  bif numberDomain value then .next (s.give (.frame (numberFrame s.cfg value.toNat sup dots)))
  else outOfDomain s

/-- The bytes of a transaction on the display bus; acknowledgments are not checked (R214, D50). -/
def dispBytes (c : Config) : List Byte → Prog → Prog
  | [], k => k
  | x :: xs, k => writeSeq c .disp x fun _ => dispBytes c xs k

/-- One unaddressed transaction on the display bus (R214). -/
def dispTransaction (c : Config) (data : List Byte) (k : Prog) : Prog :=
  adapterStart c .disp false fun _ => dispBytes c data (stopSeq c .disp k)

/-- The display control command with a brightness (R86). -/
def dispControl (bright : BitVec 3) : Byte := Config.dispCtrlBase ||| Config.dispOn ||| bright.setWidth 8

/-- The sequence of DISP_SHOW_FRAME (R214). -/
def dispShowFrameBody (c : Config) (s0 s1 s2 s3 : Byte) (bright : BitVec 3) : Prog :=
  dispTransaction c [Config.dispCmdAutoInc] <|
  dispTransaction c [Config.dispCmdAddr0, s0, s1, s2, s3] <|
  dispTransaction c [dispControl bright] (.ret .nothing)

/-- DISP_SHOW_FRAME (R214). -/
def execDispShowFrame (seg0 seg1 seg2 seg3 : Byte) (bright : BitVec 3) (s : State) :
    Host.Outcome State Fault Refusal :=
  .next (busCommand (.dispShowFrame seg0 seg1 seg2 seg3 bright) .disp .idle
    (dispShowFrameBody s.cfg seg0 seg1 seg2 seg3 bright) s)

end Sys2Proof.Machine
end

