-- ==== Sys2Proof/Machine/Pin.lean ====
section
/-! DEFINITION. The pin abstraction (40_pin.md): PIN_VALID R100, PIN_SET_MODE R102, PIN_WRITE R103, PIN_READ R104.
These commands touch no bus owner (R102, R237); an invalid id is absorbed (R105, R233). -/

namespace Sys2Proof.Machine

/-- PIN_VALID (R100). -/
def execPinValid (pin : Byte) (s : State) : Host.Outcome State Fault Refusal :=
  .next (s.give (.bit (validPin s.cfg pin)))

/-- The mode a `V` bit names (R20, R102). -/
def modeOf (v : Bool) : Mode := bif v then .output else .input

/-- The event a bus pin's change of mode records (R35, R102). -/
def modeEvent (b : Bus) (l : Line) (v : Bool) : Event := bif v then .driveLow b l else .release b l

/-- A valid pin takes a mode; on a bus pin a change is recorded and seen by the peer (R102). -/
def State.setMode (s : State) (p : Byte) (v : Bool) : State :=
  match lineOf s.cfg p with
  | some (b, l) =>
    bif (s.pin p).mode == modeOf v then s
    else ((s.setPin p { s.pin p with mode := modeOf v }).record (modeEvent b l v)).observe b
  | none => s.setPin p { s.pin p with mode := modeOf v }

/-- PIN_SET_MODE (R102). -/
def execPinSetMode (pin : Byte) (v : Bool) (s : State) : Host.Outcome State Fault Refusal :=
  .next (
    bif !validPin s.cfg pin then s.give .nothing
    else bif (lineOf s.cfg pin).isSome && v && (s.pin pin).latch then s.raise (.outputHigh pin)
    else (s.setMode pin v).give .nothing)

/-- PIN_WRITE (R103). -/
def execPinWrite (pin : Byte) (v : Bool) (s : State) : Host.Outcome State Fault Refusal :=
  .next (
    bif !validPin s.cfg pin then s.give .nothing
    else bif (lineOf s.cfg pin).isSome && (s.pin pin).mode == .output && v then s.raise (.outputHigh pin)
    else (s.setPin pin { s.pin pin with latch := v }).give .nothing)

/-- The level PIN_READ returns (R104). -/
def State.readPin (s : State) (p : Byte) : Bool :=
  bif !validPin s.cfg p then false
  else bif (s.pin p).mode == .output then (s.pin p).latch
  else match lineOf s.cfg p with
    | some (b, l) => s.level b l
    | none => s.env.now.ext

/-- PIN_READ (R104). -/
def execPinRead (pin : Byte) (s : State) : Host.Outcome State Fault Refusal :=
  .next (s.give (.bit (s.readPin pin)))

end Sys2Proof.Machine
end

