-- ==== Sys2Proof/Machine/Dispatch.lean ====
section
/-! DEFINITION. The meaning of each command: one arm per constructor of Instr (30_encoding.md R72). -/

namespace Sys2Proof.Machine

def exec (i : Instr) (s : State) : Host.Outcome State Fault Refusal :=
  match i with
  -- 40_pin.md
  | .pinValid pin => Sys2Proof.Machine.execPinValid pin s
  | .pinSetMode pin v => Sys2Proof.Machine.execPinSetMode pin v s
  | .pinWrite pin v => Sys2Proof.Machine.execPinWrite pin v s
  | .pinRead pin => Sys2Proof.Machine.execPinRead pin s
  -- 41_line.md
  | .lineDriveLow bus line => Sys2Proof.Machine.execLineDriveLow bus line s
  | .lineRelease bus line => Sys2Proof.Machine.execLineRelease bus line s
  | .lineRead bus line => Sys2Proof.Machine.execLineRead bus line s
  | .sclWaitHigh bus => Sys2Proof.Machine.execSclWaitHigh bus s
  | .halfDelay bus => Sys2Proof.Machine.execHalfDelay bus s
  -- 42_engine.md
  | .busInit bus => Sys2Proof.Machine.execBusInit bus s
  | .busStart bus ha addr rw => Sys2Proof.Machine.execBusStart bus ha addr rw s
  | .busWriteBit bus bit => Sys2Proof.Machine.execBusWriteBit bus bit s
  | .busReadBit bus => Sys2Proof.Machine.execBusReadBit bus s
  | .busWrite bus byte => Sys2Proof.Machine.execBusWrite bus byte s
  | .busRead bus last => Sys2Proof.Machine.execBusRead bus last s
  | .busStop bus => Sys2Proof.Machine.execBusStop bus s
  -- 43_codec.md
  | .bcdEncode x => Sys2Proof.Machine.execBcdEncode x s
  | .bcdDecode x => Sys2Proof.Machine.execBcdDecode x s
  | .yearEncode year => Sys2Proof.Machine.execYearEncode year s
  | .yearDecode yb cen => Sys2Proof.Machine.execYearDecode yb cen s
  | .tempDecode msb lsb => Sys2Proof.Machine.execTempDecode msb lsb s
  -- 44_rtc.md
  | .rtcReadRegs reg n => Sys2Proof.Machine.execRtcReadRegs reg n s
  | .rtcWriteRegs reg n data0 data1 data2 data3 => Sys2Proof.Machine.execRtcWriteRegs reg n data0 data1 data2 data3 s
  | .rtcReadTime => Sys2Proof.Machine.execRtcReadTime s
  | .rtcWriteTime hour min sec => Sys2Proof.Machine.execRtcWriteTime hour min sec s
  | .rtcReadDate => Sys2Proof.Machine.execRtcReadDate s
  | .rtcWriteDate day month year => Sys2Proof.Machine.execRtcWriteDate day month year s
  | .rtcReadTemp => Sys2Proof.Machine.execRtcReadTemp s
  | .rtcInit => Sys2Proof.Machine.execRtcInit s
  | .rtcArmAlarm => Sys2Proof.Machine.execRtcArmAlarm s
  | .rtcAckAlarm => Sys2Proof.Machine.execRtcAckAlarm s
  -- 45_display.md
  | .segDigit d => Sys2Proof.Machine.execSegDigit d s
  | .segSetDot seg0 seg1 seg2 seg3 pos => Sys2Proof.Machine.execSegSetDot seg0 seg1 seg2 seg3 pos s
  | .segNumber value sup dots => Sys2Proof.Machine.execSegNumber value sup dots s
  | .dispShowFrame seg0 seg1 seg2 seg3 bright => Sys2Proof.Machine.execDispShowFrame seg0 seg1 seg2 seg3 bright s

end Sys2Proof.Machine
end

