-- ==== Sys2Proof/Machine/Resume.lean ====
section
/-! DEFINITION. Going on with a command in progress (10_state.md R37, 60_exceptions.md R245): the bus and sequence of
each command that touches a bus, and the rest of it after the answers it has had. -/

namespace Sys2Proof.Machine

/-- The bus and the sequence of a command; the commands that touch no bus are never left in progress (R31). -/
def bodyOf (c : Config) : Instr → Option (Bus × Prog)
  | .pinValid .. | .pinSetMode .. | .pinWrite .. | .pinRead .. => none
  | .lineDriveLow b l => some (b, lineDriveLowBody b l)
  | .lineRelease b l => some (b, lineReleaseBody b l)
  | .lineRead b l => some (b, lineReadBody b l)
  | .sclWaitHigh b => some (b, sclWaitHighBody b)
  | .halfDelay b => some (b, halfDelayBody c)
  | .busInit b => some (b, busInitBody b)
  | .busStart b ha addr rw => some (b, busStartBody c b ha addr rw)
  | .busWriteBit b v => some (b, busWriteBitBody c b v)
  | .busReadBit b => some (b, busReadBitBody c b)
  | .busWrite b x => some (b, busWriteBody c b x)
  | .busRead b last => some (b, busReadBody c b last)
  | .busStop b => some (b, busStopBody c b)
  | .bcdEncode _ | .bcdDecode _ | .yearEncode _ | .yearDecode .. | .tempDecode .. => none
  | .rtcReadRegs reg n => some (.rtc, rtcReadRegsBody c reg n)
  | .rtcWriteRegs reg n d0 d1 d2 d3 => some (.rtc, rtcWriteRegsBody c reg n d0 d1 d2 d3)
  | .rtcReadTime => some (.rtc, rtcReadTimeBody c)
  | .rtcWriteTime h m s => some (.rtc, rtcWriteTimeBody c h m s)
  | .rtcReadDate => some (.rtc, rtcReadDateBody c)
  | .rtcWriteDate d m y => some (.rtc, rtcWriteDateBody c d m y)
  | .rtcReadTemp => some (.rtc, rtcReadTempBody c)
  | .rtcInit => some (.rtc, rtcInitBody c)
  | .rtcArmAlarm => some (.rtc, rtcArmAlarmBody c)
  | .rtcAckAlarm => some (.rtc, ackAlarmSeq c)
  | .segDigit _ | .segSetDot .. | .segNumber .. => none
  | .dispShowFrame s0 s1 s2 s3 br => some (.disp, dispShowFrameBody c s0 s1 s2 s3 br)

/-- Take a context's command in progress off the state. -/
def State.clearJob (s : State) : State :=
  { s with
    handlerJob := bif s.handlerRunning then none else s.handlerJob
    mainJob := bif s.handlerRunning then s.mainJob else none }

/-- Go on with the running context's command in progress where it stands (R245). -/
def resume (j : Job) (s : State) : State :=
  match bodyOf s.cfg j.instr with
  | some (b, p) => run j.instr b (p.after j.trail) j.trail.reverse s.clearJob
  | none => s.clearJob

end Sys2Proof.Machine
end

