-- ==== Sys2Proof/Machine/Schedule.lean ====
section
/-! DEFINITION. What happens next in a run that is not faulted (60_exceptions.md R245, R255; 10_state.md R37): HANDLER
while it runs, else the notification if it fires, else MAIN. -/

namespace Sys2Proof.Machine

/-- The running context's host issues one command word: it is decoded and run, or refused (R74, R75, R78). -/
def issue (w : CmdWord) (s : State) : Host.Outcome State Fault Refusal :=
  match decode w with
  | .ok i => exec i s
  | .error e => .refused (.refuse e (s.mark e))

/-- HANDLER's next step: its command in progress, its next command, or its end (R245). -/
def handlerStep (s : State) : Host.Outcome State Fault Refusal :=
  match s.handlerJob with
  | some j => .next (resume j s)
  | none =>
    match s.handlerTodo with
    | w :: ws => issue w { s with handlerTodo := ws }
    | [] => .next s.endHandler

/-- MAIN's next step: its command in progress, its host's next move (R255), or nothing (R261). -/
def mainStep (s : State) : Host.Outcome State Fault Refusal :=
  match s.mainJob with
  | some j => .next (resume j s)
  | none =>
    match s.mainTodo with
    | .command w :: rest => issue w { s with mainTodo := rest }
    | .mask v :: rest => .next { s with masked := v, mainTodo := rest }
    | [] => .next s

/-- HANDLER runs to its end without being preempted; between two steps of MAIN the notification may start it (R245). -/
def schedule (s : State) : Host.Outcome State Fault Refusal :=
  bif s.handlerRunning then handlerStep s
  else bif s.fires then .next s.startHandler
  else mainStep s

/-- The running context's host issues the word `w` next and nothing is in progress before it. HANDLER keeps running
where it runs; MAIN's notification is masked, as R244 asks of MAIN, so that the next step is the command's. -/
def State.place (s : State) (w : CmdWord) : State :=
  { s with
    handlerJob := bif s.handlerRunning then none else s.handlerJob
    handlerTodo := bif s.handlerRunning then w :: s.handlerTodo else s.handlerTodo
    mainJob := bif s.handlerRunning then s.mainJob else none
    mainTodo := bif s.handlerRunning then s.mainTodo else .command w :: s.mainTodo
    masked := bif s.handlerRunning then s.masked else true
    fault := none }

end Sys2Proof.Machine
end

