-- ==== Sys2Proof/Machine/Step.lean ====
section
/-! DEFINITION. One step of a run (10_state.md R37, 60_exceptions.md R236, R245), and the host's way to place the next
command. -/

namespace Sys2Proof.Machine

/-- One step: a faulted run is quiescent (R236); otherwise the environment moves and the schedule goes on. -/
def step (s : State) : Host.Outcome State Fault Refusal :=
  match s.fault with
  | some f => .fault f
  | none => schedule (s.envMove)

/-- `s` with the command word `w` where the next step takes its command from (log entry 4). -/
def State.withFetchWord (s : State) (nbits w : Nat) : State := s.place (BitVec.ofNat 64 (w % 2 ^ nbits))

end Sys2Proof.Machine
end

