-- ==== Sys2Proof/Safety.lean ====
section
/-! DEFINITION. The terms claims use: the end of a run (60_exceptions.md R256), safe runs, the open-drain and ownership
invariants (R24, R31, R115, R238), the event sequences of the engine's sub-procedures (42_engine.md), when a command
runs through (R113, R244), and what a completed bus command leaves (R31, R145). -/

namespace Sys2Proof.Machine

/-- A run that no fault and no refusal has refuted (R236, R242). -/
def State.sound (s : State) : Bool := s.fault.isNone && s.refusal.isNone

/-- The run has ended (R256). DESIGN CHOICE: R256 speaks of commands pending, and the model counts a mask change that
MAIN's host has still to make among them (log entry 19). -/
def State.runEnded (s : State) : Bool :=
  s.mainTodo.isEmpty && s.mainJob.isNone && !s.handlerRunning && (!s.pending || s.masked) &&
    s.phase.rtc == .idle && s.phase.disp == .idle && s.owner.rtc == .none && s.owner.disp == .none && s.sound

/-- The bus a command touches, for the ownership check (R31). -/
def touches : Instr → Option Bus
  | .pinValid .. | .pinSetMode .. | .pinWrite .. | .pinRead .. => none
  | .lineDriveLow b _ | .lineRelease b _ | .lineRead b _ | .sclWaitHigh b | .halfDelay b => some b
  | .busInit b | .busStart b _ _ _ | .busWriteBit b _ | .busReadBit b | .busWrite b _ | .busRead b _ | .busStop b =>
    some b
  | .bcdEncode _ | .bcdDecode _ | .yearEncode _ | .yearDecode .. | .tempDecode .. => none
  | .rtcReadRegs .. | .rtcWriteRegs .. | .rtcReadTime | .rtcWriteTime .. | .rtcReadDate | .rtcWriteDate .. => some .rtc
  | .rtcReadTemp | .rtcInit | .rtcArmAlarm | .rtcAckAlarm => some .rtc
  | .segDigit _ | .segSetDot .. | .segNumber .. => none
  | .dispShowFrame .. => some .disp

/-- The commands that need an open transaction (R138). -/
def needsTransaction : Instr → Bool
  | .busWriteBit .. | .busReadBit _ | .busWrite .. | .busRead .. | .busStop _ => true
  | _ => false

/-- The adapter operations, which need an idle bus (R182, R214). -/
def needsIdle : Instr → Bool
  | .rtcReadRegs .. | .rtcWriteRegs .. | .rtcReadTime | .rtcWriteTime .. | .rtcReadDate | .rtcWriteDate .. => true
  | .rtcReadTemp | .rtcInit | .rtcArmAlarm | .rtcAckAlarm | .dispShowFrame .. => true
  | _ => false

/-- No bus pin is output-high (R24, R238). -/
def State.openDrain (s : State) : Prop :=
  ∀ b l, (s.pin (pinOf s.cfg b l)).mode = .output → (s.pin (pinOf s.cfg b l)).latch = false

/-- The pin file is canonical and lists valid ids only: an invalid id has no state (R20). -/
def State.pinsWf (s : State) : Prop :=
  Sparse.wf PinState.reset s.pins = true ∧ ∀ e ∈ s.pins, ∃ p : Byte, e.1 = p.toNat ∧ validPin s.cfg p = true

/-- The memories of an expected peer are canonical. -/
def Peer.memWf : Peer → Bool
  | .free | .absent => true
  | .rtc d => d.regs.wf
  | .display d => d.segments.wf

/-- A bus with an open transaction has an owner (R31). -/
def State.openOwned (s : State) : Prop := ∀ b, s.phase.get b ≠ .idle → s.owner.get b ≠ .none

/-- A bus that is owned has an open transaction or a command in progress on it, unless the run is faulted (R31). -/
def State.ownedOpen (s : State) : Prop :=
  ∀ b, s.owner.get b ≠ .none → s.fault.isSome = true ∨ s.phase.get b ≠ .idle ∨
    ∃ j, (s.mainJob = some j ∨ s.handlerJob = some j) ∧ touches j.instr = some b

/-- A command in progress is a bus command of a context that owns its bus, and HANDLER has one only while it runs
(R31, R37, R245). -/
def State.jobsOwn (s : State) : Prop :=
  (∀ j, s.mainJob = some j → ∃ b, touches j.instr = some b ∧ s.owner.get b = .main) ∧
    ∀ j, s.handlerJob = some j → s.handlerRunning = true ∧ ∃ b, touches j.instr = some b ∧ s.owner.get b = .handler

/-- The invariant every step keeps: a sound board, a canonical pin file of valid ids, no output-high bus pin, owned open
transactions, owned commands in progress, no bus owned for nothing, canonical peer memories. -/
def State.Inv (s : State) : Prop :=
  configWf s.cfg = true ∧ s.pinsWf ∧ s.openDrain ∧ s.openOwned ∧ s.ownedOpen ∧ s.jobsOwn ∧
    s.env.peers.rtc.memWf = true ∧ s.env.peers.disp.memWf = true

/-- The notification cannot fire: MAIN has masked it, or HANDLER is running (R244, R245). -/
def State.unpreempted (s : State) : Prop := s.masked = true ∨ s.handlerRunning = true

/-- At the environment's move `k` from now the SCL line of bus `b` reads 1 if the block releases it (R25, R26). -/
def State.sclFree (s : State) (b : Bus) (k : Nat) : Bool :=
  !((s.env.peers.get b).low ((s.env.moveAt k).drive.get b) .scl) &&
    (s.cfg.pullupsPresent || ((s.env.moveAt k).floating.get b).scl)

/-- What stands on a bus drives it by the environment's draws alone: no expected peer with a course of its own. -/
def Peer.isDrawn : Peer → Bool
  | .free | .absent => true
  | .rtc _ | .display _ => false

/-- At the environment's move `k` from now the SDA line of bus `b`, with a drawn peer, reads 1 if the block releases
it (R25, R26). -/
def State.sdaFree (s : State) (b : Bus) (k : Nat) : Bool :=
  !((s.env.peers.get b).low ((s.env.moveAt k).drive.get b) .sda) &&
    (s.cfg.pullupsPresent || ((s.env.moveAt k).floating.get b).sda)

/-- For the next `n` micro-steps nothing preempts the running context and no peer stretches the clock of bus `b`. -/
def State.calm (s : State) (b : Bus) (n : Nat) : Prop := s.unpreempted ∧ ∀ k < n, s.sclFree b k = true

/-- The running context may begin a command on bus `b` (R31). -/
def State.mayUse (s : State) (b : Bus) : Prop :=
  s.owner.get b = .none ∨ s.owner.get b = s.ctx.owner

/-- A command on bus `b` may begin and nothing can preempt it: a sound board, a pin file of valid ids, the bus free or
owned by the running context (R31), the notification unable to fire (R244, R245). -/
def State.steady (s : State) (b : Bus) : Prop :=
  configWf s.cfg = true ∧ s.pinsWf ∧ s.mayUse b ∧ s.unpreempted

/-- Micro-steps enough for every command of the block (RTC_ARM_ALARM has the most). -/
def longest : Nat := 1300

/-- A command on bus `b` may begin and runs through: steady, and no peer stretches its clock (R113). -/
def State.ready (s : State) (b : Bus) : Prop := s.steady b ∧ s.calm b longest

/-- Events of `wbit(b, v)` with half-bit period `t` (R132). -/
def wbitEvents (b : Bus) (t : Nat) (v : Bool) : List Event :=
  [bif v then .release b .sda else .driveLow b .sda, .delay t, .release b .scl, .waited b, .delay t, .driveLow b .scl]

/-- Events of `rbit(b)` that sampled `s` (R133). -/
def rbitEvents (b : Bus) (t : Nat) (s : Bool) : List Event :=
  [.release b .sda, .delay t, .release b .scl, .waited b, .delay t, .sample b .sda s, .driveLow b .scl]

/-- Events of `xfer_out(b, x)` whose acknowledgment sampled `a` (R134). -/
def xferOutEvents (b : Bus) (t : Nat) (x : Byte) (a : Bool) : List Event :=
  (wireBits (Config.order b) x).flatMap (wbitEvents b t) ++ rbitEvents b t a

/-- Events of BUS_WRITE: a NACK is logged (R134). -/
def writeEvents (b : Bus) (t : Nat) (x : Byte) (a : Bool) : List Event :=
  xferOutEvents b t x a ++ bif a then [.ackFail b x] else []

/-- Events of BUS_READ that sampled the bits `ss` in wire order (R135). -/
def readEvents (b : Bus) (t : Nat) (ss : List Bool) (last : Bool) : List Event :=
  ss.flatMap (rbitEvents b t) ++ wbitEvents b t last

/-- The byte the wire bits `ss` stand for (R135, R137). -/
def assemble (o : BitOrder) (ss : List Bool) : Byte :=
  (ss.zipIdx).foldl (fun v e => place o v e.2 e.1) 0

/-- Events of the start condition, with the prefix of a repeated start unless the bus was idle (R131). -/
def startEvents (b : Bus) (t : Nat) (idle : Bool) : List Event :=
  (bif idle then [] else [.release b .sda, .delay t, .release b .scl, .waited b, .delay t]) ++
    [.driveLow b .sda, .delay t, .driveLow b .scl]

/-- Events of BUS_STOP (R136). -/
def stopEvents (b : Bus) (t settle : Nat) : List Event :=
  [.driveLow b .sda, .delay t, .release b .scl, .waited b, .delay t, .release b .sda, .delay settle]

/-- Events of an addressed start whose address acknowledgment sampled `a` (R131). -/
def addressedStartEvents (b : Bus) (c : Config) (idle rw a : Bool) : List Event :=
  startEvents b c.tHalf idle ++ xferOutEvents b c.tHalf (addressByte c.rtcAddr rw) a

/-- Events of `rtc_abort()` (R182). -/
def abortEvents (c : Config) : List Event := bif c.abortSendsStop then stopEvents .rtc c.tHalf c.tSettle else []

/-- Events of the bytes `xs` written one after another, with their acknowledgment samples (R181, R193). -/
def burstEvents (b : Bus) (t : Nat) (xs : List (Byte × Bool)) : List Event :=
  xs.flatMap fun e => writeEvents b t e.1 e.2

/-- Events of a read burst: one list of eight samples for each byte, the last byte not acknowledged (R180). -/
def readBurstEvents (b : Bus) (t : Nat) : List (List Bool) → List Event
  | [] => []
  | ss :: rest => readEvents b t ss rest.isEmpty ++ readBurstEvents b t rest

/-- The phase after `rtc_abort()`: IDLE after its stop, else the open transaction's ADDR_SENT (R182, R231). -/
def abortPhase (c : Config) : Phase := bif c.abortSendsStop then .idle else .addrSent

/-- RTC_WRITE_REGS of the bytes `data` from `reg` may record `evs`, leave phase `ph` and answer `ok` (R181, R182). -/
def WriteRegsRun (c : Config) (reg : Byte) (data : List Byte) (evs : List Event) (ph : Phase) (ok : Bool) : Prop :=
  (evs = addressedStartEvents .rtc c true false true ++ abortEvents c ∧ ph = abortPhase c ∧ ok = false) ∨
  ∃ acks : List Bool, acks.length = data.length + 1 ∧
    evs = addressedStartEvents .rtc c true false false ++ burstEvents .rtc c.tHalf ((reg :: data).zip acks) ++
      stopEvents .rtc c.tHalf c.tSettle ∧ ph = .idle ∧ ok = true

/-- RTC_READ_REGS of `n` bytes from `reg` may record `evs`, leave phase `ph` and answer `d` (R180, R182). -/
def ReadRegsRun (c : Config) (reg : Byte) (n : Nat) (evs : List Event) (ph : Phase) (d : Option (List Byte)) : Prop :=
  (evs = addressedStartEvents .rtc c true false true ++ abortEvents c ∧ ph = abortPhase c ∧ d = none) ∨
  (∃ a, evs = addressedStartEvents .rtc c true false false ++ writeEvents .rtc c.tHalf reg a ++
      addressedStartEvents .rtc c false true true ++ abortEvents c ∧ ph = abortPhase c ∧ d = none) ∨
  ∃ a, ∃ sss : List (List Bool), sss.length = n ∧ (∀ ss ∈ sss, ss.length = 8) ∧
    evs = addressedStartEvents .rtc c true false false ++ writeEvents .rtc c.tHalf reg a ++
      addressedStartEvents .rtc c false true false ++ readBurstEvents .rtc c.tHalf sss ++
      stopEvents .rtc c.tHalf c.tSettle ∧ ph = .idle ∧ d = some (sss.map (assemble .msbFirst))

/-- The pin of line `l` of bus `b` after one event (R110, R111). -/
def pinAfter (b : Bus) (l : Line) (p : PinState) : Event → PinState
  | .driveLow b' l' => if b' = b ∧ l' = l then { mode := .output, latch := false } else p
  | .release b' l' => if b' = b ∧ l' = l then { p with mode := .input } else p
  | .waited _ | .delay _ | .sample .. | .ackFail .. => p

/-- The host's side of a run and the build-time parameters are as before, and nothing was refused or faulted. -/
def SameHost (s t : State) : Prop :=
  t.cfg = s.cfg ∧ t.fault = s.fault ∧ t.refusal = s.refusal ∧ t.masked = s.masked ∧
    t.handlerRunning = s.handlerRunning ∧ t.mainJob = s.mainJob ∧ t.handlerJob = s.handlerJob ∧
    t.mainTodo = s.mainTodo ∧ t.handlerTodo = s.handlerTodo ∧ t.activations = s.activations

/-- A command on bus `b` has returned `r` having recorded `evs`, with the bus in phase `ph`: the two bus pins follow
the events, every other pin, the other bus and the host's side are unchanged, and the bus is owned by the issuing
context exactly if it is not IDLE (R31, R35, R79). -/
def Completed (s t : State) (b : Bus) (evs : List Event) (ph : Phase) (r : Result) : Prop :=
  t.trace = s.trace ++ evs ∧ t.returned = (s.ctx, r) :: s.returned ∧
    t.phase = s.phase.set b ph ∧ t.owner = s.owner.set b (if ph = .idle then .none else s.ctx.owner) ∧
    (∀ l, t.pin (pinOf s.cfg b l) = evs.foldl (pinAfter b l) (s.pin (pinOf s.cfg b l))) ∧
    (∀ p, (∀ l, p ≠ pinOf s.cfg b l) → t.pin p = s.pin p) ∧ SameHost s t

/-- No bus is touched and the host's side is as before. -/
def SameBuses (s t : State) : Prop := t.phase = s.phase ∧ t.owner = s.owner ∧ SameHost s t

/-- Bus `b` stands in `t` as in `s`: its phase, its owner, its two pins, and its peer unless that is an RTC, whose clock
goes on by itself (R31, R32). -/
def SameBus (s t : State) (b : Bus) : Prop :=
  t.phase.get b = s.phase.get b ∧ t.owner.get b = s.owner.get b ∧
    (∀ l, t.pin (pinOf s.cfg b l) = s.pin (pinOf s.cfg b l)) ∧
    ((∀ d, s.env.peers.get b ≠ .rtc d) → t.env.peers.get b = s.env.peers.get b)

/-- No pin but those of the bus that command `i` touches differs in `t` from `s`, and no latch is newly set (R21, R110). -/
def PinsOfItsBusAlone (i : Instr) (s t : State) : Prop :=
  (∀ q, (∀ b l, touches i = some b → q ≠ pinOf s.cfg b l) → t.pin q = s.pin q) ∧
    ∀ q, (t.pin q).latch = true → (s.pin q).latch = true

/-- The block's drive of a line (R24): true is driven low. -/
def State.lines (s : State) (b : Bus) : Bool × Bool := (s.drivesLow b .scl, s.drivesLow b .sda)

/-- The block's own drive of SCL and SDA that an engine command leaves (R145): true is driven low. -/
def exitLines : Instr → Option (Bool × Bool)
  | .busInit _ | .busStop _ => some (false, false)
  | .busStart _ ha _ _ => some (true, !ha)
  | .busWriteBit _ v => some (true, !v)
  | .busReadBit _ | .busWrite .. => some (true, false)
  | .busRead _ last => some (true, !last)
  | _ => none

/-- The phase an engine command leaves from the phase `ph` (R145). -/
def exitPhase (ph : Phase) : Instr → Phase
  | .busInit _ | .busStop _ => .idle
  | .busStart _ ha _ _ => bif ha then .addrSent else .started
  | .busWrite .. | .busRead .. => .transfer
  | _ => ph

/-- The position of a command none of whose micro-steps has run, on a bus in phase `ph`: the answer of the phase test its
sequence opens with, if it opens with one (R37, R131). -/
def startTrail (ph : Phase) : Prog → List Bool
  | .ifIdle _ _ => [ph == .idle]
  | .ret _ | .act .. | .sample .. => []

/-- What an RTC operation answers to a peer that holds SDA low throughout: every acknowledgment is given and every byte
read is zero (R180 to R191). -/
def zeroResult : Instr → Result
  | .rtcReadRegs _ n => .registers (List.replicate n.toNat 0)
  | .rtcReadTime => .time 0 0 0
  | .rtcReadDate => .date 0 0 2000
  | .rtcReadTemp => .rtcTemperature 0 0
  | _ => .ok true

/-- The SDA drive a peer finds in each SCL high period of `evs`: a released SDA reads 1 (R142). -/
def highPeriodBits (b : Bus) : Bool → List Event → List Bool
  | _, [] => []
  | sda, e :: rest =>
    match e with
    | .driveLow b' .sda => highPeriodBits b (bif b' == b then false else sda) rest
    | .release b' .sda => highPeriodBits b (bif b' == b then true else sda) rest
    | .waited b' => bif b' == b then sda :: highPeriodBits b sda rest else highPeriodBits b sda rest
    | _ => highPeriodBits b sda rest

/-- The block's actions on SDA of bus `b` among `evs` while it releases SCL (R140); `low` says whether it drives SCL low
before them. -/
def openSda (b : Bus) : Bool → List Event → List Event
  | _, [] => []
  | low, e :: rest =>
    match e with
    | .driveLow b' .sda => (bif b' == b && !low then [e] else []) ++ openSda b low rest
    | .release b' .sda => (bif b' == b && !low then [e] else []) ++ openSda b low rest
    | .driveLow b' .scl => openSda b (low || b' == b) rest
    | .release b' .scl => openSda b (low && b' != b) rest
    | .waited _ | .delay _ | .sample .. | .ackFail .. => openSda b low rest

/-- The delays among events (R276). -/
def delays (evs : List Event) : Nat :=
  evs.countP fun e =>
    match e with
    | .delay _ => true
    | _ => false

/-- The row of opcode_table.json a command belongs to: `match` and `mask` (R72). -/
def tableRow : Instr → CmdWord × CmdWord
  | .pinValid .. => (0x0100000000000000, 0xFFFFFFFFFFFFFF00)
  | .pinSetMode .. => (0x0200000000000000, 0xFFFFFFFFFFFFFE00)
  | .pinWrite .. => (0x0300000000000000, 0xFFFFFFFFFFFFFE00)
  | .pinRead .. => (0x0400000000000000, 0xFFFFFFFFFFFFFF00)
  | .lineDriveLow .. => (0x1000000000000000, 0xFFFCFFFFFFFFFFFF)
  | .lineRelease .. => (0x1100000000000000, 0xFFFCFFFFFFFFFFFF)
  | .lineRead .. => (0x1200000000000000, 0xFFFCFFFFFFFFFFFF)
  | .sclWaitHigh .. => (0x1300000000000000, 0xFFFEFFFFFFFFFFFF)
  | .halfDelay .. => (0x1400000000000000, 0xFFFEFFFFFFFFFFFF)
  | .busInit .. => (0x2000000000000000, 0xFFFEFFFFFFFFFFFF)
  | .busStart .. => (0x2100000000000000, 0xFFFEFFFFFFFFFE00)
  | .busWriteBit .. => (0x2200000000000000, 0xFFFEFFFFFFFFFFFE)
  | .busReadBit .. => (0x2300000000000000, 0xFFFEFFFFFFFFFFFF)
  | .busWrite .. => (0x2400000000000000, 0xFFFEFFFFFFFFFF00)
  | .busRead .. => (0x2500000000000000, 0xFFFEFFFFFFFFFEFF)
  | .busStop .. => (0x2600000000000000, 0xFFFEFFFFFFFFFFFF)
  | .bcdEncode .. => (0x3000000000000000, 0xFFFFFFFFFFFFFF00)
  | .bcdDecode .. => (0x3100000000000000, 0xFFFFFFFFFFFFFF00)
  | .yearEncode .. => (0x3200000000000000, 0xFFFFFFFFFFFF0000)
  | .yearDecode .. => (0x3300000000000000, 0xFFFFFFFFFFFFFE00)
  | .tempDecode .. => (0x3400000000000000, 0xFFFFFFFFFFFF0000)
  | .rtcReadRegs .. => (0x4000000000000000, 0xFFFFFFFFFFFFF800)
  | .rtcWriteRegs .. => (0x4100000000000000, 0xFFFF00000000F800)
  | .rtcReadTime => (0x4200000000000000, 0xFFFFFFFFFFFFFFFF)
  | .rtcWriteTime .. => (0x4300000000000000, 0xFFFFFFFFFF000000)
  | .rtcReadDate => (0x4400000000000000, 0xFFFFFFFFFFFFFFFF)
  | .rtcWriteDate .. => (0x4500000000000000, 0xFFFFFFFF00000000)
  | .rtcReadTemp => (0x4600000000000000, 0xFFFFFFFFFFFFFFFF)
  | .rtcInit => (0x4700000000000000, 0xFFFFFFFFFFFFFFFF)
  | .rtcArmAlarm => (0x4800000000000000, 0xFFFFFFFFFFFFFFFF)
  | .rtcAckAlarm => (0x4900000000000000, 0xFFFFFFFFFFFFFFFF)
  | .segDigit .. => (0x5000000000000000, 0xFFFFFFFFFFFFFFF0)
  | .segSetDot .. => (0x5100000000000000, 0xFFFFFFFC00000000)
  | .segNumber .. => (0x5200000000000000, 0xFFFFFFFFFF0E0000)
  | .dispShowFrame .. => (0x5300000000000000, 0xFFFFFFF800000000)

end Sys2Proof.Machine
end

