-- ==== Sys2Proof/Certificates/Slice0/Obligations.lean ====
section
/-! DEFINITION. The statements for the provers, family by family: encoding, steps and refusals, reset and invariants,
faults, pins, lines, the engine, the codec, the RTC and display adapters, the notification, isolation. -/

open Sys2Proof Sys2Proof.Machine

/-! ## Encoding (30_encoding.md Part A) -/

/-- One word of each family, written out from R71 and R72, decodes to its command. -/
def Obligations.SpecWordsDecodeToTheirCommands : Prop :=
  decode 0x0300000000000109#64 = .ok (.pinWrite 9 true) ∧
  decode 0x1203000000000000#64 = .ok (.lineRead .disp .sda) ∧
  decode 0x21000000000001D0#64 = .ok (.busStart .rtc true 0x68 false) ∧
  decode 0x2500000000000100#64 = .ok (.busRead .rtc true) ∧
  decode 0x34000000000040E6#64 = .ok (.tempDecode 0xE6 0x40) ∧
  decode 0x41000000001C010E#64 = .ok (.rtcWriteRegs 0x0E 1 0x1C 0 0 0) ∧
  decode 0x4500000007E70701#64 = .ok (.rtcWriteDate 1 7 2023) ∧
  decode 0x5200000000010005#64 = .ok (.segNumber 5 true 0) ∧
  decode 0x530000044F5B063F#64 = .ok (.dispShowFrame 0x3F 0x06 0x5B 0x4F 4)

/-- R71, R72, R74: decoding and encoding agree: a word decodes to a command exactly if it is that command's word. Every
command is read back from its word whatever its operands, and no other word decodes to it. -/
def Obligations.DecodingAndEncodingAgree : Prop := ∀ (w : CmdWord) (i : Instr), decode w = .ok i ↔ w = encode i

/-- R74, R75: every word selects exactly one row of the opcode map with all reserved bits zero, or is refused:
IllegalOpcode where no command has its opcode (0x00 and 0xFF among them), ReservedBits where one has it and a reserved
bit is 1. -/
def Obligations.EveryWordSelectsOneRowOrIsRefused : Prop :=
  ∀ w : CmdWord,
    (∀ i, decode w = .ok i → w &&& (tableRow i).2 = (tableRow i).1) ∧
    (∀ i j, w &&& (tableRow i).2 = (tableRow i).1 → w &&& (tableRow j).2 = (tableRow j).1 → opcodeOf i = opcodeOf j) ∧
    (decode w = .error .illegalOpcode ↔ ∀ i, opcodeOf i ≠ w.extractLsb' 56 8) ∧
    (decode w = .error .reservedBits ↔
      (∃ i, opcodeOf i = w.extractLsb' 56 8) ∧ ∀ i, w &&& (tableRow i).2 ≠ (tableRow i).1) ∧
    (w.extractLsb' 56 8 = 0x00#8 ∨ w.extractLsb' 56 8 = 0xFF#8 → decode w = .error .illegalOpcode) ∧
    decode w ≠ .error .outOfDomain

/-! ## Steps and refusals -/

/-- R37, R245, R255: a step runs the decoded command. Where MAIN is between two commands, HANDLER is not running and
nothing fires, it is MAIN's next command; where HANDLER runs and is between two commands, it is HANDLER's. The step adds
the environment's move before it and takes the word off its host's list. -/
def Obligations.AStepRunsTheDecodedCommand : Prop :=
  (∀ (s : State) (w : CmdWord) (rest : List HostMove) (i : Instr),
    s.fault = none → s.handlerRunning = false → s.envMove.fires = false → s.mainJob = none →
    s.mainTodo = .command w :: rest → decode w = .ok i →
    step s = exec i { s.envMove with mainTodo := rest }) ∧
  ∀ (s : State) (w : CmdWord) (rest : List CmdWord) (i : Instr),
    s.fault = none → s.handlerRunning = true → s.handlerJob = none → s.handlerTodo = w :: rest → decode w = .ok i →
    step s = exec i { s.envMove with handlerTodo := rest }

/-- R78, R242: a refused step leaves the run as it was but for the refusal mark, the environment and the word consumed:
no state changes and no event is recorded. A word of MAIN or of HANDLER that decodes to nothing is refused with its
reason. -/
def Obligations.ARefusedCommandChangesNothing : Prop :=
  (∀ (s run : State) (e : RefuseReason), step s = .refused (.refuse e run) →
    run.refusal = some e ∧ run.cfg = s.cfg ∧ run.pins = s.pins ∧ run.phase = s.phase ∧ run.owner = s.owner ∧
      run.trace = s.trace ∧ run.fault = s.fault ∧ run.masked = s.masked ∧ run.handlerRunning = s.handlerRunning ∧
      run.mainJob = s.mainJob ∧ run.handlerJob = s.handlerJob ∧ run.activations = s.activations ∧
      run.returned = s.returned) ∧
  (∀ (s : State) (w : CmdWord) (rest : List HostMove) (e : RefuseReason),
    s.fault = none → s.handlerRunning = false → s.envMove.fires = false → s.mainJob = none →
    s.mainTodo = .command w :: rest → decode w = .error e → ∃ run, step s = .refused (.refuse e run)) ∧
  ∀ (s : State) (w : CmdWord) (rest : List CmdWord) (e : RefuseReason),
    s.fault = none → s.handlerRunning = true → s.handlerJob = none → s.handlerTodo = w :: rest →
    decode w = .error e → ∃ run, step s = .refused (.refuse e run)

/-- R77: a legal word's command is refused with OutOfDomain exactly if its operands lie outside the operation's domain,
before any state changes; every other command answers a next state. -/
def Obligations.CommandsAreRefusedExactlyOutsideTheirDomain : Prop :=
  ∀ (i : Instr) (s : State),
    (i.wellFormed = true → ∃ t, exec i s = .next t) ∧
    (i.wellFormed = false → exec i s = .refused (.refuse .outOfDomain { s with refusal := some .outOfDomain }))

/-! ## Reset and invariants -/

/-- R39, R260, R261: the state after reset; and while no command is in progress and the host issues none, nothing
happens: every such step leaves the pins, the phases, the owners, the trace and the results, and is followed by another
such step. -/
def Obligations.ResetLeavesTheResetTable : Prop :=
  ((∀ p, State.reset.pin p = { mode := .input, latch := false }) ∧ (∀ b, State.reset.phase.get b = .idle) ∧
    (∀ b, State.reset.owner.get b = .none) ∧ State.reset.trace = [] ∧ State.reset.fault = none ∧
    State.reset.refusal = none ∧ State.reset.mainJob = none ∧ State.reset.handlerJob = none ∧
    State.reset.mainTodo = [] ∧ State.reset.handlerTodo = [] ∧ State.reset.activations = [] ∧
    State.reset.handlerRunning = false ∧ State.reset.masked = false ∧ ∀ b l, State.reset.drivesLow b l = false) ∧
  ∀ s : State, s.fault = none → s.mainJob = none → s.handlerJob = none → s.mainTodo = [] → s.handlerTodo = [] →
    s.activations = [] →
    ∃ t, step s = .next t ∧ t.trace = s.trace ∧ t.pins = s.pins ∧ t.phase = s.phase ∧ t.owner = s.owner ∧
      t.returned = s.returned ∧ t.fault = none ∧ t.refusal = s.refusal ∧ t.masked = s.masked ∧ t.mainJob = none ∧
      t.handlerJob = none ∧ t.mainTodo = [] ∧ t.handlerTodo = [] ∧ t.activations = []

/-- The invariant holds at reset. It rests on the board State.reset takes for the OPEN parameters: the model's choice
(log entry 1). -/
def Obligations.ResetMeetsTheInvariant : Prop := State.reset.Inv

/-- Every step keeps the invariant: no bus pin is output-high (R24, R115, R238), invalid pins have no state (R20), an
open transaction belongs to a context and no bus is owned for nothing (R31), a command in progress owns its bus. -/
def Obligations.EveryStepKeepsTheInvariant : Prop := ∀ s t : State, s.Inv → step s = .next t → t.Inv

/-- R27, R244: no command writes the configuration or the mask, and a step changes the mask only as MAIN's host asks. -/
def Obligations.NoCommandWritesConfigurationOrMask : Prop :=
  (∀ (i : Instr) (s t : State), exec i s = .next t → t.cfg = s.cfg ∧ t.masked = s.masked) ∧
  ∀ s t : State, step s = .next t → t.cfg = s.cfg ∧
    (t.masked ≠ s.masked → s.handlerRunning = false ∧ s.mainJob = none ∧ ∃ rest, s.mainTodo = .mask t.masked :: rest)

/-! ## Faults (60_exceptions.md section 2) -/

/-- R236: a faulted run is quiescent and its record is never cleared by a later step. -/
def Obligations.AFaultedRunIsQuiescent : Prop :=
  ∀ (s : State) (f : Fault), s.fault = some f → ∀ n, Sys2Proof.core.run (n + 1) s = .fault f

/-- R237: a context that begins a command on a bus the other context owns raises Overlap before any line action, and the
commands that touch no bus never raise it. -/
def Obligations.OverlapIsRaisedBeforeAnyLineAction : Prop :=
  (∀ (i : Instr) (s : State) (b : Bus), touches i = some b → i.wellFormed = true → s.owner.get b ≠ .none →
    s.owner.get b ≠ s.ctx.owner →
    exec i s = .next { s with fault := some (.overlap b s.ctx (s.owner.get b)) }) ∧
  ∀ (i : Instr) (s t : State) (b : Bus) (c : Ctx) (o : Owner), touches i = none → exec i s = .next t →
    t.fault = some (.overlap b c o) → s.fault = some (.overlap b c o)

/-- R138, R182, R239: an engine command that needs an open transaction in phase IDLE, or an adapter operation inside one,
raises ProtocolMisuse before any line action; BUS_START and BUS_INIT never raise it. -/
def Obligations.ProtocolMisuseIsRaisedBeforeAnyLineAction : Prop :=
  (∀ (i : Instr) (s : State) (b : Bus), touches i = some b → i.wellFormed = true → s.mayUse b →
    (needsTransaction i = true ∧ s.phase.get b = .idle ∨ needsIdle i = true ∧ s.phase.get b ≠ .idle) →
    ∃ t, exec i s = .next t ∧ t.fault = some (.protocolMisuse b) ∧ t.pins = s.pins ∧ t.phase = s.phase ∧
      t.trace = s.trace ∧ t.returned = s.returned ∧ t.env = s.env ∧ t.mainJob = s.mainJob ∧
      t.handlerJob = s.handlerJob) ∧
  ∀ (i : Instr) (s t : State) (b b' : Bus), (i = .busInit b ∨ ∃ ha addr rw, i = .busStart b ha addr rw) →
    exec i s = .next t → t.fault = some (.protocolMisuse b') → s.fault = some (.protocolMisuse b')

/-- R236, R238, R241: the four kinds are all the faults a command can raise as it begins, each only where its rule says so.
A command in progress that is gone on with can raise SelfStall alone, on its own bus, where the block drives SCL at the
wait; that an engine command can do so then, which R241 denies, is the model's reading (log entry 14). -/
def Obligations.FaultsAriseOnlyAsTheirRulesSay : Prop :=
  (∀ (i : Instr) (s t : State) (f : Fault), configWf s.cfg = true → s.pinsWf → s.fault = none → exec i s = .next t →
    t.fault = some f →
    (∃ p, f = .outputHigh p ∧ (∃ b l, p = pinOf s.cfg b l) ∧
      (i = .pinSetMode p true ∧ (s.pin p).latch = true ∨ i = .pinWrite p true ∧ (s.pin p).mode = .output)) ∨
    (∃ b, f = .overlap b s.ctx (s.owner.get b) ∧ touches i = some b ∧ s.owner.get b ≠ .none ∧
      s.owner.get b ≠ s.ctx.owner) ∨
    (∃ b, f = .protocolMisuse b ∧ touches i = some b ∧
      (needsTransaction i = true ∧ s.phase.get b = .idle ∨ needsIdle i = true ∧ s.phase.get b ≠ .idle)) ∨
    (∃ b, f = .selfStall b ∧ i = .sclWaitHigh b ∧ s.drivesLow b .scl = true)) ∧
  ∀ (j : Job) (s : State) (f : Fault), s.fault = none → (resume j s).fault = some f →
    ∃ b, f = .selfStall b ∧ touches j.instr = some b ∧ (resume j s).drivesLow b .scl = true

/-- R234, R235: outside the faults of their own rules, a command that a context may begin and that nothing preempts either
returns its result or is held with its bus owned, and nothing it meets disables a later command. -/
def Obligations.ABegunCommandReturnsOrIsHeld : Prop :=
  ∀ (i : Instr) (s t : State) (b : Bus), touches i = some b → i.wellFormed = true → s.steady b →
    (needsTransaction i = true → s.phase.get b ≠ .idle) → (needsIdle i = true → s.phase.get b = .idle) →
    (i = .sclWaitHigh b → s.drivesLow b .scl = false) → exec i s = .next t →
    t.fault = s.fault ∧ t.refusal = s.refusal ∧ ∃ evs, t.trace = s.trace ++ evs ∧
      ((∃ r, t.returned = (s.ctx, r) :: s.returned ∧ t.mainJob = s.mainJob ∧ t.handlerJob = s.handlerJob ∧
          (t.owner.get b = .none ↔ t.phase.get b = .idle)) ∨
        (∃ trail, t.returned = s.returned ∧ t.owner.get b = s.ctx.owner ∧
          (bif s.handlerRunning then t.handlerJob else t.mainJob) = some { instr := i, trail := trail }))

/-! ## Pins (40_pin.md) -/

/-- R100: PIN_VALID answers whether the id lies in 1..N_PINS and is not reserved, and changes nothing. -/
def Obligations.PinValidAnswersThePredicate : Prop :=
  ∀ (s : State) (p : Byte), ∃ v : Bool,
    exec (.pinValid p) s = .next { s with returned := (s.ctx, .bit v) :: s.returned } ∧
    (v = true ↔ 1 ≤ p.toNat ∧ p.toNat ≤ s.cfg.nPins ∧ p ∉ s.cfg.reservedPins.toList)

/-- R101: the mapping of valid ids to port group and bit, injective, onto the slots 0 .. N_PINS - 5 with no gap. -/
def Obligations.PinMappingIsInjectiveWithNoGap : Prop :=
  ∀ c : Config, configWf c = true →
    (∀ p, pinSlot c p = p.toNat - 1 - (c.reservedPins.toList.filter fun r => decide (r.toNat < p.toNat)).length ∧
      pinPort c p = pinSlot c p / c.pinsPerPort ∧ pinBit c p = pinSlot c p % c.pinsPerPort) ∧
    (∀ p q, validPin c p = true → validPin c q = true → pinPort c p = pinPort c q → pinBit c p = pinBit c q → p = q) ∧
    ∀ k, (∃ p, validPin c p = true ∧ pinSlot c p = k) ↔ k < c.nPins - 4

/-- R102: PIN_SET_MODE on every id: absorbed where invalid, faulting before the write where a bus pin would become
output-high, else it writes the mode, and on a bus pin records the change as the line driver would. -/
def Obligations.PinSetModeWritesTheMode : Prop :=
  ∀ (s : State) (p : Byte) (v : Bool), configWf s.cfg = true → s.pinsWf →
    (validPin s.cfg p = false →
      exec (.pinSetMode p v) s = .next { s with returned := (s.ctx, .nothing) :: s.returned }) ∧
    ((∃ b l, p = pinOf s.cfg b l) → v = true → (s.pin p).latch = true →
      exec (.pinSetMode p v) s = .next { s with fault := some (.outputHigh p) }) ∧
    (validPin s.cfg p = true → ((∃ b l, p = pinOf s.cfg b l) → v = false ∨ (s.pin p).latch = false) →
      ∃ t, exec (.pinSetMode p v) s = .next t ∧ SameBuses s t ∧
        t.pin p = { mode := if v then .output else .input, latch := (s.pin p).latch } ∧
        (∀ q, q ≠ p → t.pin q = s.pin q) ∧ t.returned = (s.ctx, .nothing) :: s.returned ∧
        ((∀ b l, p ≠ pinOf s.cfg b l) → t.trace = s.trace ∧ t.env = s.env) ∧
        ∀ b l, p = pinOf s.cfg b l → t.trace = s.trace ++
          if t.pin p = s.pin p then [] else if v then [.driveLow b l] else [.release b l])

/-- R103: PIN_WRITE on every id: absorbed where invalid, faulting before the write where a bus pin is an output and the
value is 1, else it writes the latch and records nothing. -/
def Obligations.PinWriteWritesTheLatch : Prop :=
  ∀ (s : State) (p : Byte) (v : Bool), configWf s.cfg = true → s.pinsWf →
    (validPin s.cfg p = false →
      exec (.pinWrite p v) s = .next { s with returned := (s.ctx, .nothing) :: s.returned }) ∧
    ((∃ b l, p = pinOf s.cfg b l) → v = true → (s.pin p).mode = .output →
      exec (.pinWrite p v) s = .next { s with fault := some (.outputHigh p) }) ∧
    (validPin s.cfg p = true → ((∃ b l, p = pinOf s.cfg b l) → v = false ∨ (s.pin p).mode = .input) →
      ∃ t, exec (.pinWrite p v) s = .next t ∧ SameBuses s t ∧ t.pin p = { mode := (s.pin p).mode, latch := v } ∧
        (∀ q, q ≠ p → t.pin q = s.pin q) ∧ t.returned = (s.ctx, .nothing) :: s.returned ∧ t.trace = s.trace ∧
        t.env = s.env)

/-- R104: PIN_READ answers 0 for an invalid id, the latch of an output, the level of an input bus pin's line and the draw
`ext` of any other input pin, and changes nothing. -/
def Obligations.PinReadAnswersTheLevel : Prop :=
  ∀ (s : State) (p : Byte), configWf s.cfg = true → ∃ v : Bool,
    exec (.pinRead p) s = .next { s with returned := (s.ctx, .bit v) :: s.returned } ∧
    (validPin s.cfg p = false → v = false) ∧
    (validPin s.cfg p = true → (s.pin p).mode = .output → v = (s.pin p).latch) ∧
    (∀ b l, p = pinOf s.cfg b l → (s.pin p).mode = .input → v = s.level b l) ∧
    (validPin s.cfg p = true → (∀ b l, p ≠ pinOf s.cfg b l) → (s.pin p).mode = .input → v = s.env.now.ext)

/-- R105: the pin guard law. -/
def Obligations.PinGuardLaw : Prop :=
  (∀ (s : State) (p : Byte) (v : Bool), validPin s.cfg p = false →
    exec (.pinSetMode p v) s = .next { s with returned := (s.ctx, .nothing) :: s.returned } ∧
    exec (.pinWrite p v) s = .next { s with returned := (s.ctx, .nothing) :: s.returned } ∧
    exec (.pinRead p) s = .next { s with returned := (s.ctx, .bit false) :: s.returned }) ∧
  ∀ (s t : State) (p : Byte) (v : Bool), configWf s.cfg = true → s.pinsWf → validPin s.cfg p = true →
    s.fault = none → exec (.pinSetMode p true) s = .next t → t.fault = none →
    ((∀ b l, p ≠ pinOf s.cfg b l) ∨ v = false →
      ∃ u x, exec (.pinWrite p v) t = .next u ∧ u.fault = none ∧ exec (.pinRead p) u = .next x ∧
        x.returned = (u.ctx, .bit v) :: u.returned) ∧
    ((∃ b l, p = pinOf s.cfg b l) → v = true →
      ∃ u, exec (.pinWrite p v) t = .next u ∧ u.fault = some (.outputHigh p))

/-! ## Lines (41_line.md) -/

/-- R110: LINE_DRIVE_LOW clears the latch, makes the pin an output and records it; the line is then 0 whatever the peer
does. -/
def Obligations.LineDriveLowDrivesTheLine : Prop :=
  ∀ (s : State) (b : Bus) (l : Line), s.steady b →
    ∃ t, exec (.lineDriveLow b l) s = .next t ∧ Completed s t b [.driveLow b l] (s.phase.get b) .nothing ∧
      t.pin (pinOf s.cfg b l) = { mode := .output, latch := false } ∧
      ∀ e : Env, ({ t with env := e } : State).level b l = false

/-- R111: LINE_RELEASE makes the pin an input, leaves its latch and records it; the line is then 1 unless the peer drives
it low (R25; with pull-ups). -/
def Obligations.LineReleaseReleasesTheLine : Prop :=
  ∀ (s : State) (b : Bus) (l : Line), s.steady b →
    ∃ t, exec (.lineRelease b l) s = .next t ∧ Completed s t b [.release b l] (s.phase.get b) .nothing ∧
      t.pin (pinOf s.cfg b l) = { mode := .input, latch := (s.pin (pinOf s.cfg b l)).latch } ∧
      (s.cfg.pullupsPresent = true → ∀ e : Env,
        ({ t with env := e } : State).level b l = !(e.peers.get b).low (e.now.drive.get b) l)

/-- R25, R112: LINE_READ answers the wired-AND of the line at its instant, 0 if the block drives it, and records the
sample. -/
def Obligations.LineReadAnswersTheLevel : Prop :=
  ∀ (s : State) (b : Bus) (l : Line), s.steady b →
    ∃ t v, exec (.lineRead b l) s = .next t ∧ Completed s t b [.sample b l v] (s.phase.get b) (.bit v) ∧
      v = s.envMove.level b l ∧ (s.drivesLow b l = true → v = false)

/-- R113, R234, R241: SCL_WAIT_HIGH faults with SelfStall where the block itself drives SCL, completes at once where SCL
reads 1, and is otherwise held: it stays in progress, and nothing but the bus's owner is changed. -/
def Obligations.SclWaitHighWaitsForTheClock : Prop :=
  ∀ (s : State) (b : Bus), s.steady b →
    (s.drivesLow b .scl = true →
      ∃ t, exec (.sclWaitHigh b) s = .next t ∧ t.fault = some (.selfStall b) ∧ t.pins = s.pins ∧ t.trace = s.trace ∧
        t.phase = s.phase ∧ t.returned = s.returned) ∧
    (s.drivesLow b .scl = false → s.sclFree b 0 = true →
      ∃ t, exec (.sclWaitHigh b) s = .next t ∧ Completed s t b [.waited b] (s.phase.get b) .nothing) ∧
    (s.drivesLow b .scl = false → s.sclFree b 0 = false →
      ∃ t, exec (.sclWaitHigh b) s = .next t ∧ t.fault = s.fault ∧ t.pins = s.pins ∧ t.trace = s.trace ∧
        t.phase = s.phase ∧ t.returned = s.returned ∧ t.owner = s.owner.set b s.ctx.owner ∧
        (bif s.handlerRunning then t.handlerJob else t.mainJob) = some { instr := .sclWaitHigh b, trail := [] })

/-- R114: HALF_DELAY records one delay of T_HALF. -/
def Obligations.HalfDelayRecordsOneDelay : Prop :=
  ∀ (s : State) (b : Bus), s.steady b →
    ∃ t, exec (.halfDelay b) s = .next t ∧ Completed s t b [.delay s.cfg.tHalf] (s.phase.get b) .nothing

/-! ## The engine (42_engine.md) -/

/-- R130: BUS_INIT releases both lines and leaves the bus IDLE, from every phase. -/
def Obligations.BusInitReleasesBothLines : Prop :=
  ∀ (s : State) (b : Bus), s.steady b →
    ∃ t, exec (.busInit b) s = .next t ∧ Completed s t b [.release b .sda, .release b .scl] .idle .nothing

/-- R131: BUS_START without an address makes a start condition, a repeated one inside a transaction, and answers 1. -/
def Obligations.BusStartWithoutAddress : Prop :=
  ∀ (s : State) (b : Bus) (addr : BitVec 7) (rw : Bool), s.ready b →
    ∃ t, exec (.busStart b false addr rw) s = .next t ∧
      Completed s t b (startEvents b s.cfg.tHalf (s.phase.get b == .idle)) .started (.bit true)

/-- R131, R143: BUS_START with an address sends it after the start condition and answers 1 exactly if the acknowledgment
sampled 0; the phase is ADDR_SENT and the line actions are the same either way. -/
def Obligations.BusStartWithAddress : Prop :=
  ∀ (s : State) (b : Bus) (addr : BitVec 7) (rw : Bool), s.ready b →
    ∃ t a, exec (.busStart b true addr rw) s = .next t ∧
      Completed s t b (startEvents b s.cfg.tHalf (s.phase.get b == .idle) ++
        xferOutEvents b s.cfg.tHalf (addr ++ BitVec.ofBool rw) a) .addrSent (.bit (!a))

/-- R132: BUS_WRITE_BIT clocks one bit out. -/
def Obligations.BusWriteBitClocksOneBitOut : Prop :=
  ∀ (s : State) (b : Bus) (v : Bool), s.ready b → s.phase.get b ≠ .idle →
    ∃ t, exec (.busWriteBit b v) s = .next t ∧
      Completed s t b [if v then .release b .sda else .driveLow b .sda, .delay s.cfg.tHalf, .release b .scl, .waited b,
        .delay s.cfg.tHalf, .driveLow b .scl] (s.phase.get b) .nothing

/-- R133: BUS_READ_BIT clocks one bit in and answers the sample; with a drawn peer, what the peer leaves on SDA then. -/
def Obligations.BusReadBitClocksOneBitIn : Prop :=
  ∀ (s : State) (b : Bus), s.ready b → s.phase.get b ≠ .idle →
    ∃ t v, exec (.busReadBit b) s = .next t ∧
      Completed s t b [.release b .sda, .delay s.cfg.tHalf, .release b .scl, .waited b, .delay s.cfg.tHalf,
        .sample b .sda v, .driveLow b .scl] (s.phase.get b) (.bit v) ∧
      ((s.env.peers.get b).isDrawn = true → v = s.sdaFree b 5)

/-- R134, R232: BUS_WRITE clocks the byte out in the bus's order, samples the acknowledgment, logs a NACK and answers 1
exactly if it was acknowledged. -/
def Obligations.BusWriteSendsTheByte : Prop :=
  ∀ (s : State) (b : Bus) (x : Byte), s.ready b → s.phase.get b ≠ .idle →
    ∃ t a, exec (.busWrite b x) s = .next t ∧
      Completed s t b (((wireBits (Config.order b) x).flatMap (wbitEvents b s.cfg.tHalf) ++
        rbitEvents b s.cfg.tHalf a) ++ if a then [.ackFail b x] else []) .transfer (.bit (!a))

/-- R135: BUS_READ clocks eight bits in, drives the acknowledgment `LAST` asks for and answers the byte the samples make
in the bus's order. -/
def Obligations.BusReadReceivesTheByte : Prop :=
  ∀ (s : State) (b : Bus) (last : Bool), s.ready b → s.phase.get b ≠ .idle →
    ∃ t ss, exec (.busRead b last) s = .next t ∧ ss.length = 8 ∧
      Completed s t b (ss.flatMap (rbitEvents b s.cfg.tHalf) ++ wbitEvents b s.cfg.tHalf last) .transfer
        (.byte (assemble (Config.order b) ss))

/-- R136: BUS_STOP makes a stop condition, waits the settle delay and leaves the bus IDLE and unowned. -/
def Obligations.BusStopClosesTheTransaction : Prop :=
  ∀ (s : State) (b : Bus), s.ready b → s.phase.get b ≠ .idle →
    ∃ t, exec (.busStop b) s = .next t ∧
      Completed s t b [.driveLow b .sda, .delay s.cfg.tHalf, .release b .scl, .waited b, .delay s.cfg.tHalf,
        .release b .sda, .delay s.cfg.tSettle] .idle .nothing ∧ t.owner.get b = .none

/-- R38, R145: the phase and the block's own drive of both lines that each engine command leaves. -/
def Obligations.EngineCommandsLeaveTheirPhaseAndLines : Prop :=
  ∀ (i : Instr) (s : State) (b : Bus) (ls : Bool × Bool), exitLines i = some ls → touches i = some b → s.ready b →
    (needsTransaction i = true → s.phase.get b ≠ .idle) →
    ∃ t, exec i s = .next t ∧ t.lines b = ls ∧ t.phase.get b = exitPhase (s.phase.get b) i

/-- R140, for a command that is `ready`: no peer stretches its clock and nothing preempts it. The events of an engine
command begun inside a transaction with SCL driven low change SDA with SCL released only where they make BUS_START's start
condition or BUS_STOP's stop condition; of a BUS_START from IDLE with SCL released, the start condition is the only such
change. A held or preempted command's events are left out. -/
def Obligations.SdaIsStableWhileTheClockIsReleased : Prop :=
  (∀ (i : Instr) (s : State) (b : Bus), (exitLines i).isSome = true → touches i = some b → s.ready b →
    s.phase.get b ≠ .idle → s.drivesLow b .scl = true →
    ∃ t evs, exec i s = .next t ∧ t.trace = s.trace ++ evs ∧ openSda b true evs =
      match i with
      | .busStart .. => [.driveLow b .sda]
      | .busStop _ => [.release b .sda]
      | _ => []) ∧
  ∀ (s : State) (b : Bus) (ha : Bool) (addr : BitVec 7) (rw : Bool), s.ready b → s.phase.get b = .idle →
    s.drivesLow b .scl = false →
    ∃ t evs, exec (.busStart b ha addr rw) s = .next t ∧ t.trace = s.trace ++ evs ∧
      openSda b false evs = [.driveLow b .sda]

/-- R142, for a command that is `ready`: no peer stretches its clock and nothing preempts it. For either bit order the
wire bits of a byte reconstruct it; a peer that reads SDA in each of the first eight SCL high periods of BUS_WRITE, without
driving it, reads those bits; and BUS_READ answers `x` when a drawn peer (`isDrawn`: unconstrained or absent, no expected
peer with a course of its own) leaves the i-th wire bit of `x` on SDA at the i-th sample. The address byte of BUS_START,
which `xfer_out` sends too, is left out. -/
def Obligations.BytesAreReconstructedBitForBit : Prop :=
  (∀ (o : BitOrder) (x : Byte), assemble o ((List.range 8).map (bitAt o x)) = x) ∧
  (∀ (s : State) (b : Bus) (x : Byte) (sda : Bool), s.ready b → s.phase.get b ≠ .idle →
    ∃ t evs, exec (.busWrite b x) s = .next t ∧ t.trace = s.trace ++ evs ∧
      (highPeriodBits b sda evs).take 8 = (List.range 8).map (bitAt (Config.order b) x)) ∧
  ∀ (s : State) (b : Bus) (last : Bool) (x : Byte), s.ready b → s.phase.get b ≠ .idle →
    (s.env.peers.get b).isDrawn = true → (∀ i < 8, s.sdaFree b (7 * i + 5) = bitAt (Config.order b) x i) →
    ∃ t, exec (.busRead b last) s = .next t ∧ t.returned = (s.ctx, .byte x) :: s.returned

/-- R145, R276: the events and delays each engine command records: BUS_INIT from every phase, BUS_START from IDLE and
inside a transaction, and the five commands that need a transaction. -/
def Obligations.EngineCommandsRecordTheirEventCounts : Prop :=
  ∀ (s : State) (b : Bus), s.ready b →
    (∃ t, exec (.busInit b) s = .next t ∧ t.trace.length = s.trace.length + 2 ∧ delays t.trace = delays s.trace) ∧
    (∀ ha addr rw, ∃ t, exec (.busStart b ha addr rw) s = .next t ∧
      t.trace.length = s.trace.length + (if s.phase.get b = .idle then 3 else 8) + (if ha then 55 else 0) ∧
      delays t.trace = delays s.trace + (if s.phase.get b = .idle then 1 else 3) + (if ha then 18 else 0)) ∧
    (s.phase.get b ≠ .idle →
      (∀ v, ∃ t, exec (.busWriteBit b v) s = .next t ∧ t.trace.length = s.trace.length + 6 ∧
        delays t.trace = delays s.trace + 2) ∧
      (∃ t, exec (.busReadBit b) s = .next t ∧ t.trace.length = s.trace.length + 7 ∧
        delays t.trace = delays s.trace + 2) ∧
      (∀ x, ∃ t a, exec (.busWrite b x) s = .next t ∧ t.returned = (s.ctx, .bit (!a)) :: s.returned ∧
        t.trace.length = s.trace.length + 55 + (if a then 1 else 0) ∧ delays t.trace = delays s.trace + 18) ∧
      (∀ last, ∃ t, exec (.busRead b last) s = .next t ∧ t.trace.length = s.trace.length + 62 ∧
        delays t.trace = delays s.trace + 18) ∧
      ∃ t, exec (.busStop b) s = .next t ∧ t.trace.length = s.trace.length + 7 ∧ delays t.trace = delays s.trace + 3)

/-- R113, R234, R245: BUS_STOP whose clock is held low records its first three events and stays in progress; going on
with it when the clock is free records the rest and closes the transaction. -/
def Obligations.AHeldStopGoesOnWhereItStood : Prop :=
  (∀ (s : State) (b : Bus), s.steady b → s.phase.get b ≠ .idle → s.sclFree b 3 = false →
    ∃ t, exec (.busStop b) s = .next t ∧
      t.trace = s.trace ++ [.driveLow b .sda, .delay s.cfg.tHalf, .release b .scl] ∧ t.phase = s.phase ∧
      t.owner = s.owner.set b s.ctx.owner ∧ t.returned = s.returned ∧ t.fault = s.fault ∧
      (bif s.handlerRunning then t.handlerJob else t.mainJob) =
        some { instr := .busStop b, trail := [true, true, true] }) ∧
  ∀ (s : State) (b : Bus), s.ready b → s.owner.get b = s.ctx.owner → s.drivesLow b .scl = false →
    Completed s.clearJob (resume { instr := .busStop b, trail := [true, true, true] } s) b
      [.waited b, .delay s.cfg.tHalf, .release b .sda, .delay s.cfg.tSettle] .idle .nothing

/-! ## The codec (43_codec.md) -/

/-- R160: BCD_ENCODE's result has the tens in bits 7:4 and the units in bits 3:0, it is refused above 99, it is injective
on 0..99, and its image is the bytes whose two nibbles are at most 9. -/
def Obligations.BcdEncodeGivesTensAndUnits : Prop :=
  (∀ (s : State) (x : Byte), x.toNat ≤ 99 → ∃ y : Byte,
    exec (.bcdEncode x) s = .next { s with returned := (s.ctx, .byte y) :: s.returned } ∧
    y.toNat = 16 * (x.toNat / 10) + x.toNat % 10) ∧
  (∀ (s : State) (x : Byte), 100 ≤ x.toNat →
    exec (.bcdEncode x) s = .refused (.refuse .outOfDomain { s with refusal := some .outOfDomain })) ∧
  (∀ d e, d ≤ 99 → e ≤ 99 → bcdEncode d = bcdEncode e → d = e) ∧
  ∀ y : Byte, (∃ d ≤ 99, bcdEncode d = y) ↔ y.toNat / 16 ≤ 9 ∧ y.toNat % 16 ≤ 9

/-- R161, R165: BCD_DECODE answers ten times the high nibble plus the low nibble, on all 256 bytes, at most 165;
TEMP_DECODE answers the signed integer part and the fraction in hundredths from bits 7:6 alone. -/
def Obligations.BcdAndTempDecodeAreTotal : Prop :=
  (∀ (s : State) (x : Byte), ∃ n,
    exec (.bcdDecode x) s = .next { s with returned := (s.ctx, .number n) :: s.returned } ∧
    n = (x.toNat / 16) * 10 + x.toNat % 16 ∧ n ≤ 165) ∧
  ∀ (s : State) (msb lsb : Byte), ∃ i : Int, ∃ f : Nat,
    exec (.tempDecode msb lsb) s = .next { s with returned := (s.ctx, .temperature i f) :: s.returned } ∧
    i = (if msb.toNat < 128 then (msb.toNat : Int) else (msb.toNat : Int) - 256) ∧ f = lsb.toNat / 64 * 25

/-- R162: the BCD round-trip law. -/
def Obligations.BcdRoundTripLaw : Prop :=
  (∀ d ≤ 99, bcdDecode (bcdEncode d) = d) ∧
  ∀ b : Byte, b.toNat / 16 ≤ 9 → b.toNat % 16 ≤ 9 → bcdEncode (bcdDecode b) = b

/-- R163, R164: YEAR_ENCODE answers the year byte and the century flag of a year 2000..2199, YEAR_DECODE the year of any
byte and flag, and decoding an encoded year gives it back. -/
def Obligations.YearCodecFollowsTheCenturyFlag : Prop :=
  (∀ (s : State) (y : BitVec 16), 2000 ≤ y.toNat → y.toNat ≤ 2199 → ∃ yb : Byte, ∃ cen : Bool,
    exec (.yearEncode y) s = .next { s with returned := (s.ctx, .yearCode yb cen) :: s.returned } ∧
    yb.toNat = 16 * (y.toNat % 100 / 10) + y.toNat % 10 ∧ (cen = true ↔ 2100 ≤ y.toNat) ∧
    exec (.yearDecode yb cen) s = .next { s with returned := (s.ctx, .number y.toNat) :: s.returned }) ∧
  ∀ (s : State) (yb : Byte) (cen : Bool), exec (.yearDecode yb cen) s = .next { s with returned :=
    (s.ctx, .number (2000 + (if cen then 100 else 0) + ((yb.toNat / 16) * 10 + yb.toNat % 16))) :: s.returned }

/-- R82, R166: the month byte carries the century flag in bit 7 and the BCD month below it, and is split so. -/
def Obligations.MonthByteCarriesTheCentury : Prop :=
  (∀ m cen, m ≤ 79 → splitMonth (monthByte m cen) = m ∧ splitCentury (monthByte m cen) = cen) ∧
  (∀ m, m ≤ 99 → (monthByte m true).toNat = (bcdEncode m).toNat % 128 + 128 ∧ monthByte m false = bcdEncode m) ∧
  ∀ mb : Byte, splitMonth mb = bcdDecode (BitVec.ofNat 8 (mb.toNat % 128)) ∧ (splitCentury mb = true ↔ 128 ≤ mb.toNat)

/-! ## The RTC adapter (44_rtc.md) -/

/-- R180, R182: RTC_READ_REGS of 1 to 7 registers from an idle bus. -/
def Obligations.RtcReadRegsReadsABurst : Prop :=
  ∀ (s : State) (reg : Byte) (n : BitVec 3), s.ready .rtc → s.phase.get .rtc = .idle → 1 ≤ n.toNat →
    ∃ t evs ph d, exec (.rtcReadRegs reg n) s = .next t ∧ ReadRegsRun s.cfg reg n.toNat evs ph d ∧
      Completed s t .rtc evs ph (match d with | none => .ok false | some d => .registers d)

/-- R181, R182, R193: RTC_WRITE_REGS of 1 to 4 registers from an idle bus; data NACKs do not change `ok`. -/
def Obligations.RtcWriteRegsWritesABurst : Prop :=
  ∀ (s : State) (reg : Byte) (n : BitVec 3) (d0 d1 d2 d3 : Byte),
    (Instr.rtcWriteRegs reg n d0 d1 d2 d3).wellFormed = true → s.ready .rtc → s.phase.get .rtc = .idle →
    ∃ t evs ph ok, exec (.rtcWriteRegs reg n d0 d1 d2 d3) s = .next t ∧
      WriteRegsRun s.cfg reg ([d0, d1, d2, d3].take n.toNat) evs ph ok ∧ Completed s t .rtc evs ph (.ok ok)

/-- R184, R186, R188: RTC_READ_TIME, RTC_READ_DATE and RTC_READ_TEMP read one burst and decode it: the time's three BCD
bytes unmasked, the date's month with the century flag split off, the temperature's signed part and fraction. -/
def Obligations.RtcReadOperationsDecodeOneBurst : Prop :=
  ∀ s : State, s.ready .rtc → s.phase.get .rtc = .idle →
    (∃ t evs ph d, exec .rtcReadTime s = .next t ∧ ReadRegsRun s.cfg s.cfg.regSeconds 3 evs ph d ∧
      (d = none ∧ Completed s t .rtc evs ph (.ok false) ∨ ∃ ss mm hh : Byte, d = some [ss, mm, hh] ∧
        Completed s t .rtc evs ph (.time (bcdDecode hh) (bcdDecode mm) (bcdDecode ss)))) ∧
    (∃ t evs ph d, exec .rtcReadDate s = .next t ∧ ReadRegsRun s.cfg s.cfg.regDay 3 evs ph d ∧
      (d = none ∧ Completed s t .rtc evs ph (.ok false) ∨ ∃ dd mb yb : Byte, d = some [dd, mb, yb] ∧
        Completed s t .rtc evs ph (.date (bcdDecode dd) (bcdDecode (mb &&& 0x7F#8))
          (2000 + (if mb.getLsbD 7 then 100 else 0) + bcdDecode yb)))) ∧
    ∃ t evs ph d, exec .rtcReadTemp s = .next t ∧ ReadRegsRun s.cfg s.cfg.regTempMsb 2 evs ph d ∧
      (d = none ∧ Completed s t .rtc evs ph (.ok false) ∨ ∃ msb lsb : Byte, d = some [msb, lsb] ∧
        Completed s t .rtc evs ph (.rtcTemperature msb.toInt (lsb.toNat / 64 * 25)))

/-- R185, R187, R189: RTC_WRITE_TIME and RTC_WRITE_DATE write their three encoded bytes, for operands in their domain;
RTC_INIT is one full write of the control register. -/
def Obligations.RtcWriteOperationsWriteTheirBytes : Prop :=
  ∀ s : State, s.ready .rtc → s.phase.get .rtc = .idle →
    (∀ hour min sec : Byte, hour.toNat ≤ 99 → min.toNat ≤ 99 → sec.toNat ≤ 99 →
      ∃ t evs ph ok, exec (.rtcWriteTime hour min sec) s = .next t ∧
        WriteRegsRun s.cfg s.cfg.regSeconds [bcdEncode sec.toNat, bcdEncode min.toNat, bcdEncode hour.toNat] evs ph ok ∧
        Completed s t .rtc evs ph (.ok ok)) ∧
    (∀ (day month : Byte) (year : BitVec 16), day.toNat ≤ 99 → month.toNat ≤ 99 → 2000 ≤ year.toNat →
      year.toNat ≤ 2199 →
      ∃ t evs ph ok, exec (.rtcWriteDate day month year) s = .next t ∧
        WriteRegsRun s.cfg s.cfg.regDay [bcdEncode day.toNat,
          (if 2100 ≤ year.toNat then 0x80#8 else 0x00#8) ||| bcdEncode month.toNat, bcdEncode (year.toNat % 100)]
          evs ph ok ∧ Completed s t .rtc evs ph (.ok ok)) ∧
    ∃ t evs ph ok, exec .rtcInit s = .next t ∧ WriteRegsRun s.cfg s.cfg.regControl [s.cfg.ctrlInit] evs ph ok ∧
      Completed s t .rtc evs ph (.ok ok)

/-- R191: RTC_ACK_ALARM reads the status register and writes it back with A1F cleared and every other bit as read. -/
def Obligations.RtcAckAlarmClearsOneStatusBit : Prop :=
  ∀ s : State, s.ready .rtc → s.phase.get .rtc = .idle →
    ∃ t evs ph ok, exec .rtcAckAlarm s = .next t ∧ Completed s t .rtc evs ph (.ok ok) ∧
      (ok = false ∧ ReadRegsRun s.cfg s.cfg.regStatus 1 evs ph none ∨
        ∃ (st st' : Byte) (e1 e2 : List Event), ReadRegsRun s.cfg s.cfg.regStatus 1 e1 .idle (some [st]) ∧
          WriteRegsRun s.cfg s.cfg.regStatus [st'] e2 ph ok ∧ evs = e1 ++ e2 ∧
          ∀ k, st'.getLsbD k = (st.getLsbD k && decide (k ≠ s.cfg.a1fBit.val)))

/-- R83, R190: RTC_ARM_ALARM in full: alarm write, control read, control write with A1IE set, status read, status write,
stopping at the first that is not acknowledged. -/
def Obligations.RtcArmAlarmRunsFiveTransactions : Prop :=
  ∀ s : State, s.ready .rtc → s.phase.get .rtc = .idle →
    ∃ t evs ph ok, exec .rtcArmAlarm s = .next t ∧ Completed s t .rtc evs ph (.ok ok) ∧
      ((ok = false ∧ WriteRegsRun s.cfg s.cfg.regAlarm1
          [bcdEncode s.cfg.alarmSecond.toNat, s.cfg.alarmMask, s.cfg.alarmMask, s.cfg.alarmMask] evs ph false) ∨
        ∃ e1 e2, evs = e1 ++ e2 ∧ WriteRegsRun s.cfg s.cfg.regAlarm1
          [bcdEncode s.cfg.alarmSecond.toNat, s.cfg.alarmMask, s.cfg.alarmMask, s.cfg.alarmMask] e1 .idle true ∧
        ((ok = false ∧ ReadRegsRun s.cfg s.cfg.regControl 1 e2 ph none) ∨
          ∃ (c : Byte) (e3 e4 : List Event), e2 = e3 ++ e4 ∧ ReadRegsRun s.cfg s.cfg.regControl 1 e3 .idle (some [c]) ∧
          ((ok = false ∧ WriteRegsRun s.cfg s.cfg.regControl [c ||| 1#8 <<< s.cfg.a1ieBit.val] e4 ph false) ∨
            ∃ e5 e6, e4 = e5 ++ e6 ∧
              WriteRegsRun s.cfg s.cfg.regControl [c ||| 1#8 <<< s.cfg.a1ieBit.val] e5 .idle true ∧
            ((ok = false ∧ ReadRegsRun s.cfg s.cfg.regStatus 1 e6 ph none) ∨
              ∃ (st : Byte) (e7 e8 : List Event), e6 = e7 ++ e8 ∧
                ReadRegsRun s.cfg s.cfg.regStatus 1 e7 .idle (some [st]) ∧
                WriteRegsRun s.cfg s.cfg.regStatus [st &&& ~~~(1#8 <<< s.cfg.a1fBit.val)] e8 ph ok))))

/-- R180 to R191, R231: the address acknowledgments decide every RTC operation. Against an absent RTC it sends one
address byte, stops (when ABORT_SENDS_STOP), transmits no data byte and answers `ok = 0`. Against a drawn peer that holds
SDA low throughout, so that every acknowledgment and every bit read samples 0, it runs to its end: the bus is IDLE and
unowned, a write answers `ok = 1` and a read the values that zero bytes decode to. -/
def Obligations.AddressAcknowledgmentsDecideEveryRtcOperation : Prop :=
  ∀ (i : Instr) (s : State), touches i = some .rtc → needsIdle i = true → i.wellFormed = true → s.ready .rtc →
    s.phase.get .rtc = .idle →
    (s.env.peers.rtc = .absent → s.cfg.pullupsPresent = true →
      ∃ t, exec i s = .next t ∧
        Completed s t .rtc (addressedStartEvents .rtc s.cfg true false true ++
          if s.cfg.abortSendsStop then stopEvents .rtc s.cfg.tHalf s.cfg.tSettle else [])
          (if s.cfg.abortSendsStop then .idle else .addrSent) (.ok false)) ∧
    (s.env.peers.rtc.isDrawn = true → (∀ k < longest, s.sdaFree .rtc k = false) →
      ∃ t evs, exec i s = .next t ∧ Completed s t .rtc evs .idle (zeroResult i))

/-- R277: the delays of the register framing and of a display refresh that run to their end. -/
def Obligations.AdapterOperationsCountTheirDelays : Prop :=
  ∀ c : Config,
    (∀ reg data evs ph, WriteRegsRun c reg data evs ph true → delays evs = 40 + 18 * data.length) ∧
    (∀ reg n evs ph d, ReadRegsRun c reg n evs ph (some d) → delays evs = 61 + 18 * n ∧ d.length = n) ∧
    ∀ (s : State) (s0 s1 s2 s3 : Byte) (br : BitVec 3), s.ready .disp → s.phase.get .disp = .idle →
      ∃ t, exec (.dispShowFrame s0 s1 s2 s3 br) s = .next t ∧ delays t.trace = delays s.trace + 138

/-! ## The display adapter (45_display.md) -/

/-- R210, R211, R212: SEG_DIGIT answers the table's entry, bit 7 clear, and SEG_SET_DOT the frame with bit 7 of one
position set and every other bit as given. -/
def Obligations.SegmentCommandsBuildFrames : Prop :=
  (∀ (s : State) (d : BitVec 4), configWf s.cfg = true → ∃ m : Byte,
    exec (.segDigit d) s = .next { s with returned := (s.ctx, .byte m) :: s.returned } ∧
    s.cfg.segTable.toList[d.toNat]? = some m ∧ m.getLsbD 7 = false) ∧
  ∀ (s : State) (s0 s1 s2 s3 : Byte) (pos : BitVec 2), ∃ f : Frame,
    exec (.segSetDot s0 s1 s2 s3 pos) s = .next { s with returned := (s.ctx, .frame f) :: s.returned } ∧
    ∀ (k : Fin 4) (j : Nat), j < 8 →
      f[k].getLsbD j = ((#v[s0, s1, s2, s3] : Frame)[k].getLsbD j || (decide (k.val = pos.toNat) && decide (j = 7)))

/-- R213, R216: SEG_NUMBER of 0..9999: each position shows its decimal digit, a leading zero before the units digit is
blank under SUP, and bit 7 of each position is its dot alone, the colon's position included. -/
def Obligations.SegNumberSuppressesLeadingZeros : Prop :=
  ∀ (s : State) (v : BitVec 16) (sup : Bool) (dots : BitVec 4), configWf s.cfg = true → v.toNat ≤ 9999 →
    ∃ f : Frame, exec (.segNumber v sup dots) s = .next { s with returned := (s.ctx, .frame f) :: s.returned } ∧
    ∀ k : Fin 4, f[k].getLsbD 7 = dots.getLsbD k.val ∧
      f[k] &&& 0x7F#8 = if sup = true ∧ k.val < 3 ∧ v.toNat < 10 ^ (3 - k.val) then 0#8
        else s.cfg.segTable[v.toNat / 10 ^ (3 - k.val) % 10]!

/-- R86, R214: DISP_SHOW_FRAME sends exactly three unaddressed transactions on bus 1 whatever is acknowledged, answers
nothing, and leaves the bus IDLE and unowned. -/
def Obligations.DispShowFrameSendsThreeTransactions : Prop :=
  ∀ (s : State) (s0 s1 s2 s3 : Byte) (br : BitVec 3), s.ready .disp → s.phase.get .disp = .idle →
    ∃ t a1 a2 a3, exec (.dispShowFrame s0 s1 s2 s3 br) s = .next t ∧
      a1.length = 1 ∧ a2.length = 5 ∧ a3.length = 1 ∧
      Completed s t .disp
        ((startEvents .disp s.cfg.tHalf true ++ burstEvents .disp s.cfg.tHalf ([0x40].zip a1) ++
            stopEvents .disp s.cfg.tHalf s.cfg.tSettle) ++
          (startEvents .disp s.cfg.tHalf true ++ burstEvents .disp s.cfg.tHalf ([0xC0, s0, s1, s2, s3].zip a2) ++
            stopEvents .disp s.cfg.tHalf s.cfg.tSettle) ++
          (startEvents .disp s.cfg.tHalf true ++
            burstEvents .disp s.cfg.tHalf ([BitVec.ofNat 8 (0x88 + br.toNat)].zip a3) ++
            stopEvents .disp s.cfg.tHalf s.cfg.tSettle)) .idle .nothing

/-! ## The notification (60_exceptions.md section 3) -/

/-- R244, R245: HANDLER starts only where the notification is pending, the mask is clear and HANDLER is not running; the
entry takes HANDLER's commands from its host and leaves the mask. Without an expected RTC, a pending notification stays
pending, masked or not, through every command but RTC_ACK_ALARM and RTC_ARM_ALARM (which ends in it), and ceases only
with a step that returns 1 (when it may cease is the model's reading: log entry 12). -/
def Obligations.TheNotificationFiresOnlyWhenAllowed : Prop :=
  (∀ s t : State, step s = .next t → s.handlerRunning = false → t.handlerRunning = true →
    s.masked = false ∧ t.masked = false ∧ t.pending = true ∧ t.handlerTodo = s.activations.headD [] ∧
      t.activations = s.activations.tail ∧ t.returned = s.returned) ∧
  (∀ (i : Instr) (s t : State), (∀ d, s.env.peers.rtc ≠ .rtc d) → s.pending = true → i ≠ .rtcAckAlarm →
    i ≠ .rtcArmAlarm → exec i s = .next t → t.pending = true) ∧
  (∀ (j : Job) (s : State), (∀ d, s.env.peers.rtc ≠ .rtc d) → s.pending = true → j.instr ≠ .rtcAckAlarm →
    j.instr ≠ .rtcArmAlarm → (resume j s).pending = true) ∧
  ∀ s t : State, (∀ d, s.env.peers.rtc ≠ .rtc d) → s.pending = true → step s = .next t → t.pending = false →
    t.returned = (s.ctx, .ok true) :: s.returned

/-- R37, R245: a notification that fires before a command's first micro-step changes nothing of the block: the command is
in progress at its start, its bus claimed, and HANDLER runs; to go on from there is to run the command from its start.
A step with a command in progress goes on with the rest of its sequence after the answers it has had. A BUS_STOP that is
preempted before micro-step `k` has recorded its first `k` events and goes on with the others. The points at which the
notification may fire, and that the phase test is no micro-step, are the model's reading (log entry 13). -/
def Obligations.TheNotificationsEntrySavesNothing : Prop :=
  (∀ (i : Instr) (s : State) (b : Bus) (p : Prog), bodyOf s.cfg i = some (b, p) → i.wellFormed = true → s.mayUse b →
    (needsTransaction i = true → s.phase.get b ≠ .idle) → (needsIdle i = true → s.phase.get b = .idle) →
    s.envMove.fires = true →
    (∃ t, exec i s = .next t ∧ t.mainJob = some { instr := i, trail := startTrail (s.phase.get b) p } ∧
      t.handlerRunning = true ∧ t.pins = s.pins ∧ t.phase = s.phase ∧ t.owner = s.owner.set b .main ∧
      t.trace = s.trace ∧ t.fault = s.fault ∧ t.masked = s.masked ∧ t.mainTodo = s.mainTodo ∧ t.returned = s.returned ∧
      t.handlerTodo = s.activations.headD []) ∧
    ∀ u : State, u.phase.get b = s.phase.get b →
      run i b (p.after (startTrail (s.phase.get b) p)) (startTrail (s.phase.get b) p).reverse u = run i b p [] u) ∧
  (∀ (s : State) (j : Job) (b : Bus) (p : Prog), bodyOf s.cfg j.instr = some (b, p) → s.fault = none →
    (s.handlerRunning = false → s.envMove.fires = false → s.mainJob = some j →
      step s = .next (run j.instr b (p.after j.trail) j.trail.reverse { s.envMove with mainJob := none })) ∧
    (s.handlerRunning = true → s.handlerJob = some j →
      step s = .next (run j.instr b (p.after j.trail) j.trail.reverse { s.envMove with handlerJob := none }))) ∧
  (∀ (s : State) (b : Bus) (k : Nat), k ≤ 7 → configWf s.cfg = true → s.pinsWf → s.mayUse b → s.phase.get b ≠ .idle →
    s.masked = false → s.handlerRunning = false → (∀ d, s.env.peers.rtc ≠ .rtc d) → s.pending = true →
    (3 < k → s.sclFree b 3 = true) → (∀ j < k, (s.env.moveAt j).fire = false) → (s.env.moveAt k).fire = true →
    ∃ t, exec (.busStop b) s = .next t ∧
      t.mainJob = some { instr := .busStop b, trail := List.replicate k true } ∧ t.handlerRunning = true ∧
      t.trace = s.trace ++ (stopEvents b s.cfg.tHalf s.cfg.tSettle).take k ∧ t.phase = s.phase ∧
      t.owner = s.owner.set b .main ∧ t.returned = s.returned) ∧
  ∀ (s : State) (b : Bus) (k : Nat), k ≤ 7 → s.ready b → s.owner.get b = s.ctx.owner → s.phase.get b ≠ .idle →
    (3 ≤ k → s.drivesLow b .scl = false) →
    Completed s.clearJob (resume { instr := .busStop b, trail := List.replicate k true } s) b
      ((stopEvents b s.cfg.tHalf s.cfg.tSettle).drop k) .idle .nothing

/-- R245: HANDLER is never preempted and does not nest: while it runs MAIN's side and the later activations stand still,
and it ends exactly when it has issued its last command and that command has returned. -/
def Obligations.HandlerRunsToItsEndAndMainStandsStill : Prop :=
  ∀ s t : State, s.handlerRunning = true → step s = .next t →
    t.mainJob = s.mainJob ∧ t.mainTodo = s.mainTodo ∧ t.activations = s.activations ∧ t.masked = s.masked ∧
      (t.handlerRunning = false ↔ s.handlerJob = none ∧ s.handlerTodo = [])

/-! ## Isolation -/

/-- R31, R32, R58: a command on one bus leaves the other bus as it was: phase, owner, pins and any peer without a clock of
its own; as it begins and when it is gone on with, and however it ends. -/
def Obligations.CommandsLeaveTheOtherBusAlone : Prop :=
  ∀ (i : Instr) (s : State) (b b' : Bus), configWf s.cfg = true → touches i = some b → b' ≠ b →
    (∀ t, exec i s = .next t → SameBus s t b') ∧ ∀ trail, SameBus s (resume { instr := i, trail := trail } s) b'

/-- R21: beside PIN_SET_MODE and PIN_WRITE only the line driver writes pins, and only those of its own bus; it never sets
a latch. So does a command as it begins and when it is gone on with. -/
def Obligations.OnlyPinCommandsWriteOtherPins : Prop :=
  ∀ (i : Instr) (s : State), configWf s.cfg = true → s.pinsWf → (∀ p v, i ≠ .pinSetMode p v ∧ i ≠ .pinWrite p v) →
    (∀ t, exec i s = .next t → PinsOfItsBusAlone i s t) ∧
    ∀ trail, PinsOfItsBusAlone i s (resume { instr := i, trail := trail } s)
end

