-- ==== Sys2Proof/Laws/Sparse.lean ====
section
/-! SUPPORT. The laws of sparse stores: a read after a write, the canonical form kept by every write, and equal
canonical stores being equal data. -/

namespace Sys2Proof.Machine

variable {α : Type} [DecidableEq α] {d : α}

theorem Sparse.above_mono {lo lo' : Nat} {m : Sparse α} (h : Sparse.above d lo m = true) (hle : lo' ≤ lo) :
    Sparse.above d lo' m = true := by
  cases m with
  | nil => rfl
  | cons e rest =>
    simp only [Sparse.above, Bool.and_eq_true, decide_eq_true_eq] at h ⊢
    exact ⟨⟨by omega, h.1.2⟩, h.2⟩

/-- A key below every listed key reads as the default. -/
theorem Sparse.get_of_above {lo k : Nat} {m : Sparse α} (h : Sparse.above d lo m = true) (hk : k < lo) :
    Sparse.get d m k = d := by
  induction m generalizing lo with
  | nil => rfl
  | cons e rest ih =>
    simp only [Sparse.above, Bool.and_eq_true, decide_eq_true_eq] at h
    simp only [Sparse.get]
    rw [if_neg (by omega)]
    exact ih h.2 (by omega)

/-- A write keeps the keys above a bound that the written key respects. -/
theorem Sparse.above_set {lo k : Nat} {v : α} {m : Sparse α} (h : Sparse.above d lo m = true) (hk : lo ≤ k) :
    Sparse.above d lo (Sparse.set d m k v) = true := by
  induction m generalizing lo with
  | nil => by_cases hv : v = d <;> simp [Sparse.set, Sparse.above, hv, hk]
  | cons e rest ih =>
    obtain ⟨k', v'⟩ := e
    simp only [Sparse.above, Bool.and_eq_true, decide_eq_true_eq] at h
    simp only [Sparse.set]
    split
    · split
      · simp [Sparse.above, h.1.1, h.1.2, h.2]
      · rename_i hlt hv
        simp [Sparse.above, hk, hv, h.1.2, h.2]
        omega
    · split
      · split
        · exact Sparse.above_mono h.2 (by omega)
        · rename_i heq hv
          subst heq
          simp [Sparse.above, hk, hv, h.2]
      · simp [Sparse.above, h.1.1, h.1.2, ih h.2 (by omega)]

/-- Every write keeps the canonical form. -/
theorem Sparse.wf_set {k : Nat} {v : α} {m : Sparse α} (h : Sparse.wf d m = true) :
    Sparse.wf d (Sparse.set d m k v) = true := Sparse.above_set h (Nat.zero_le k)

/-- A read after a write to the same key of a canonical store gives the value written. -/
theorem Sparse.get_set_self {k : Nat} {v : α} {lo : Nat} {m : Sparse α} (h : Sparse.above d lo m = true) :
    Sparse.get d (Sparse.set d m k v) k = v := by
  induction m generalizing lo with
  | nil => by_cases hv : v = d <;> simp [Sparse.set, Sparse.get, hv]
  | cons e rest ih =>
    obtain ⟨k', v'⟩ := e
    simp only [Sparse.above, Bool.and_eq_true, decide_eq_true_eq] at h
    simp only [Sparse.set]
    split
    · split
      · rename_i hlt hv
        simp only [Sparse.get, hv]
        rw [if_neg (by omega)]
        exact Sparse.get_of_above h.2 (by omega)
      · simp [Sparse.get]
    · split
      · rename_i heq
        split
        · rename_i hv
          rw [hv]
          exact Sparse.get_of_above h.2 (by omega)
        · simp [Sparse.get]
      · rename_i hne
        simp only [Sparse.get]
        rw [if_neg (fun hh => hne hh.symm)]
        exact ih h.2

/-- A write leaves every other key as it was. -/
theorem Sparse.get_set_ne {k k' : Nat} {v : α} {m : Sparse α} (hne : k' ≠ k) :
    Sparse.get d (Sparse.set d m k v) k' = Sparse.get d m k' := by
  induction m with
  | nil =>
    simp only [Sparse.set]
    split
    · rfl
    · simp [Sparse.get, hne.symm]
  | cons e rest ih =>
    obtain ⟨k'', v''⟩ := e
    simp only [Sparse.set]
    split
    · split
      · rfl
      · simp [Sparse.get, hne.symm]
    · split
      · rename_i heq
        split
        · simp [Sparse.get, ← heq, hne.symm]
        · simp [Sparse.get, ← heq, hne.symm]
      · simp only [Sparse.get, ih]

/-- Whatever a write lists beside its own key was listed before. -/
theorem Sparse.mem_set {k : Nat} {v : α} {m : Sparse α} {e : Nat × α} (h : e ∈ Sparse.set d m k v) :
    e = (k, v) ∨ e ∈ m := by
  induction m with
  | nil =>
    simp only [Sparse.set] at h
    split at h <;> simp_all
  | cons e' rest ih =>
    obtain ⟨k', v'⟩ := e'
    simp only [Sparse.set] at h
    split at h
    · split at h
      · exact .inr h
      · simpa using h
    · split at h
      · split at h
        · exact .inr (List.mem_cons_of_mem _ h)
        · rcases List.mem_cons.1 h with h | h
          · exact .inl h
          · exact .inr (List.mem_cons_of_mem _ h)
      · rcases List.mem_cons.1 h with h | h
        · exact .inr (h ▸ List.mem_cons_self)
        · exact (ih h).imp id (List.mem_cons_of_mem _)

/-- Equal canonical stores are equal data. -/
theorem Sparse.ext_of_get {lo : Nat} {m m' : Sparse α} (h : Sparse.above d lo m = true)
    (h' : Sparse.above d lo m' = true) (hget : ∀ k, Sparse.get d m k = Sparse.get d m' k) : m = m' := by
  induction m generalizing lo m' with
  | nil =>
    cases m' with
    | nil => rfl
    | cons e rest =>
      simp only [Sparse.above, Bool.and_eq_true, decide_eq_true_eq] at h'
      have := hget e.1
      simp [Sparse.get] at this
      exact absurd this.symm h'.1.2
  | cons e rest ih =>
    simp only [Sparse.above, Bool.and_eq_true, decide_eq_true_eq] at h
    cases m' with
    | nil =>
      have := hget e.1
      simp [Sparse.get] at this
      exact absurd this h.1.2
    | cons e' rest' =>
      simp only [Sparse.above, Bool.and_eq_true, decide_eq_true_eq] at h'
      have hk : e.1 = e'.1 := by
        rcases Nat.lt_trichotomy e.1 e'.1 with hlt | heq | hlt
        · have := hget e.1
          simp only [Sparse.get, if_true] at this
          rw [if_neg (by omega), Sparse.get_of_above h'.2 (by omega)] at this
          exact absurd this h.1.2
        · exact heq
        · have := hget e'.1
          simp only [Sparse.get, if_true] at this
          rw [if_neg (by omega), Sparse.get_of_above h.2 (by omega)] at this
          exact absurd this.symm h'.1.2
      have hv : e.2 = e'.2 := by simpa [Sparse.get, hk] using hget e.1
      have hrest : rest = rest' := by
        refine ih h.2 (hk ▸ h'.2) fun k => ?_
        by_cases hke : k ≤ e.1
        · rw [Sparse.get_of_above h.2 (by omega), Sparse.get_of_above h'.2 (by omega)]
        · have := hget k
          simp only [Sparse.get] at this
          rwa [if_neg (by omega), if_neg (by omega)] at this
      obtain ⟨k, v⟩ := e
      obtain ⟨k', v'⟩ := e'
      simp_all

/-- Every memory write keeps the canonical form. -/
theorem Memory.wf_write {m : Memory} (a v : Byte) (h : m.wf = true) : (m.write a v).wf = true := Sparse.wf_set h

/-- A read after a write to the same address. -/
theorem Memory.read_write_self {m : Memory} (a v : Byte) (h : m.wf = true) : (m.write a v).read a = v :=
  Sparse.get_set_self h

/-- A write leaves every other address as it was. -/
theorem Memory.read_write_ne {m : Memory} {a a' : Byte} (v : Byte) (hne : a' ≠ a) :
    (m.write a v).read a' = m.read a' :=
  Sparse.get_set_ne fun h => hne (BitVec.eq_of_toNat_eq h)

end Sys2Proof.Machine
end

