-- ==== Sys2Proof/Laws/State.lean ====
section
/-! SUPPORT. What each named update of the state does to each field, so that no proof unfolds a record update; and the
laws of `PerBus`, pins, lines and levels under them. -/

namespace Sys2Proof

@[simp] theorem PerBus.get_set_self {α : Type} (x : PerBus α) (b : Bus) (v : α) : (x.set b v).get b = v := by
  cases b <;> rfl

theorem PerBus.get_set_ne {α : Type} (x : PerBus α) {b b' : Bus} (v : α) (h : b' ≠ b) : (x.set b v).get b' = x.get b' := by
  cases b <;> cases b' <;> first | rfl | exact absurd rfl h

@[simp] theorem PerBus.set_set {α : Type} (x : PerBus α) (b : Bus) (v w : α) : (x.set b v).set b w = x.set b w := by
  cases b <;> rfl

@[simp] theorem PerBus.set_get_self {α : Type} (x : PerBus α) (b : Bus) : x.set b (x.get b) = x := by
  cases b <;> rfl

end Sys2Proof

namespace Sys2Proof.Machine

variable (s : State)

@[simp] theorem State.setPin_cfg (p : Byte) (v : PinState) : (s.setPin p v).cfg = s.cfg := rfl
@[simp] theorem State.setPin_pins (p : Byte) (v : PinState) : (s.setPin p v).pins = Sparse.set PinState.reset s.pins p.toNat v := rfl
@[simp] theorem State.setPin_phase (p : Byte) (v : PinState) : (s.setPin p v).phase = s.phase := rfl
@[simp] theorem State.setPin_owner (p : Byte) (v : PinState) : (s.setPin p v).owner = s.owner := rfl
@[simp] theorem State.setPin_traceRev (p : Byte) (v : PinState) : (s.setPin p v).traceRev = s.traceRev := rfl
@[simp] theorem State.setPin_fault (p : Byte) (v : PinState) : (s.setPin p v).fault = s.fault := rfl
@[simp] theorem State.setPin_refusal (p : Byte) (v : PinState) : (s.setPin p v).refusal = s.refusal := rfl
@[simp] theorem State.setPin_masked (p : Byte) (v : PinState) : (s.setPin p v).masked = s.masked := rfl
@[simp] theorem State.setPin_handlerRunning (p : Byte) (v : PinState) : (s.setPin p v).handlerRunning = s.handlerRunning := rfl
@[simp] theorem State.setPin_mainJob (p : Byte) (v : PinState) : (s.setPin p v).mainJob = s.mainJob := rfl
@[simp] theorem State.setPin_handlerJob (p : Byte) (v : PinState) : (s.setPin p v).handlerJob = s.handlerJob := rfl
@[simp] theorem State.setPin_mainTodo (p : Byte) (v : PinState) : (s.setPin p v).mainTodo = s.mainTodo := rfl
@[simp] theorem State.setPin_handlerTodo (p : Byte) (v : PinState) : (s.setPin p v).handlerTodo = s.handlerTodo := rfl
@[simp] theorem State.setPin_activations (p : Byte) (v : PinState) : (s.setPin p v).activations = s.activations := rfl
@[simp] theorem State.setPin_returned (p : Byte) (v : PinState) : (s.setPin p v).returned = s.returned := rfl
@[simp] theorem State.setPin_env (p : Byte) (v : PinState) : (s.setPin p v).env = s.env := rfl

@[simp] theorem State.record_cfg (e : Event) : (s.record e).cfg = s.cfg := rfl
@[simp] theorem State.record_pins (e : Event) : (s.record e).pins = s.pins := rfl
@[simp] theorem State.record_phase (e : Event) : (s.record e).phase = s.phase := rfl
@[simp] theorem State.record_owner (e : Event) : (s.record e).owner = s.owner := rfl
@[simp] theorem State.record_traceRev (e : Event) : (s.record e).traceRev = e :: s.traceRev := rfl
@[simp] theorem State.record_fault (e : Event) : (s.record e).fault = s.fault := rfl
@[simp] theorem State.record_refusal (e : Event) : (s.record e).refusal = s.refusal := rfl
@[simp] theorem State.record_masked (e : Event) : (s.record e).masked = s.masked := rfl
@[simp] theorem State.record_handlerRunning (e : Event) : (s.record e).handlerRunning = s.handlerRunning := rfl
@[simp] theorem State.record_mainJob (e : Event) : (s.record e).mainJob = s.mainJob := rfl
@[simp] theorem State.record_handlerJob (e : Event) : (s.record e).handlerJob = s.handlerJob := rfl
@[simp] theorem State.record_mainTodo (e : Event) : (s.record e).mainTodo = s.mainTodo := rfl
@[simp] theorem State.record_handlerTodo (e : Event) : (s.record e).handlerTodo = s.handlerTodo := rfl
@[simp] theorem State.record_activations (e : Event) : (s.record e).activations = s.activations := rfl
@[simp] theorem State.record_returned (e : Event) : (s.record e).returned = s.returned := rfl
@[simp] theorem State.record_env (e : Event) : (s.record e).env = s.env := rfl

@[simp] theorem State.setPhase_cfg (b : Bus) (p : Phase) : (s.setPhase b p).cfg = s.cfg := rfl
@[simp] theorem State.setPhase_pins (b : Bus) (p : Phase) : (s.setPhase b p).pins = s.pins := rfl
@[simp] theorem State.setPhase_phase (b : Bus) (p : Phase) : (s.setPhase b p).phase = s.phase.set b p := rfl
@[simp] theorem State.setPhase_owner (b : Bus) (p : Phase) : (s.setPhase b p).owner = s.owner := rfl
@[simp] theorem State.setPhase_traceRev (b : Bus) (p : Phase) : (s.setPhase b p).traceRev = s.traceRev := rfl
@[simp] theorem State.setPhase_fault (b : Bus) (p : Phase) : (s.setPhase b p).fault = s.fault := rfl
@[simp] theorem State.setPhase_refusal (b : Bus) (p : Phase) : (s.setPhase b p).refusal = s.refusal := rfl
@[simp] theorem State.setPhase_masked (b : Bus) (p : Phase) : (s.setPhase b p).masked = s.masked := rfl
@[simp] theorem State.setPhase_handlerRunning (b : Bus) (p : Phase) : (s.setPhase b p).handlerRunning = s.handlerRunning := rfl
@[simp] theorem State.setPhase_mainJob (b : Bus) (p : Phase) : (s.setPhase b p).mainJob = s.mainJob := rfl
@[simp] theorem State.setPhase_handlerJob (b : Bus) (p : Phase) : (s.setPhase b p).handlerJob = s.handlerJob := rfl
@[simp] theorem State.setPhase_mainTodo (b : Bus) (p : Phase) : (s.setPhase b p).mainTodo = s.mainTodo := rfl
@[simp] theorem State.setPhase_handlerTodo (b : Bus) (p : Phase) : (s.setPhase b p).handlerTodo = s.handlerTodo := rfl
@[simp] theorem State.setPhase_activations (b : Bus) (p : Phase) : (s.setPhase b p).activations = s.activations := rfl
@[simp] theorem State.setPhase_returned (b : Bus) (p : Phase) : (s.setPhase b p).returned = s.returned := rfl
@[simp] theorem State.setPhase_env (b : Bus) (p : Phase) : (s.setPhase b p).env = s.env := rfl

@[simp] theorem State.setOwner_cfg (b : Bus) (o : Owner) : (s.setOwner b o).cfg = s.cfg := rfl
@[simp] theorem State.setOwner_pins (b : Bus) (o : Owner) : (s.setOwner b o).pins = s.pins := rfl
@[simp] theorem State.setOwner_phase (b : Bus) (o : Owner) : (s.setOwner b o).phase = s.phase := rfl
@[simp] theorem State.setOwner_owner (b : Bus) (o : Owner) : (s.setOwner b o).owner = s.owner.set b o := rfl
@[simp] theorem State.setOwner_traceRev (b : Bus) (o : Owner) : (s.setOwner b o).traceRev = s.traceRev := rfl
@[simp] theorem State.setOwner_fault (b : Bus) (o : Owner) : (s.setOwner b o).fault = s.fault := rfl
@[simp] theorem State.setOwner_refusal (b : Bus) (o : Owner) : (s.setOwner b o).refusal = s.refusal := rfl
@[simp] theorem State.setOwner_masked (b : Bus) (o : Owner) : (s.setOwner b o).masked = s.masked := rfl
@[simp] theorem State.setOwner_handlerRunning (b : Bus) (o : Owner) : (s.setOwner b o).handlerRunning = s.handlerRunning := rfl
@[simp] theorem State.setOwner_mainJob (b : Bus) (o : Owner) : (s.setOwner b o).mainJob = s.mainJob := rfl
@[simp] theorem State.setOwner_handlerJob (b : Bus) (o : Owner) : (s.setOwner b o).handlerJob = s.handlerJob := rfl
@[simp] theorem State.setOwner_mainTodo (b : Bus) (o : Owner) : (s.setOwner b o).mainTodo = s.mainTodo := rfl
@[simp] theorem State.setOwner_handlerTodo (b : Bus) (o : Owner) : (s.setOwner b o).handlerTodo = s.handlerTodo := rfl
@[simp] theorem State.setOwner_activations (b : Bus) (o : Owner) : (s.setOwner b o).activations = s.activations := rfl
@[simp] theorem State.setOwner_returned (b : Bus) (o : Owner) : (s.setOwner b o).returned = s.returned := rfl
@[simp] theorem State.setOwner_env (b : Bus) (o : Owner) : (s.setOwner b o).env = s.env := rfl

@[simp] theorem State.give_cfg (r : Result) : (s.give r).cfg = s.cfg := rfl
@[simp] theorem State.give_pins (r : Result) : (s.give r).pins = s.pins := rfl
@[simp] theorem State.give_phase (r : Result) : (s.give r).phase = s.phase := rfl
@[simp] theorem State.give_owner (r : Result) : (s.give r).owner = s.owner := rfl
@[simp] theorem State.give_traceRev (r : Result) : (s.give r).traceRev = s.traceRev := rfl
@[simp] theorem State.give_fault (r : Result) : (s.give r).fault = s.fault := rfl
@[simp] theorem State.give_refusal (r : Result) : (s.give r).refusal = s.refusal := rfl
@[simp] theorem State.give_masked (r : Result) : (s.give r).masked = s.masked := rfl
@[simp] theorem State.give_handlerRunning (r : Result) : (s.give r).handlerRunning = s.handlerRunning := rfl
@[simp] theorem State.give_mainJob (r : Result) : (s.give r).mainJob = s.mainJob := rfl
@[simp] theorem State.give_handlerJob (r : Result) : (s.give r).handlerJob = s.handlerJob := rfl
@[simp] theorem State.give_mainTodo (r : Result) : (s.give r).mainTodo = s.mainTodo := rfl
@[simp] theorem State.give_handlerTodo (r : Result) : (s.give r).handlerTodo = s.handlerTodo := rfl
@[simp] theorem State.give_activations (r : Result) : (s.give r).activations = s.activations := rfl
@[simp] theorem State.give_returned (r : Result) : (s.give r).returned = (s.ctx, r) :: s.returned := rfl
@[simp] theorem State.give_env (r : Result) : (s.give r).env = s.env := rfl

@[simp] theorem State.raise_cfg (f : Fault) : (s.raise f).cfg = s.cfg := rfl
@[simp] theorem State.raise_pins (f : Fault) : (s.raise f).pins = s.pins := rfl
@[simp] theorem State.raise_phase (f : Fault) : (s.raise f).phase = s.phase := rfl
@[simp] theorem State.raise_owner (f : Fault) : (s.raise f).owner = s.owner := rfl
@[simp] theorem State.raise_traceRev (f : Fault) : (s.raise f).traceRev = s.traceRev := rfl
@[simp] theorem State.raise_fault (f : Fault) : (s.raise f).fault = some f := rfl
@[simp] theorem State.raise_refusal (f : Fault) : (s.raise f).refusal = s.refusal := rfl
@[simp] theorem State.raise_masked (f : Fault) : (s.raise f).masked = s.masked := rfl
@[simp] theorem State.raise_handlerRunning (f : Fault) : (s.raise f).handlerRunning = s.handlerRunning := rfl
@[simp] theorem State.raise_mainJob (f : Fault) : (s.raise f).mainJob = s.mainJob := rfl
@[simp] theorem State.raise_handlerJob (f : Fault) : (s.raise f).handlerJob = s.handlerJob := rfl
@[simp] theorem State.raise_mainTodo (f : Fault) : (s.raise f).mainTodo = s.mainTodo := rfl
@[simp] theorem State.raise_handlerTodo (f : Fault) : (s.raise f).handlerTodo = s.handlerTodo := rfl
@[simp] theorem State.raise_activations (f : Fault) : (s.raise f).activations = s.activations := rfl
@[simp] theorem State.raise_returned (f : Fault) : (s.raise f).returned = s.returned := rfl
@[simp] theorem State.raise_env (f : Fault) : (s.raise f).env = s.env := rfl

@[simp] theorem State.mark_cfg (r : RefuseReason) : (s.mark r).cfg = s.cfg := rfl
@[simp] theorem State.mark_pins (r : RefuseReason) : (s.mark r).pins = s.pins := rfl
@[simp] theorem State.mark_phase (r : RefuseReason) : (s.mark r).phase = s.phase := rfl
@[simp] theorem State.mark_owner (r : RefuseReason) : (s.mark r).owner = s.owner := rfl
@[simp] theorem State.mark_traceRev (r : RefuseReason) : (s.mark r).traceRev = s.traceRev := rfl
@[simp] theorem State.mark_fault (r : RefuseReason) : (s.mark r).fault = s.fault := rfl
@[simp] theorem State.mark_refusal (r : RefuseReason) : (s.mark r).refusal = some r := rfl
@[simp] theorem State.mark_masked (r : RefuseReason) : (s.mark r).masked = s.masked := rfl
@[simp] theorem State.mark_handlerRunning (r : RefuseReason) : (s.mark r).handlerRunning = s.handlerRunning := rfl
@[simp] theorem State.mark_mainJob (r : RefuseReason) : (s.mark r).mainJob = s.mainJob := rfl
@[simp] theorem State.mark_handlerJob (r : RefuseReason) : (s.mark r).handlerJob = s.handlerJob := rfl
@[simp] theorem State.mark_mainTodo (r : RefuseReason) : (s.mark r).mainTodo = s.mainTodo := rfl
@[simp] theorem State.mark_handlerTodo (r : RefuseReason) : (s.mark r).handlerTodo = s.handlerTodo := rfl
@[simp] theorem State.mark_activations (r : RefuseReason) : (s.mark r).activations = s.activations := rfl
@[simp] theorem State.mark_returned (r : RefuseReason) : (s.mark r).returned = s.returned := rfl
@[simp] theorem State.mark_env (r : RefuseReason) : (s.mark r).env = s.env := rfl

@[simp] theorem State.suspend_cfg (j : Job) : (s.suspend j).cfg = s.cfg := rfl
@[simp] theorem State.suspend_pins (j : Job) : (s.suspend j).pins = s.pins := rfl
@[simp] theorem State.suspend_phase (j : Job) : (s.suspend j).phase = s.phase := rfl
@[simp] theorem State.suspend_owner (j : Job) : (s.suspend j).owner = s.owner := rfl
@[simp] theorem State.suspend_traceRev (j : Job) : (s.suspend j).traceRev = s.traceRev := rfl
@[simp] theorem State.suspend_fault (j : Job) : (s.suspend j).fault = s.fault := rfl
@[simp] theorem State.suspend_refusal (j : Job) : (s.suspend j).refusal = s.refusal := rfl
@[simp] theorem State.suspend_masked (j : Job) : (s.suspend j).masked = s.masked := rfl
@[simp] theorem State.suspend_handlerRunning (j : Job) : (s.suspend j).handlerRunning = s.handlerRunning := rfl
@[simp] theorem State.suspend_mainJob (j : Job) : (s.suspend j).mainJob = bif s.handlerRunning then s.mainJob else some j := rfl
@[simp] theorem State.suspend_handlerJob (j : Job) : (s.suspend j).handlerJob = bif s.handlerRunning then some j else s.handlerJob := rfl
@[simp] theorem State.suspend_mainTodo (j : Job) : (s.suspend j).mainTodo = s.mainTodo := rfl
@[simp] theorem State.suspend_handlerTodo (j : Job) : (s.suspend j).handlerTodo = s.handlerTodo := rfl
@[simp] theorem State.suspend_activations (j : Job) : (s.suspend j).activations = s.activations := rfl
@[simp] theorem State.suspend_returned (j : Job) : (s.suspend j).returned = s.returned := rfl
@[simp] theorem State.suspend_env (j : Job) : (s.suspend j).env = s.env := rfl

@[simp] theorem State.clearJob_cfg : (s.clearJob).cfg = s.cfg := rfl
@[simp] theorem State.clearJob_pins : (s.clearJob).pins = s.pins := rfl
@[simp] theorem State.clearJob_phase : (s.clearJob).phase = s.phase := rfl
@[simp] theorem State.clearJob_owner : (s.clearJob).owner = s.owner := rfl
@[simp] theorem State.clearJob_traceRev : (s.clearJob).traceRev = s.traceRev := rfl
@[simp] theorem State.clearJob_fault : (s.clearJob).fault = s.fault := rfl
@[simp] theorem State.clearJob_refusal : (s.clearJob).refusal = s.refusal := rfl
@[simp] theorem State.clearJob_masked : (s.clearJob).masked = s.masked := rfl
@[simp] theorem State.clearJob_handlerRunning : (s.clearJob).handlerRunning = s.handlerRunning := rfl
@[simp] theorem State.clearJob_mainJob : (s.clearJob).mainJob = bif s.handlerRunning then s.mainJob else none := rfl
@[simp] theorem State.clearJob_handlerJob : (s.clearJob).handlerJob = bif s.handlerRunning then none else s.handlerJob := rfl
@[simp] theorem State.clearJob_mainTodo : (s.clearJob).mainTodo = s.mainTodo := rfl
@[simp] theorem State.clearJob_handlerTodo : (s.clearJob).handlerTodo = s.handlerTodo := rfl
@[simp] theorem State.clearJob_activations : (s.clearJob).activations = s.activations := rfl
@[simp] theorem State.clearJob_returned : (s.clearJob).returned = s.returned := rfl
@[simp] theorem State.clearJob_env : (s.clearJob).env = s.env := rfl

@[simp] theorem State.observe_cfg (b : Bus) : (s.observe b).cfg = s.cfg := rfl
@[simp] theorem State.observe_pins (b : Bus) : (s.observe b).pins = s.pins := rfl
@[simp] theorem State.observe_phase (b : Bus) : (s.observe b).phase = s.phase := rfl
@[simp] theorem State.observe_owner (b : Bus) : (s.observe b).owner = s.owner := rfl
@[simp] theorem State.observe_traceRev (b : Bus) : (s.observe b).traceRev = s.traceRev := rfl
@[simp] theorem State.observe_fault (b : Bus) : (s.observe b).fault = s.fault := rfl
@[simp] theorem State.observe_refusal (b : Bus) : (s.observe b).refusal = s.refusal := rfl
@[simp] theorem State.observe_masked (b : Bus) : (s.observe b).masked = s.masked := rfl
@[simp] theorem State.observe_handlerRunning (b : Bus) : (s.observe b).handlerRunning = s.handlerRunning := rfl
@[simp] theorem State.observe_mainJob (b : Bus) : (s.observe b).mainJob = s.mainJob := rfl
@[simp] theorem State.observe_handlerJob (b : Bus) : (s.observe b).handlerJob = s.handlerJob := rfl
@[simp] theorem State.observe_mainTodo (b : Bus) : (s.observe b).mainTodo = s.mainTodo := rfl
@[simp] theorem State.observe_handlerTodo (b : Bus) : (s.observe b).handlerTodo = s.handlerTodo := rfl
@[simp] theorem State.observe_activations (b : Bus) : (s.observe b).activations = s.activations := rfl
@[simp] theorem State.observe_returned (b : Bus) : (s.observe b).returned = s.returned := rfl

@[simp] theorem State.envMove_cfg : s.envMove.cfg = s.cfg := rfl
@[simp] theorem State.envMove_pins : s.envMove.pins = s.pins := rfl
@[simp] theorem State.envMove_phase : s.envMove.phase = s.phase := rfl
@[simp] theorem State.envMove_owner : s.envMove.owner = s.owner := rfl
@[simp] theorem State.envMove_traceRev : s.envMove.traceRev = s.traceRev := rfl
@[simp] theorem State.envMove_fault : s.envMove.fault = s.fault := rfl
@[simp] theorem State.envMove_refusal : s.envMove.refusal = s.refusal := rfl
@[simp] theorem State.envMove_masked : s.envMove.masked = s.masked := rfl
@[simp] theorem State.envMove_handlerRunning : s.envMove.handlerRunning = s.handlerRunning := rfl
@[simp] theorem State.envMove_mainJob : s.envMove.mainJob = s.mainJob := rfl
@[simp] theorem State.envMove_handlerJob : s.envMove.handlerJob = s.handlerJob := rfl
@[simp] theorem State.envMove_mainTodo : s.envMove.mainTodo = s.mainTodo := rfl
@[simp] theorem State.envMove_handlerTodo : s.envMove.handlerTodo = s.handlerTodo := rfl
@[simp] theorem State.envMove_activations : s.envMove.activations = s.activations := rfl
@[simp] theorem State.envMove_returned : s.envMove.returned = s.returned := rfl
@[simp] theorem State.envMove_env : s.envMove.env = s.env.advance s.cfg := rfl

@[simp] theorem State.startHandler_cfg : (s.startHandler).cfg = s.cfg := rfl
@[simp] theorem State.startHandler_pins : (s.startHandler).pins = s.pins := rfl
@[simp] theorem State.startHandler_phase : (s.startHandler).phase = s.phase := rfl
@[simp] theorem State.startHandler_owner : (s.startHandler).owner = s.owner := rfl
@[simp] theorem State.startHandler_traceRev : (s.startHandler).traceRev = s.traceRev := rfl
@[simp] theorem State.startHandler_fault : (s.startHandler).fault = s.fault := rfl
@[simp] theorem State.startHandler_refusal : (s.startHandler).refusal = s.refusal := rfl
@[simp] theorem State.startHandler_masked : (s.startHandler).masked = s.masked := rfl
@[simp] theorem State.startHandler_handlerRunning : (s.startHandler).handlerRunning = true := rfl
@[simp] theorem State.startHandler_mainJob : (s.startHandler).mainJob = s.mainJob := rfl
@[simp] theorem State.startHandler_handlerJob : (s.startHandler).handlerJob = s.handlerJob := rfl
@[simp] theorem State.startHandler_mainTodo : (s.startHandler).mainTodo = s.mainTodo := rfl
@[simp] theorem State.startHandler_handlerTodo : (s.startHandler).handlerTodo = s.activations.headD [] := rfl
@[simp] theorem State.startHandler_activations : (s.startHandler).activations = s.activations.tail := rfl
@[simp] theorem State.startHandler_returned : (s.startHandler).returned = s.returned := rfl
@[simp] theorem State.startHandler_env : (s.startHandler).env = s.env := rfl

@[simp] theorem State.endHandler_cfg : (s.endHandler).cfg = s.cfg := rfl
@[simp] theorem State.endHandler_pins : (s.endHandler).pins = s.pins := rfl
@[simp] theorem State.endHandler_phase : (s.endHandler).phase = s.phase := rfl
@[simp] theorem State.endHandler_owner : (s.endHandler).owner = s.owner := rfl
@[simp] theorem State.endHandler_traceRev : (s.endHandler).traceRev = s.traceRev := rfl
@[simp] theorem State.endHandler_fault : (s.endHandler).fault = s.fault := rfl
@[simp] theorem State.endHandler_refusal : (s.endHandler).refusal = s.refusal := rfl
@[simp] theorem State.endHandler_masked : (s.endHandler).masked = s.masked := rfl
@[simp] theorem State.endHandler_handlerRunning : (s.endHandler).handlerRunning = false := rfl
@[simp] theorem State.endHandler_mainJob : (s.endHandler).mainJob = s.mainJob := rfl
@[simp] theorem State.endHandler_handlerJob : (s.endHandler).handlerJob = s.handlerJob := rfl
@[simp] theorem State.endHandler_mainTodo : (s.endHandler).mainTodo = s.mainTodo := rfl
@[simp] theorem State.endHandler_handlerTodo : (s.endHandler).handlerTodo = s.handlerTodo := rfl
@[simp] theorem State.endHandler_activations : (s.endHandler).activations = s.activations := rfl
@[simp] theorem State.endHandler_returned : (s.endHandler).returned = s.returned := rfl
@[simp] theorem State.endHandler_env : (s.endHandler).env = s.env := rfl

@[simp] theorem State.driveLow_cfg (b : Bus) (l : Line) : (s.driveLow b l).cfg = s.cfg := rfl
@[simp] theorem State.driveLow_pins (b : Bus) (l : Line) : (s.driveLow b l).pins = Sparse.set PinState.reset s.pins (pinOf s.cfg b l).toNat { mode := .output, latch := false } := rfl
@[simp] theorem State.driveLow_phase (b : Bus) (l : Line) : (s.driveLow b l).phase = s.phase := rfl
@[simp] theorem State.driveLow_owner (b : Bus) (l : Line) : (s.driveLow b l).owner = s.owner := rfl
@[simp] theorem State.driveLow_traceRev (b : Bus) (l : Line) : (s.driveLow b l).traceRev = .driveLow b l :: s.traceRev := rfl
@[simp] theorem State.driveLow_fault (b : Bus) (l : Line) : (s.driveLow b l).fault = s.fault := rfl
@[simp] theorem State.driveLow_refusal (b : Bus) (l : Line) : (s.driveLow b l).refusal = s.refusal := rfl
@[simp] theorem State.driveLow_masked (b : Bus) (l : Line) : (s.driveLow b l).masked = s.masked := rfl
@[simp] theorem State.driveLow_handlerRunning (b : Bus) (l : Line) : (s.driveLow b l).handlerRunning = s.handlerRunning := rfl
@[simp] theorem State.driveLow_mainJob (b : Bus) (l : Line) : (s.driveLow b l).mainJob = s.mainJob := rfl
@[simp] theorem State.driveLow_handlerJob (b : Bus) (l : Line) : (s.driveLow b l).handlerJob = s.handlerJob := rfl
@[simp] theorem State.driveLow_mainTodo (b : Bus) (l : Line) : (s.driveLow b l).mainTodo = s.mainTodo := rfl
@[simp] theorem State.driveLow_handlerTodo (b : Bus) (l : Line) : (s.driveLow b l).handlerTodo = s.handlerTodo := rfl
@[simp] theorem State.driveLow_activations (b : Bus) (l : Line) : (s.driveLow b l).activations = s.activations := rfl
@[simp] theorem State.driveLow_returned (b : Bus) (l : Line) : (s.driveLow b l).returned = s.returned := rfl

@[simp] theorem State.release_cfg (b : Bus) (l : Line) : (s.release b l).cfg = s.cfg := rfl
@[simp] theorem State.release_pins (b : Bus) (l : Line) : (s.release b l).pins = Sparse.set PinState.reset s.pins (pinOf s.cfg b l).toNat { s.pin (pinOf s.cfg b l) with mode := .input } := rfl
@[simp] theorem State.release_phase (b : Bus) (l : Line) : (s.release b l).phase = s.phase := rfl
@[simp] theorem State.release_owner (b : Bus) (l : Line) : (s.release b l).owner = s.owner := rfl
@[simp] theorem State.release_traceRev (b : Bus) (l : Line) : (s.release b l).traceRev = .release b l :: s.traceRev := rfl
@[simp] theorem State.release_fault (b : Bus) (l : Line) : (s.release b l).fault = s.fault := rfl
@[simp] theorem State.release_refusal (b : Bus) (l : Line) : (s.release b l).refusal = s.refusal := rfl
@[simp] theorem State.release_masked (b : Bus) (l : Line) : (s.release b l).masked = s.masked := rfl
@[simp] theorem State.release_handlerRunning (b : Bus) (l : Line) : (s.release b l).handlerRunning = s.handlerRunning := rfl
@[simp] theorem State.release_mainJob (b : Bus) (l : Line) : (s.release b l).mainJob = s.mainJob := rfl
@[simp] theorem State.release_handlerJob (b : Bus) (l : Line) : (s.release b l).handlerJob = s.handlerJob := rfl
@[simp] theorem State.release_mainTodo (b : Bus) (l : Line) : (s.release b l).mainTodo = s.mainTodo := rfl
@[simp] theorem State.release_handlerTodo (b : Bus) (l : Line) : (s.release b l).handlerTodo = s.handlerTodo := rfl
@[simp] theorem State.release_activations (b : Bus) (l : Line) : (s.release b l).activations = s.activations := rfl
@[simp] theorem State.release_returned (b : Bus) (l : Line) : (s.release b l).returned = s.returned := rfl

@[simp] theorem State.acknowledge_cfg (i : Instr) (r : Result) : (s.acknowledge i r).cfg = s.cfg := rfl
@[simp] theorem State.acknowledge_pins (i : Instr) (r : Result) : (s.acknowledge i r).pins = s.pins := rfl
@[simp] theorem State.acknowledge_phase (i : Instr) (r : Result) : (s.acknowledge i r).phase = s.phase := rfl
@[simp] theorem State.acknowledge_owner (i : Instr) (r : Result) : (s.acknowledge i r).owner = s.owner := rfl
@[simp] theorem State.acknowledge_traceRev (i : Instr) (r : Result) : (s.acknowledge i r).traceRev = s.traceRev := rfl
@[simp] theorem State.acknowledge_fault (i : Instr) (r : Result) : (s.acknowledge i r).fault = s.fault := rfl
@[simp] theorem State.acknowledge_refusal (i : Instr) (r : Result) : (s.acknowledge i r).refusal = s.refusal := rfl
@[simp] theorem State.acknowledge_masked (i : Instr) (r : Result) : (s.acknowledge i r).masked = s.masked := rfl
@[simp] theorem State.acknowledge_handlerRunning (i : Instr) (r : Result) : (s.acknowledge i r).handlerRunning = s.handlerRunning := rfl
@[simp] theorem State.acknowledge_mainJob (i : Instr) (r : Result) : (s.acknowledge i r).mainJob = s.mainJob := rfl
@[simp] theorem State.acknowledge_handlerJob (i : Instr) (r : Result) : (s.acknowledge i r).handlerJob = s.handlerJob := rfl
@[simp] theorem State.acknowledge_mainTodo (i : Instr) (r : Result) : (s.acknowledge i r).mainTodo = s.mainTodo := rfl
@[simp] theorem State.acknowledge_handlerTodo (i : Instr) (r : Result) : (s.acknowledge i r).handlerTodo = s.handlerTodo := rfl
@[simp] theorem State.acknowledge_activations (i : Instr) (r : Result) : (s.acknowledge i r).activations = s.activations := rfl
@[simp] theorem State.acknowledge_returned (i : Instr) (r : Result) : (s.acknowledge i r).returned = s.returned := rfl
@[simp] theorem State.acknowledge_peers (i : Instr) (r : Result) : (s.acknowledge i r).env.peers = s.env.peers := rfl
@[simp] theorem State.acknowledge_pending (i : Instr) (r : Result) :
    (s.acknowledge i r).env.now.pending = (s.env.now.pending && !(clearsPending i r && s.env.now.cleared)) := rfl

@[simp] theorem State.finish_cfg (b : Bus) (r : Result) : (s.finish b r).cfg = s.cfg := rfl
@[simp] theorem State.finish_pins (b : Bus) (r : Result) : (s.finish b r).pins = s.pins := rfl
@[simp] theorem State.finish_phase (b : Bus) (r : Result) : (s.finish b r).phase = s.phase := rfl
@[simp] theorem State.finish_owner (b : Bus) (r : Result) : (s.finish b r).owner = bif s.phase.get b == .idle then s.owner.set b .none else s.owner := rfl
@[simp] theorem State.finish_traceRev (b : Bus) (r : Result) : (s.finish b r).traceRev = s.traceRev := rfl
@[simp] theorem State.finish_fault (b : Bus) (r : Result) : (s.finish b r).fault = s.fault := rfl
@[simp] theorem State.finish_refusal (b : Bus) (r : Result) : (s.finish b r).refusal = s.refusal := rfl
@[simp] theorem State.finish_masked (b : Bus) (r : Result) : (s.finish b r).masked = s.masked := rfl
@[simp] theorem State.finish_handlerRunning (b : Bus) (r : Result) : (s.finish b r).handlerRunning = s.handlerRunning := rfl
@[simp] theorem State.finish_mainJob (b : Bus) (r : Result) : (s.finish b r).mainJob = s.mainJob := rfl
@[simp] theorem State.finish_handlerJob (b : Bus) (r : Result) : (s.finish b r).handlerJob = s.handlerJob := rfl
@[simp] theorem State.finish_mainTodo (b : Bus) (r : Result) : (s.finish b r).mainTodo = s.mainTodo := rfl
@[simp] theorem State.finish_handlerTodo (b : Bus) (r : Result) : (s.finish b r).handlerTodo = s.handlerTodo := rfl
@[simp] theorem State.finish_activations (b : Bus) (r : Result) : (s.finish b r).activations = s.activations := rfl
@[simp] theorem State.finish_returned (b : Bus) (r : Result) : (s.finish b r).returned = (s.ctx, r) :: s.returned := rfl
@[simp] theorem State.finish_env (b : Bus) (r : Result) : (s.finish b r).env = s.env := rfl

end Sys2Proof.Machine
end

