-- ==== Sys2Proof/Laws/Operands.lean ====
section
/-! SUPPORT. The laws of the operand forms: what a sound board gives (R23, R183, R210, R263), which pin carries which
line, and bit selection and assembly on the wire (R137). -/

namespace Sys2Proof.Machine

variable {c : Config}

/-- Everything `configWf` says, one clause for each requirement. -/
theorem configWf_iff : configWf c = true ↔
    c.nPins ≤ 255 ∧ c.reservedPins.toList.Nodup ∧ (∀ r ∈ c.reservedPins.toList, 1 ≤ r.toNat ∧ r.toNat ≤ c.nPins) ∧
    (∀ b l, validPin c (pinOf c b l) = true) ∧
    [pinOf c .rtc .scl, pinOf c .rtc .sda, pinOf c .disp .scl, pinOf c .disp .sda].Nodup ∧ 0 < c.pinsPerPort ∧
    c.regMinutes = c.regSeconds + 1 ∧ c.regHours = c.regSeconds + 2 ∧ c.regMonth = c.regDay + 1 ∧
    c.regYear = c.regDay + 2 ∧ c.regTempLsb = c.regTempMsb + 1 ∧
    (∀ m ∈ c.segTable.toList, m.getLsbD 7 = false) ∧ bcdDomain c.alarmSecond = true := by
  have hp : (∀ b l, validPin c (pinOf c b l) = true) ↔ validPin c (pinOf c .rtc .scl) = true ∧
      validPin c (pinOf c .rtc .sda) = true ∧ validPin c (pinOf c .disp .scl) = true ∧
      validPin c (pinOf c .disp .sda) = true :=
    ⟨fun h => ⟨h _ _, h _ _, h _ _, h _ _⟩, fun ⟨h1, h2, h3, h4⟩ b l => by cases b <;> cases l <;> assumption⟩
  rw [hp]
  simp only [configWf, Bool.and_eq_true, decide_eq_true_eq, beq_iff_eq, List.all_eq_true, Bool.not_eq_true']
  constructor
  · rintro ⟨⟨⟨⟨⟨⟨⟨⟨⟨⟨⟨⟨⟨⟨⟨h1, h2⟩, h3⟩, h4⟩, h5⟩, h6⟩, h7⟩, h8⟩, h9⟩, h10⟩, h11⟩, h12⟩, h13⟩, h14⟩, h15⟩, h16⟩
    exact ⟨h1, h2, h3, ⟨h4, h5, h6, h7⟩, h8, h9, h10, h11, h12, h13, h14, h15, h16⟩
  · rintro ⟨h1, h2, h3, ⟨h4, h5, h6, h7⟩, h8, h9, h10, h11, h12, h13, h14, h15, h16⟩
    exact ⟨⟨⟨⟨⟨⟨⟨⟨⟨⟨⟨⟨⟨⟨⟨h1, h2⟩, h3⟩, h4⟩, h5⟩, h6⟩, h7⟩, h8⟩, h9⟩, h10⟩, h11⟩, h12⟩, h13⟩, h14⟩, h15⟩, h16⟩

/-- Every bus pin is a valid pin (R23). -/
theorem validPin_pinOf (h : configWf c = true) (b : Bus) (l : Line) : validPin c (pinOf c b l) = true :=
  (configWf_iff.1 h).2.2.2.1 b l

/-- The four bus pins are distinct (R23). -/
theorem pinOf_inj (h : configWf c = true) {b b' : Bus} {l l' : Line} (heq : pinOf c b l = pinOf c b' l') :
    b = b' ∧ l = l' := by
  have hn := (configWf_iff.1 h).2.2.2.2.1
  simp only [List.nodup_cons, List.mem_cons, List.not_mem_nil, or_false, not_or] at hn
  obtain ⟨⟨n1, n2, n3⟩, ⟨n4, n5⟩, n6, -⟩ := hn
  cases b <;> cases l <;> cases b' <;> cases l' <;>
    first | exact ⟨rfl, rfl⟩ | exact absurd heq (by assumption) | exact absurd heq.symm (by assumption)

/-- The line a bus pin carries is the one it is the pin of (R23). -/
theorem lineOf_pinOf (h : configWf c = true) (b : Bus) (l : Line) : lineOf c (pinOf c b l) = some (b, l) := by
  have hi := @pinOf_inj c h
  unfold lineOf
  split_ifs with h1 h2 h3 h4
  · obtain ⟨rfl, rfl⟩ := hi h1; rfl
  · obtain ⟨rfl, rfl⟩ := hi h2; rfl
  · obtain ⟨rfl, rfl⟩ := hi h3; rfl
  · obtain ⟨rfl, rfl⟩ := hi h4; rfl
  · cases b <;> cases l <;> contradiction

/-- A pin that carries a line is that line's pin (R23). -/
theorem pinOf_of_lineOf {p : Byte} {b : Bus} {l : Line} (h : lineOf c p = some (b, l)) : p = pinOf c b l := by
  unfold lineOf at h
  split_ifs at h with h1 h2 h3 h4 <;> (simp only [Option.some.injEq, Prod.mk.injEq] at h; obtain ⟨rfl, rfl⟩ := h) <;>
    assumption

/-- A pin carries no line exactly if it is none of the four bus pins (R23). -/
theorem lineOf_eq_none {p : Byte} : lineOf c p = none ↔ ∀ b l, p ≠ pinOf c b l := by
  unfold lineOf
  constructor
  · intro h b l
    split_ifs at h with h1 h2 h3 h4
    cases b <;> cases l <;> assumption
  · intro h
    rw [if_neg (h _ _), if_neg (h _ _), if_neg (h _ _), if_neg (h _ _)]

/-- Distinct pin ids have distinct numbers. -/
theorem pin_toNat_ne {p q : Byte} (h : p ≠ q) : p.toNat ≠ q.toNat := fun h' => h (BitVec.eq_of_toNat_eq h')

/-- The eight wire bits of a byte, put together in the same order, are the byte (R137, R142). -/
theorem assemble_wireBits (o : BitOrder) (x : Byte) : assemble o (wireBits o x) = x := by
  have key : ∀ o : BitOrder, ∀ n : Fin 256, assemble o (wireBits o (BitVec.ofFin n)) = BitVec.ofFin n := by
    intro o; cases o <;> decide +kernel
  exact key o x.toFin

end Sys2Proof.Machine
end

