-- ==== Sys2Proof/Laws/Ops.lean ====
section
/-! SUPPORT. What the named operations over pins, lines, peers and the environment can do, each said once. -/

namespace Sys2Proof.Machine

variable {s : State}

/-- The pin file is canonical. -/
theorem State.pinsWf.canonical (h : s.pinsWf) : Sparse.above PinState.reset 0 s.pins = true := h.1

/-- An invalid id has no state: it reads as the reset pin (R20). -/
theorem State.pin_of_invalid (h : s.pinsWf) {p : Byte} (hp : validPin s.cfg p = false) : s.pin p = PinState.reset := by
  have key : ∀ m : Sparse PinState, (∀ e ∈ m, e.1 ≠ p.toNat) → Sparse.get PinState.reset m p.toNat = PinState.reset := by
    intro m hm
    induction m with
    | nil => rfl
    | cons e rest ih =>
      simp only [Sparse.get]
      rw [if_neg (hm e List.mem_cons_self)]
      exact ih fun e he => hm e (List.mem_cons_of_mem _ he)
  refine key s.pins fun e he heq => ?_
  obtain ⟨q, hq, hv⟩ := h.2 e he
  have : q = p := BitVec.eq_of_toNat_eq (hq.symm.trans heq)
  rw [this, hp] at hv
  exact absurd hv (by decide)

theorem State.pin_setPin_self (h : s.pinsWf) (p : Byte) (v : PinState) : (s.setPin p v).pin p = v :=
  Sparse.get_set_self h.canonical

theorem State.pin_setPin_ne {p q : Byte} (v : PinState) (hne : q ≠ p) : (s.setPin p v).pin q = s.pin q :=
  Sparse.get_set_ne (pin_toNat_ne hne)

/-- Writing a valid pin keeps the pin file's form. -/
theorem State.pinsWf_setPin (h : s.pinsWf) {p : Byte} (hp : validPin s.cfg p = true) (v : PinState) :
    (s.setPin p v).pinsWf := by
  refine ⟨Sparse.wf_set h.1, fun e he => ?_⟩
  rcases Sparse.mem_set he with rfl | he
  · exact ⟨p, rfl, hp⟩
  · exact h.2 e he

/-- The pin file's form speaks of the pins and the parameters alone. -/
theorem State.pinsWf_congr {t : State} (hp : t.pins = s.pins) (hc : t.cfg = s.cfg) (h : s.pinsWf) : t.pinsWf := by
  unfold State.pinsWf; rw [hp, hc]; exact h

theorem State.pin_congr {t : State} (hp : t.pins = s.pins) (p : Byte) : t.pin p = s.pin p := by
  unfold State.pin; rw [hp]

theorem State.drivesLow_congr {t : State} (hp : t.pins = s.pins) (hc : t.cfg = s.cfg) (b : Bus) (l : Line) :
    t.drivesLow b l = s.drivesLow b l := by
  unfold State.drivesLow State.pin; rw [hp, hc]

/-- `drive_low` writes one bus pin (R110). -/
theorem State.pin_driveLow_self (h : s.pinsWf) (b : Bus) (l : Line) :
    (s.driveLow b l).pin (pinOf s.cfg b l) = { mode := .output, latch := false } := s.pin_setPin_self h _ _

theorem State.pin_driveLow_ne {b : Bus} {l : Line} {q : Byte} (hne : q ≠ pinOf s.cfg b l) :
    (s.driveLow b l).pin q = s.pin q := s.pin_setPin_ne _ hne

/-- `release` writes the mode of one bus pin and leaves its latch (R111). -/
theorem State.pin_release_self (h : s.pinsWf) (b : Bus) (l : Line) :
    (s.release b l).pin (pinOf s.cfg b l) = { s.pin (pinOf s.cfg b l) with mode := .input } := s.pin_setPin_self h _ _

theorem State.pin_release_ne {b : Bus} {l : Line} {q : Byte} (hne : q ≠ pinOf s.cfg b l) :
    (s.release b l).pin q = s.pin q := s.pin_setPin_ne _ hne

theorem State.pinsWf_driveLow (hc : configWf s.cfg = true) (h : s.pinsWf) (b : Bus) (l : Line) :
    (s.driveLow b l).pinsWf := by
  have := s.pinsWf_setPin h (validPin_pinOf hc b l) { mode := .output, latch := false }
  exact this

theorem State.pinsWf_release (hc : configWf s.cfg = true) (h : s.pinsWf) (b : Bus) (l : Line) :
    (s.release b l).pinsWf := by
  have := s.pinsWf_setPin h (validPin_pinOf hc b l) { s.pin (pinOf s.cfg b l) with mode := .input }
  exact this

/-- What the block drives after `drive_low` (R24, R110). -/
theorem State.drivesLow_driveLow (hc : configWf s.cfg = true) (h : s.pinsWf) (b : Bus) (l l' : Line) :
    (s.driveLow b l).drivesLow b l' = (l' == l || s.drivesLow b l') := by
  unfold State.drivesLow
  rw [State.driveLow_cfg]
  by_cases hl : l' = l
  · subst hl
    rw [State.pin_driveLow_self h]
    simp
  · rw [State.pin_driveLow_ne fun he => hl (pinOf_inj hc he).2]
    simp [hl]

/-- What the block drives after `release` (R24, R111). -/
theorem State.drivesLow_release (hc : configWf s.cfg = true) (h : s.pinsWf) (b : Bus) (l l' : Line) :
    (s.release b l).drivesLow b l' = (l' != l && s.drivesLow b l') := by
  unfold State.drivesLow
  rw [State.release_cfg]
  by_cases hl : l' = l
  · subst hl
    rw [State.pin_release_self h]
    simp only [bne_self_eq_false, Bool.false_and]; rfl
  · rw [State.pin_release_ne fun he => hl (pinOf_inj hc he).2]
    simp [hl]

/-- No expected peer ever drives SCL, so what stands on SCL does not depend on what a peer has seen. -/
theorem Peer.low_scl_observe (c : Config) (x y : Bool) (p : Peer) (d : PerLine Bool) :
    (p.observe c x y).low d .scl = p.low d .scl := by cases p <;> rfl

theorem Peer.low_scl_setClock (c : Config) (t : Option Counters) (p : Peer) (d : PerLine Bool) :
    (p.setClock c t).low d .scl = p.low d .scl := by cases p <;> cases t <;> rfl

theorem Peer.observe_of_isDrawn {p : Peer} (h : p.isDrawn = true) (c : Config) (x y : Bool) : p.observe c x y = p := by
  cases p <;> first | rfl | exact absurd h (by simp [Peer.isDrawn])

theorem Peer.setClock_of_isDrawn {p : Peer} (h : p.isDrawn = true) (c : Config) (t : Option Counters) :
    p.setClock c t = p := by
  cases p <;> cases t <;> first | rfl | exact absurd h (by simp [Peer.isDrawn])

/-- The next move is move number 0 from now. -/
theorem Env.moveAt_zero (e : Env) : e.moveAt 0 = e.upcoming := by
  unfold Env.moveAt Env.upcoming
  cases e.script <;> rfl

/-- After one move, move number `k` is what was number `k + 1`. -/
theorem Env.moveAt_advance (c : Config) (e : Env) (k : Nat) : (e.advance c).moveAt k = e.moveAt (k + 1) := by
  unfold Env.moveAt Env.advance
  have : e.tick + 1 + k = e.tick + (k + 1) := by omega
  cases e.script <;> simp [this]

/-- The draws of the present move are the upcoming move's, but for `pending`, which is level-like (R245). -/
theorem Env.now_advance (c : Config) (e : Env) :
    (e.advance c).now.drive = e.upcoming.drive ∧ (e.advance c).now.floating = e.upcoming.floating ∧
      (e.advance c).now.ext = e.upcoming.ext ∧ (e.advance c).now.fire = e.upcoming.fire := ⟨rfl, rfl, rfl, rfl⟩

theorem State.peers_envMove (b' : Bus) :
    s.envMove.env.peers.get b' = (s.env.peers.get b').setClock s.cfg s.env.upcoming.clock := by cases b' <;> rfl

/-- At the next move, SCL reads 1 exactly if the block releases it and the peer and the pull-up let it (R25). -/
theorem State.level_scl_envMove (b : Bus) :
    s.envMove.level b .scl = (!s.drivesLow b .scl && s.sclFree b 0) := by
  unfold State.level State.sclFree State.peerLow
  rw [State.peers_envMove, Peer.low_scl_setClock, Env.moveAt_zero]
  have h1 : s.envMove.drivesLow b .scl = s.drivesLow b .scl := rfl
  have h2 : s.envMove.env.now.drive = s.env.upcoming.drive := rfl
  have h3 : s.envMove.env.now.floating = s.env.upcoming.floating := rfl
  rw [h1, h2, h3, State.envMove_cfg]
  cases s.drivesLow b .scl <;> simp [PerLine.get]

/-- At the next move, with a drawn peer, SDA reads 1 exactly if the block releases it and the draw lets it (R25). -/
theorem State.level_sda_envMove {b : Bus} (h : (s.env.peers.get b).isDrawn = true) :
    s.envMove.level b .sda = (!s.drivesLow b .sda && s.sdaFree b 0) := by
  unfold State.level State.sdaFree State.peerLow
  rw [State.peers_envMove, Peer.setClock_of_isDrawn h, Env.moveAt_zero]
  have h1 : s.envMove.drivesLow b .sda = s.drivesLow b .sda := rfl
  have h2 : s.envMove.env.now.drive = s.env.upcoming.drive := rfl
  have h3 : s.envMove.env.now.floating = s.env.upcoming.floating := rfl
  rw [h1, h2, h3, State.envMove_cfg]
  cases s.drivesLow b .sda <;> simp [PerLine.get]

/-- With the environment's script and free values shifted by one move, so is when SCL is free. -/
theorem State.sclFree_envMove (b : Bus) (k : Nat) : s.envMove.sclFree b k = s.sclFree b (k + 1) := by
  unfold State.sclFree
  rw [State.peers_envMove, Peer.low_scl_setClock]
  have : s.envMove.env.moveAt k = s.env.moveAt (k + 1) := Env.moveAt_advance _ _ _
  rw [this]; rfl

theorem State.sdaFree_envMove {b : Bus} (h : (s.env.peers.get b).isDrawn = true) (k : Nat) :
    s.envMove.sdaFree b k = s.sdaFree b (k + 1) := by
  unfold State.sdaFree
  rw [State.peers_envMove, Peer.setClock_of_isDrawn h]
  have : s.envMove.env.moveAt k = s.env.moveAt (k + 1) := Env.moveAt_advance _ _ _
  rw [this]; rfl

/-- The peer's reaction to a line leaves every draw to come, and on SCL all there is to know. -/
theorem State.peers_observe_get (b b' : Bus) : (s.observe b).env.peers.get b' =
    if b' = b then (s.env.peers.get b).observe s.cfg (s.level b .scl) (s.level b .sda) else s.env.peers.get b' := by
  split
  · rename_i h; subst h; exact PerBus.get_set_self _ _ _
  · rename_i h; exact PerBus.get_set_ne _ _ h

/-- What a state must share for the environment's part in the levels of bus `b` to be the same from now on. -/
structure SameEnv (s t : State) (b : Bus) : Prop where
  cfg : t.cfg = s.cfg
  move : ∀ k, t.env.moveAt k = s.env.moveAt k
  scl : ∀ d, (t.env.peers.get b).low d .scl = (s.env.peers.get b).low d .scl
  drawn : (s.env.peers.get b).isDrawn = true → t.env.peers.get b = s.env.peers.get b

theorem SameEnv.refl (s : State) (b : Bus) : SameEnv s s b := ⟨rfl, fun _ => rfl, fun _ => rfl, fun _ => rfl⟩

theorem SameEnv.trans {s t u : State} {b : Bus} (h : SameEnv s t b) (h' : SameEnv t u b) : SameEnv s u b :=
  ⟨h'.cfg.trans h.cfg, fun k => (h'.move k).trans (h.move k), fun d => (h'.scl d).trans (h.scl d),
    fun hd => (h'.drawn (by rw [h.drawn hd]; exact hd)).trans (h.drawn hd)⟩

theorem SameEnv.sclFree {s t : State} {b : Bus} (h : SameEnv s t b) (k : Nat) : t.sclFree b k = s.sclFree b k := by
  unfold State.sclFree; rw [h.move, h.scl, h.cfg]

theorem SameEnv.sdaFree {s t : State} {b : Bus} (h : SameEnv s t b) (hd : (s.env.peers.get b).isDrawn = true) (k : Nat) :
    t.sdaFree b k = s.sdaFree b k := by
  unfold State.sdaFree; rw [h.move, h.drawn hd, h.cfg]

theorem SameEnv.observe (s : State) (b b' : Bus) : SameEnv s (s.observe b') b := by
  refine ⟨rfl, fun _ => rfl, fun d => ?_, fun hd => ?_⟩
  · rw [State.peers_observe_get]; split
    · rename_i h; subst h; exact Peer.low_scl_observe _ _ _ _ _
    · rfl
  · rw [State.peers_observe_get]; split
    · rename_i h; subst h; exact Peer.observe_of_isDrawn hd _ _ _
    · rfl

theorem SameEnv.driveLow (s : State) (b b' : Bus) (l : Line) : SameEnv s (s.driveLow b' l) b := by
  have := SameEnv.observe ((s.setPin (pinOf s.cfg b' l) { mode := .output, latch := false }).record (.driveLow b' l)) b b'
  exact ⟨this.cfg, this.move, this.scl, this.drawn⟩

theorem SameEnv.release (s : State) (b b' : Bus) (l : Line) : SameEnv s (s.release b' l) b := by
  have := SameEnv.observe
    ((s.setPin (pinOf s.cfg b' l) { s.pin (pinOf s.cfg b' l) with mode := .input }).record (.release b' l)) b b'
  exact ⟨this.cfg, this.move, this.scl, this.drawn⟩

end Sys2Proof.Machine
end

