-- ==== Sys2Proof/Laws/Run.lean ====
section
/-! SUPPORT. What running a command's sequence can do. `Prog.play` reads off the events, the last phase and the result of
a sequence from what its samples would read; `run_calm` says once that an unpreempted run with a free clock does just
that, so that a command's statement follows from computing its sequence's course. -/

namespace Sys2Proof.Machine

/-- What a course of micro-steps comes to. -/
structure Course where
  events : List Event
  phase : Phase
  result : Result

/-- The course with events before it. -/
def Course.after (es : List Event) (o : Course) : Course := { o with events := es ++ o.events }

/-- The events a micro-step that completes records (R35). -/
def Act.events : Act → List Event
  | .driveLow b l => [.driveLow b l]
  | .release b l => [.release b l]
  | .waitHigh b => [.waited b]
  | .delay t => [.delay t]
  | .phase _ _ => []
  | .ackFail b x => [.ackFail b x]

/-- The phase a micro-step leaves (R28). -/
def Act.phaseAfter (ph : Phase) : Act → Phase
  | .phase _ p => p
  | .driveLow .. | .release .. | .waitHigh _ | .delay _ | .ackFail .. => ph

/-- Whether the block still releases line `l` after a micro-step (R24). -/
def Act.freeAfter (l : Line) (v : Bool) : Act → Bool
  | .driveLow _ l' => v && l != l'
  | .release _ l' => v || l == l'
  | .waitHigh _ | .delay _ | .phase .. | .ackFail .. => v

/-- A micro-step acts on bus `b` alone. -/
def Act.on (b : Bus) : Act → Prop
  | .driveLow b' _ | .release b' _ | .waitHigh b' | .phase b' _ | .ackFail b' _ => b' = b
  | .delay _ => True

/-- The course of a sequence, where `look k` is what a sample at its `k`-th micro-step would read. -/
def Prog.play : Prog → Phase → (Nat → Bool) → Course
  | .ret r, ph, _ => { events := [], phase := ph, result := r }
  | .act a rest, ph, look => (rest.play (a.phaseAfter ph) fun k => look (k + 1)).after a.events
  | .sample b l rest, ph, look => ((rest (look 0)).play ph fun k => look (k + 1)).after [.sample b l (look 0)]
  | .ifIdle _ rest, ph, look => (rest (ph == .idle)).play ph look

/-- A sequence of at most `n` micro-steps on bus `b` alone that waits for SCL and samples SDA only while the block
releases them; `c` and `d` say whether it releases SCL and SDA at the start. -/
def Prog.Fine (b : Bus) : Prog → Nat → Bool → Bool → Prop
  | .ret _, _, _, _ => True
  | .act _ _, 0, _, _ => False
  | .act a rest, n + 1, c, d =>
    a.on b ∧ (a = .waitHigh b → c = true) ∧ rest.Fine b n (a.freeAfter .scl c) (a.freeAfter .sda d)
  | .sample _ _ _, 0, _, _ => False
  | .sample b' l rest, n + 1, c, d => b' = b ∧ l = .sda ∧ d = true ∧ ∀ v, (rest v).Fine b n c d
  | .ifIdle b' rest, n, c, d => b' = b ∧ ∀ v, (rest v).Fine b n c d

/-- The sequence waits for SCL somewhere. -/
def Prog.Waits : Prog → Prop
  | .ret _ => False
  | .act a rest => (∃ b, a = .waitHigh b) ∨ rest.Waits
  | .sample _ _ rest => ∃ v, (rest v).Waits
  | .ifIdle _ rest => ∃ v, (rest v).Waits

/-- A longer bound is a bound. -/
theorem Prog.Fine.mono {b : Bus} {p : Prog} {n m : Nat} {c d : Bool} (h : p.Fine b n c d) (hle : n ≤ m) :
    p.Fine b m c d := by
  induction p generalizing n m c d with
  | ret => trivial
  | act a rest ih =>
    cases n with
    | zero => exact absurd h (by simp [Prog.Fine])
    | succ n =>
      obtain ⟨m, rfl⟩ : ∃ k, m = k + 1 := ⟨m - 1, by omega⟩
      exact ⟨h.1, h.2.1, ih h.2.2 (by omega)⟩
  | sample b' l rest ih =>
    cases n with
    | zero => exact absurd h (by simp [Prog.Fine])
    | succ n =>
      obtain ⟨m, rfl⟩ : ∃ k, m = k + 1 := ⟨m - 1, by omega⟩
      exact ⟨h.1, h.2.1, h.2.2.1, fun v => ih v (h.2.2.2 v) (by omega)⟩
  | ifIdle b' rest ih => exact ⟨h.1, fun v => ih v (h.2 v) hle⟩

/-- The course of a sequence of at most `n` micro-steps depends on what its first `n` samples would read alone. -/
theorem Prog.play_congr {b : Bus} {p : Prog} {n : Nat} {c d : Bool} (h : p.Fine b n c d) (ph : Phase)
    {look look' : Nat → Bool} (e : ∀ k < n, look k = look' k) : p.play ph look = p.play ph look' := by
  induction p generalizing n c d ph look look' with
  | ret => rfl
  | act a rest ih =>
    cases n with
    | zero => exact absurd h (by simp [Prog.Fine])
    | succ n => exact congrArg (Course.after _) (ih h.2.2 _ fun k hk => e (k + 1) (by omega))
  | sample b' l rest ih =>
    cases n with
    | zero => exact absurd h (by simp [Prog.Fine])
    | succ n =>
      simp only [Prog.play]
      rw [e 0 (by omega), ih _ (h.2.2.2 _) _ fun k hk => e (k + 1) (by omega)]
  | ifIdle b' rest ih => exact ih _ (h.2 _) _ e

/-- A run on bus `b` has gone from `s` to `t` having recorded `es`, leaving the bus in phase `ph`. -/
structure Moved (s t : State) (b : Bus) (es : List Event) (ph : Phase) : Prop where
  trace : t.traceRev = es.reverse ++ s.traceRev
  phase : t.phase = s.phase.set b ph
  busPin : ∀ l, t.pin (pinOf s.cfg b l) = es.foldl (pinAfter b l) (s.pin (pinOf s.cfg b l))
  otherPin : ∀ p, (∀ l, p ≠ pinOf s.cfg b l) → t.pin p = s.pin p
  wf : t.pinsWf
  host : SameHost s t

theorem SameHost.refl (s : State) : SameHost s s := ⟨rfl, rfl, rfl, rfl, rfl, rfl, rfl, rfl, rfl, rfl⟩

theorem SameHost.trans {s t u : State} (h : SameHost s t) (h' : SameHost t u) : SameHost s u := by
  obtain ⟨a1, a2, a3, a4, a5, a6, a7, a8, a9, a10⟩ := h
  obtain ⟨b1, b2, b3, b4, b5, b6, b7, b8, b9, b10⟩ := h'
  exact ⟨b1.trans a1, b2.trans a2, b3.trans a3, b4.trans a4, b5.trans a5, b6.trans a6, b7.trans a7, b8.trans a8,
    b9.trans a9, b10.trans a10⟩

theorem SameHost.ctx {s t : State} (h : SameHost s t) : t.ctx = s.ctx := by
  unfold State.ctx; rw [h.2.2.2.2.1]

theorem SameHost.unpreempted {s t : State} (h : SameHost s t) (hu : s.unpreempted) : t.unpreempted := by
  unfold State.unpreempted; rw [h.2.2.2.1, h.2.2.2.2.1]; exact hu

theorem Moved.trans {s t u : State} {b : Bus} {es es' : List Event} {ph ph' : Phase} (h : Moved s t b es ph)
    (h' : Moved t u b es' ph') : Moved s u b (es ++ es') ph' where
  trace := by rw [h'.trace, h.trace]; simp
  phase := by rw [h'.phase, h.phase, PerBus.set_set]
  busPin l := by
    have hc : t.cfg = s.cfg := h.host.1
    rw [← hc, h'.busPin, hc, h.busPin, List.foldl_append]
  otherPin p hp := by
    have hc : t.cfg = s.cfg := h.host.1
    rw [h'.otherPin p (by rw [hc]; exact hp), h.otherPin p hp]
  wf := h'.wf
  host := h.host.trans h'.host

/-- The environment's move changes nothing of the block. -/
theorem Moved.envMove {s : State} (hw : s.pinsWf) (b : Bus) :
    Moved s s.envMove b [] (s.phase.get b) :=
  ⟨rfl, by simp, fun _ => rfl, fun _ _ => rfl, hw, SameHost.refl s⟩

/-- Recording one event that is no line action. -/
theorem Moved.record {s : State} (hw : s.pinsWf) (b : Bus) (e : Event) (he : ∀ l p, pinAfter b l p e = p) :
    Moved s (s.record e) b [e] (s.phase.get b) :=
  ⟨rfl, by simp, fun l => (he l _).symm, fun _ _ => rfl, hw, SameHost.refl s⟩

/-- Nothing fires while the notification is masked or HANDLER runs (R244, R245). -/
theorem State.fires_of_unpreempted {s : State} (h : s.unpreempted) : s.fires = false := by
  unfold State.fires
  rcases h with h | h <;> simp [h]

/-- What a micro-step that is enabled does (R33, R34, R110, R111, R113): one lemma for all six. -/
theorem Act.effect_done {s : State} {b : Bus} {a : Act} (hc : configWf s.cfg = true) (hw : s.pinsWf) (hon : a.on b)
    (hwait : a = .waitHigh b → s.drivesLow b .scl = false ∧ s.level b .scl = true) :
    ∃ t, a.effect s = .done t ∧ Moved s t b a.events (a.phaseAfter (s.phase.get b)) ∧ SameEnv s t b ∧
      t.owner = s.owner ∧ t.returned = s.returned ∧ ∀ l, t.drivesLow b l = !a.freeAfter l (!s.drivesLow b l) := by
  cases a with
  | driveLow b' l =>
    obtain rfl : b' = b := hon
    refine ⟨_, rfl, ⟨rfl, ?_, fun l' => ?_, fun p hp => ?_, ?_, SameHost.refl s⟩, SameEnv.driveLow s _ _ l, rfl, rfl, fun l' => ?_⟩
    · exact (PerBus.set_get_self _ _).symm
    · simp only [Act.events, List.foldl_cons, List.foldl_nil, pinAfter, true_and]
      split
      · rename_i h; subst h; exact s.pin_driveLow_self hw _ _
      · rename_i h; exact s.pin_driveLow_ne fun he => h (pinOf_inj hc he).2.symm
    · exact s.pin_driveLow_ne (hp l)
    · exact s.pinsWf_driveLow hc hw _ _
    · rw [State.drivesLow_driveLow hc hw]
      cases s.drivesLow b' l' <;> cases l <;> cases l' <;> rfl
  | release b' l =>
    obtain rfl : b' = b := hon
    refine ⟨_, rfl, ⟨rfl, ?_, fun l' => ?_, fun p hp => ?_, ?_, SameHost.refl s⟩, SameEnv.release s _ _ l, rfl, rfl, fun l' => ?_⟩
    · exact (PerBus.set_get_self _ _).symm
    · simp only [Act.events, List.foldl_cons, List.foldl_nil, pinAfter, true_and]
      split
      · rename_i h; subst h; exact s.pin_release_self hw _ _
      · rename_i h; exact s.pin_release_ne fun he => h (pinOf_inj hc he).2.symm
    · exact s.pin_release_ne (hp l)
    · exact s.pinsWf_release hc hw _ _
    · rw [State.drivesLow_release hc hw]
      cases s.drivesLow b' l' <;> cases l <;> cases l' <;> rfl
  | waitHigh b' =>
    obtain rfl : b' = b := hon
    obtain ⟨h1, h2⟩ := hwait rfl
    refine ⟨s.record (.waited b'), by simp [Act.effect, h1, h2], Moved.record hw _ _ fun _ _ => rfl,
      ⟨rfl, fun _ => rfl, fun _ => rfl, fun _ => rfl⟩, rfl, rfl, fun l => ?_⟩
    show s.drivesLow b' l = _
    simp [Act.freeAfter]
  | delay t =>
    refine ⟨_, rfl, Moved.record hw _ _ fun _ _ => rfl, ⟨rfl, fun _ => rfl, fun _ => rfl, fun _ => rfl⟩, rfl, rfl, fun l => ?_⟩
    show s.drivesLow b l = _
    simp [Act.freeAfter]
  | phase b' p =>
    obtain rfl : b' = b := hon
    refine ⟨_, rfl, ⟨rfl, rfl, fun _ => rfl, fun _ _ => rfl, hw, SameHost.refl s⟩,
      ⟨rfl, fun _ => rfl, fun _ => rfl, fun _ => rfl⟩, rfl, rfl, fun l => ?_⟩
    show s.drivesLow b' l = _
    simp [Act.freeAfter]
  | ackFail b' x =>
    refine ⟨_, rfl, Moved.record hw _ _ fun _ _ => rfl, ⟨rfl, fun _ => rfl, fun _ => rfl, fun _ => rfl⟩, rfl, rfl, fun l => ?_⟩
    show s.drivesLow b l = _
    simp [Act.freeAfter]

/-- A run that came to its end: it moved as its course says, and returned the result (R31, R79). -/
structure Played (s t : State) (b : Bus) (o : Course) : Prop where
  moved : Moved s t b o.events o.phase
  owner : t.owner = if o.phase = .idle then s.owner.set b .none else s.owner
  returned : t.returned = (s.ctx, o.result) :: s.returned

theorem Played.of_moved {s t u : State} {b : Bus} {es : List Event} {ph : Phase} {o : Course} (h : Moved s t b es ph)
    (ho : t.owner = s.owner) (hr : t.returned = s.returned) (h' : Played t u b o) : Played s u b (o.after es) :=
  ⟨h.trans h'.moved, by rw [h'.owner, ho]; rfl, by rw [h'.returned, hr, h.host.ctx]; rfl⟩

/-- A run that nothing preempts, with a free clock if it waits for it, goes through to its end along the course its samples decide; with
a drawn peer the samples are the draws (R26, R113, R245). -/
theorem run_calm {i : Instr} {b : Bus} {p : Prog} {n : Nat} {c d : Bool} {trail : List Bool} {s : State}
    (hp : p.Fine b n c d) (hcfg : configWf s.cfg = true) (hw : s.pinsWf) (hu : s.unpreempted)
    (hfree : p.Waits → ∀ k < n, s.sclFree b k = true) (hscl : c = true → s.drivesLow b .scl = false) (hsda : d = true → s.drivesLow b .sda = false) :
    ∃ look : Nat → Bool, ((s.env.peers.get b).isDrawn = true → look = s.sdaFree b) ∧
      Played s (run i b p trail s) b (p.play (s.phase.get b) look) := by
  induction p generalizing n c d trail s with
  | ret r =>
    refine ⟨s.sdaFree b, fun _ => rfl, ⟨rfl, (PerBus.set_get_self _ _).symm, fun _ => rfl, fun _ _ => rfl, hw, SameHost.refl s⟩, ?_, rfl⟩
    show (bif s.phase.get b == .idle then _ else _) = _
    by_cases hi : s.phase.get b = .idle
    · simp [hi, Prog.play]
    · have : (s.phase.get b == .idle) = false := beq_eq_false_iff_ne.2 hi
      rw [this]; simp [hi, Prog.play]
  | act a rest ih =>
    cases n with
    | zero => exact absurd hp (by simp [Prog.Fine])
    | succ n =>
    obtain ⟨hon, hwaitc, hrest⟩ := hp
    have hm := Moved.envMove hw b
    have hum : s.envMove.unpreempted := hm.host.unpreempted hu
    have hf := State.fires_of_unpreempted hum
    obtain ⟨t, het, hmt, hse, hto, htr, htd⟩ := Act.effect_done (s := s.envMove) (b := b) (a := a) hcfg hw hon (by
      intro ha
      refine ⟨hscl (hwaitc ha), ?_⟩
      rw [State.level_scl_envMove, hscl (hwaitc ha), hfree (Or.inl ⟨b, ha⟩) 0 (by omega)]; rfl)
    have hst := hm.trans hmt
    have hdrv : ∀ l, t.drivesLow b l = !a.freeAfter l (!s.drivesLow b l) := htd
    have hc' : ∀ l v, (v = true → s.drivesLow b l = false) → a.freeAfter l v = true → t.drivesLow b l = false := by
      intro l v hv ha
      rw [hdrv]
      cases hv' : v with
      | true => rw [hv' ] at ha; rw [hv hv']; simpa using ha
      | false =>
        rw [hv'] at ha
        cases hs : s.drivesLow b l with
        | true => simpa using ha
        | false =>
          have : a.freeAfter l true = true := by
            revert ha; cases a <;> simp [Act.freeAfter]
          simpa using this
    obtain ⟨look, hlook, hpl⟩ := @ih n _ _ (true :: trail) t hrest (by rw [hst.host.1]; exact hcfg) hst.wf
      (hst.host.unpreempted hu)
      (fun hw k hk => by rw [hse.sclFree, State.sclFree_envMove]; exact hfree (Or.inr hw) _ (by omega)) (hc' .scl c hscl) (hc' .sda d hsda)
    refine ⟨fun k => match k with | 0 => s.sdaFree b 0 | k + 1 => look k, fun hd => ?_, ?_⟩
    · have hd' : (s.envMove.env.peers.get b).isDrawn = true := by
        rw [State.peers_envMove, Peer.setClock_of_isDrawn hd]; exact hd
      have := hlook (by rw [hse.drawn hd']; exact hd')
      subst this
      funext k
      cases k with
      | zero => rfl
      | succ k => show t.sdaFree b k = _; rw [hse.sdaFree hd', State.sdaFree_envMove hd]
    · have hrun : run i b (.act a rest) trail s = run i b rest (true :: trail) t := by
        simp only [run, hf, het, cond_false]
      rw [hrun]
      have hph : t.phase.get b = a.phaseAfter (s.phase.get b) := by rw [hmt.phase]; simp
      rw [hph] at hpl
      have := Played.of_moved hst hto htr hpl
      simpa [Prog.play] using this
  | sample b' l rest ih =>
    cases n with
    | zero => exact absurd hp (by simp [Prog.Fine])
    | succ n =>
    obtain ⟨rfl, rfl, hd1, hrest⟩ := hp
    have hm := Moved.envMove hw b'
    have hum : s.envMove.unpreempted := hm.host.unpreempted hu
    have hf := State.fires_of_unpreempted hum
    generalize hv : s.envMove.level b' .sda = v
    have hmt := Moved.record (s := s.envMove) hm.wf b' (.sample b' .sda v) fun _ _ => rfl
    have hst := hm.trans hmt
    have hse : SameEnv s.envMove (s.envMove.record (.sample b' .sda v)) b' :=
      ⟨rfl, fun _ => rfl, fun _ => rfl, fun _ => rfl⟩
    obtain ⟨look, hlook, hpl⟩ := @ih v n c d (v :: trail) (s.envMove.record (.sample b' .sda v)) (hrest v) hcfg hst.wf
      (hst.host.unpreempted hu)
      (fun hw k hk => by rw [hse.sclFree, State.sclFree_envMove]; exact hfree ⟨v, hw⟩ _ (by omega)) hscl hsda
    refine ⟨fun k => match k with | 0 => v | k + 1 => look k, fun hd => ?_, ?_⟩
    · have hd' : (s.envMove.env.peers.get b').isDrawn = true := by
        rw [State.peers_envMove, Peer.setClock_of_isDrawn hd]; exact hd
      have := hlook (by rw [hse.drawn hd']; exact hd')
      subst this
      funext k
      cases k with
      | zero => show v = _; rw [← hv, State.level_sda_envMove hd, hsda hd1]; simp
      | succ k =>
        show State.sdaFree _ b' k = _
        rw [hse.sdaFree hd', State.sdaFree_envMove hd]
    · have hrun : run i b' (.sample b' .sda rest) trail s =
          run i b' (rest v) (v :: trail) (s.envMove.record (.sample b' .sda v)) := by
        simp only [run, hf, hv, cond_false]
      rw [hrun]
      have := Played.of_moved hst rfl rfl hpl
      simpa [Prog.play] using this
  | ifIdle b' rest ih =>
    obtain ⟨rfl, hrest⟩ := hp
    obtain ⟨look, hlook, hpl⟩ := @ih (s.phase.get b' == .idle) n c d ((s.phase.get b' == .idle) :: trail) s
      (hrest _) hcfg hw hu (fun hw => hfree ⟨_, hw⟩) hscl hsda
    exact ⟨look, hlook, by simpa [Prog.play, run] using hpl⟩

/-- A command that may use its bus and meets its phase precondition comes to `Completed` along its course. -/
theorem busCommand_calm {i : Instr} {b : Bus} {need : Need} {p : Prog} {n : Nat} {s : State}
    (hp : p.Fine b n (!s.drivesLow b .scl) (!s.drivesLow b .sda)) (hs : s.steady b)
    (hfree : p.Waits → ∀ k < n, s.sclFree b k = true) (hneed : need.met (s.phase.get b) = true) :
    ∃ look : Nat → Bool, ((s.env.peers.get b).isDrawn = true → look = s.sdaFree b) ∧
      Completed s (busCommand i b need p s) b (p.play (s.phase.get b) look).events (p.play (s.phase.get b) look).phase
        (p.play (s.phase.get b) look).result := by
  obtain ⟨hcfg, hw, hmay, hu⟩ := hs
  have hown : s.ownedByOther b = false := by
    unfold State.ownedByOther
    rcases hmay with h | h
    · rw [h]; rfl
    · rw [h]; simp
  have hrun : busCommand i b need p s = run i b p [] (s.setOwner b s.ctx.owner) := by
    unfold busCommand; rw [hown, hneed]; rfl
  obtain ⟨look, hlook, hpl⟩ := run_calm (i := i) (s := s.setOwner b s.ctx.owner) (trail := []) hp hcfg hw hu hfree
    (fun h => Eq.mp (Bool.not_eq_true' _) h) (fun h => Eq.mp (Bool.not_eq_true' _) h)
  refine ⟨look, hlook, ?_⟩
  rw [hrun]
  generalize hph : Prog.play p (s.phase.get b) look = o
  have hpl' : Played (s.setOwner b s.ctx.owner) (run i b p [] (s.setOwner b s.ctx.owner)) b o := hph ▸ hpl
  refine ⟨?_, hpl'.returned, hpl'.moved.phase, ?_, hpl'.moved.busPin, hpl'.moved.otherPin, hpl'.moved.host⟩
  · simp [State.trace, hpl'.moved.trace]
  · rw [hpl'.owner]
    by_cases h : o.phase = .idle <;> simp [h]

end Sys2Proof.Machine
end

