-- ==== Sys2Proof/Laws/Engine.lean ====
section
/-! SUPPORT. The courses of the engine's sequences (42_engine.md) and of the adapters' (44_rtc.md, 45_display.md): for
each shared sequence, that it is well-behaved (`_fine`) and what it comes to (`_play`). -/

namespace Sys2Proof.Machine

variable {c : Config} {b : Bus} {ph : Phase} {look : Nat → Bool}

/-- What a sample would read, counted from `n` micro-steps later. -/
def later (n : Nat) (look : Nat → Bool) : Nat → Bool := fun k => look (k + n)

theorem later_later (n m : Nat) (look : Nat → Bool) : later n (later m look) = later (n + m) look := by
  funext k; simp only [later, Nat.add_assoc]

@[simp] theorem Course.after_after (es es' : List Event) (o : Course) : (o.after es').after es = o.after (es ++ es') := by
  simp [Course.after]

@[simp] theorem Course.after_nil (o : Course) : o.after [] = o := rfl

@[simp] theorem Course.after_phase (es : List Event) (o : Course) : (o.after es).phase = o.phase := rfl
@[simp] theorem Course.after_result (es : List Event) (o : Course) : (o.after es).result = o.result := rfl
@[simp] theorem Course.after_events (es : List Event) (o : Course) : (o.after es).events = es ++ o.events := rfl

/-- A line released where a sequence needs none released does no harm. -/
theorem Prog.Fine.anyLines {p : Prog} {n : Nat} {x y : Bool} (h : p.Fine b n false false) : p.Fine b n x y := by
  have key : ∀ (p : Prog) (n : Nat) (x y x' y' : Bool), (x = true → x' = true) → (y = true → y' = true) →
      p.Fine b n x y → p.Fine b n x' y' := by
    intro p
    induction p with
    | ret => intros; trivial
    | act a rest ih =>
      intro n x y x' y' hx hy h
      cases n with
      | zero => exact absurd h (by simp [Prog.Fine])
      | succ n =>
        refine ⟨h.1, fun ha => hx (h.2.1 ha), ih _ _ _ _ _ ?_ ?_ h.2.2⟩
        · cases x <;> cases x' <;> cases a <;> simp_all [Act.freeAfter]
        · cases y <;> cases y' <;> cases a <;> simp_all [Act.freeAfter]
    | sample b' l rest ih =>
      intro n x y x' y' hx hy h
      cases n with
      | zero => exact absurd h (by simp [Prog.Fine])
      | succ n => exact ⟨h.1, h.2.1, hy h.2.2.1, fun v => ih v _ _ _ _ _ hx hy (h.2.2.2 v)⟩
    | ifIdle b' rest ih =>
      intro n x y x' y' hx hy h
      exact ⟨h.1, fun v => ih v _ _ _ _ _ hx hy (h.2 v)⟩
  exact key p n false false x y (by simp) (by simp) h

/-! Each sequence is well-behaved if what follows it is. -/

theorem wbit_fine {v : Bool} {k : Prog} {n : Nat} (h : k.Fine b n false false) :
    (wbit c b v k).Fine b (n + 6) false false := by
  cases v <;> exact ⟨rfl, by simp, trivial, by simp [dly], rfl, by simp, rfl, fun _ => rfl, trivial, by simp [dly],
    rfl, by simp, h.anyLines⟩

theorem rbit_fine {k : Bool → Prog} {n : Nat} (h : ∀ s, (k s).Fine b n false false) :
    (rbit c b k).Fine b (n + 7) false false :=
  ⟨rfl, by simp, trivial, by simp [dly], rfl, by simp, rfl, fun _ => rfl, trivial, by simp [dly], rfl, rfl, rfl,
    fun s => ⟨rfl, by simp, (h s).anyLines⟩⟩

theorem wbits_fine {k : Prog} {n : Nat} (vs : List Bool) (h : k.Fine b n false false) :
    (wbits c b vs k).Fine b (n + 6 * vs.length) false false := by
  induction vs with
  | nil => exact h
  | cons v vs ih =>
    have := wbit_fine (c := c) (v := v) ih
    exact this.mono (by simp only [List.length_cons]; omega)

theorem rbits_fine {k : Byte → Prog} {n : Nat} (is : List Nat) (v : Byte) (h : ∀ v, (k v).Fine b n false false) :
    (rbits c b is v k).Fine b (n + 7 * is.length) false false := by
  induction is generalizing v with
  | nil => exact h v
  | cons i is ih =>
    have := rbit_fine (c := c) (k := fun s => rbits c b is (place (Config.order b) v i s) k) fun s => ih _
    exact this.mono (by simp only [List.length_cons]; omega)

theorem xferOut_fine {x : Byte} {k : Bool → Prog} {n : Nat} (h : ∀ a, (k a).Fine b n false false) :
    (xferOut c b x k).Fine b (n + 55) false false := by
  have := wbits_fine (c := c) (wireBits (Config.order b) x) (rbit_fine (c := c) (k := fun a => k (acked a)) fun a => h _)
  exact this.mono (by simp [wireBits])

theorem xferIn_fine {last : Bool} {k : Byte → Prog} {n : Nat} (h : ∀ v, (k v).Fine b n false false) :
    (xferIn c b last k).Fine b (n + 62) false false := by
  have := rbits_fine (c := c) (List.range 8) 0 fun v => wbit_fine (c := c) (v := last) (h v)
  exact this.mono (by simp)

theorem startCondition_fine {k : Prog} {n : Nat} (h : k.Fine b n false false) :
    (startCondition c b k).Fine b (n + 3) false false :=
  ⟨rfl, by simp, trivial, by simp [dly], rfl, by simp, h.anyLines⟩

theorem restart_fine {k : Prog} {n : Nat} (h : k.Fine b n false false) : (restart c b k).Fine b (n + 5) false false :=
  ⟨rfl, by simp, trivial, by simp [dly], rfl, by simp, rfl, fun _ => rfl, trivial, by simp [dly], h.anyLines⟩

theorem addressing_fine {ha rw : Bool} {addr : BitVec 7} {k : Bool → Prog} {n : Nat}
    (h : ∀ a, (k a).Fine b n false false) : (addressing c b ha addr rw k).Fine b (n + 56) false false := by
  cases ha with
  | false =>
    have : Prog.Fine b (.act (.phase b .started) (k true)) (n + 1) false false := ⟨rfl, by simp, h true⟩
    exact this.mono (by omega)
  | true => exact ⟨rfl, by simp, xferOut_fine h⟩

theorem startSeq_fine {ha rw : Bool} {addr : BitVec 7} {k : Bool → Prog} {n : Nat}
    (h : ∀ a, (k a).Fine b n false false) : (startSeq c b ha addr rw k).Fine b (n + 64) false false := by
  have hs := startCondition_fine (c := c) (addressing_fine (c := c) (ha := ha) (addr := addr) (rw := rw) h)
  refine ⟨rfl, fun v => ?_⟩
  cases v with
  | true => exact hs.mono (by omega)
  | false => exact (restart_fine hs).mono (by omega)

theorem writeSeq_fine {x : Byte} {k : Bool → Prog} {n : Nat} (h : ∀ a, (k a).Fine b n false false) :
    (writeSeq c b x k).Fine b (n + 57) false false := by
  have := xferOut_fine (c := c) (b := b) (x := x) (n := n + 2)
    (k := fun ack => .act (.phase b .transfer) (bif ack then k true else .act (.ackFail b x) (k false))) (by
    intro a
    cases a with
    | true => exact ⟨rfl, by simp, (h true).mono (by omega)⟩
    | false => exact ⟨rfl, by simp, rfl, by simp, h false⟩)
  exact this.mono (by omega)

theorem readSeq_fine {last : Bool} {k : Byte → Prog} {n : Nat} (h : ∀ v, (k v).Fine b n false false) :
    (readSeq c b last k).Fine b (n + 63) false false := by
  have := xferIn_fine (c := c) (b := b) (last := last) (n := n + 1) (k := fun v => .act (.phase b .transfer) (k v))
    fun v => ⟨rfl, by simp, h v⟩
  exact this.mono (by omega)

theorem stopSeq_fine {k : Prog} {n : Nat} (h : k.Fine b n false false) : (stopSeq c b k).Fine b (n + 8) false false :=
  ⟨rfl, by simp, trivial, by simp [dly], rfl, by simp, rfl, fun _ => rfl, trivial, by simp [dly], rfl, by simp, trivial,
    by simp, rfl, by simp, h.anyLines⟩

/-! What each sequence comes to. -/

theorem wbit_play (v : Bool) (k : Prog) :
    (wbit c b v k).play ph look = (k.play ph (later 6 look)).after (wbitEvents b c.tHalf v) := by
  cases v <;> rfl

theorem rbit_play (k : Bool → Prog) :
    (rbit c b k).play ph look = ((k (look 5)).play ph (later 7 look)).after (rbitEvents b c.tHalf (look 5)) := rfl

theorem wbits_play (vs : List Bool) (k : Prog) (look : Nat → Bool) : (wbits c b vs k).play ph look =
    (k.play ph (later (6 * vs.length) look)).after (vs.flatMap (wbitEvents b c.tHalf)) := by
  induction vs generalizing look with
  | nil => rfl
  | cons v vs ih =>
    rw [wbits, wbit_play, ih, later_later, Course.after_after]
    have : 6 * vs.length + 6 = 6 * (v :: vs).length := by simp only [List.length_cons]; omega
    rw [this]; rfl

/-- The eight samples of a byte read (R135). -/
def readBits (look : Nat → Bool) : List Bool := (List.range 8).map fun i => look (7 * i + 5)

theorem readBits_length (look : Nat → Bool) : (readBits look).length = 8 := by simp [readBits]

theorem xferOut_play (x : Byte) (k : Bool → Prog) : (xferOut c b x k).play ph look =
    ((k (acked (look 53))).play ph (later 55 look)).after (xferOutEvents b c.tHalf x (look 53)) := by
  rw [xferOut, wbits_play, rbit_play, Course.after_after, later_later]
  have h : (wireBits (Config.order b) x).length = 8 := by simp [wireBits]
  rw [h]; rfl

theorem rbits_eight_play (k : Byte → Prog) : (rbits c b (List.range 8) 0 k).play ph look =
    ((k (assemble (Config.order b) (readBits look))).play ph (later 56 look)).after
      ((readBits look).flatMap (rbitEvents b c.tHalf)) := by
  have hr : List.range 8 = [0, 1, 2, 3, 4, 5, 6, 7] := rfl
  simp only [hr, rbits, rbit_play, Course.after_after, later_later]
  rfl

theorem xferIn_play (last : Bool) (k : Byte → Prog) : (xferIn c b last k).play ph look =
    ((k (assemble (Config.order b) (readBits look))).play ph (later 62 look)).after
      (readEvents b c.tHalf (readBits look) last) := by
  rw [xferIn, rbits_eight_play, wbit_play, Course.after_after, later_later]; rfl

theorem startCondition_play (k : Prog) : (startCondition c b k).play ph look =
    (k.play ph (later 3 look)).after (startEvents b c.tHalf true) := rfl

theorem restart_play (k : Prog) : (restart c b (startCondition c b k)).play ph look =
    (k.play ph (later 8 look)).after (startEvents b c.tHalf false) := rfl

/-- Micro-steps of a start condition, with the repeated start's before it unless the bus was idle (R131). -/
def startLength (ph : Phase) : Nat := if ph = .idle then 3 else 8

theorem startSeq_play_bare (addr : BitVec 7) (rw : Bool) (k : Bool → Prog) :
    (startSeq c b false addr rw k).play ph look =
      ((k true).play .started (later (startLength ph + 1) look)).after (startEvents b c.tHalf (ph == .idle)) := by
  cases ph <;> rfl

theorem startSeq_play_addressed (addr : BitVec 7) (rw : Bool) (k : Bool → Prog) :
    (startSeq c b true addr rw k).play ph look =
      ((k (acked (look (startLength ph + 54)))).play .addrSent (later (startLength ph + 56) look)).after
        (startEvents b c.tHalf (ph == .idle) ++
          xferOutEvents b c.tHalf (addressByte addr rw) (look (startLength ph + 54))) := by
  have key : ∀ look : Nat → Bool, Prog.play (.act (.phase b .addrSent) (xferOut c b (addressByte addr rw) k)) ph look =
      ((k (acked (look 54))).play .addrSent (later 56 look)).after
        (xferOutEvents b c.tHalf (addressByte addr rw) (look 54)) := by
    intro look
    show (Prog.play (xferOut c b (addressByte addr rw) k) .addrSent (later 1 look)).after [] = _
    rw [xferOut_play, Course.after_nil, later_later]; rfl
  have e : Prog.play (startSeq c b true addr rw k) ph look = Prog.play (bif ph == .idle then
      startCondition c b (.act (.phase b .addrSent) (xferOut c b (addressByte addr rw) k))
      else restart c b (startCondition c b (.act (.phase b .addrSent) (xferOut c b (addressByte addr rw) k)))) ph look := rfl
  rw [e]
  by_cases hi : ph = .idle
  · subst hi
    show Prog.play (startCondition c b _) _ _ = _
    rw [startCondition_play, key, later_later, Course.after_after]; rfl
  · have h1 : (ph == .idle) = false := beq_eq_false_iff_ne.2 hi
    rw [h1]
    show Prog.play (restart c b (startCondition c b _)) _ _ = _
    have hl : startLength ph = 8 := if_neg hi
    rw [restart_play, key, later_later, Course.after_after, hl]; rfl

theorem writeSeq_play (x : Byte) (k : Bool → Prog) : (writeSeq c b x k).play ph look =
    ((k (acked (look 53))).play .transfer (later (bif look 53 then 57 else 56) look)).after
      (writeEvents b c.tHalf x (look 53)) := by
  rw [writeSeq, xferOut_play]
  cases h : look 53 with
  | true =>
    show ((Prog.play (k false) .transfer (later 2 (later 55 look))).after [.ackFail b x]).after _ = _
    rw [Course.after_after, later_later]; rfl
  | false =>
    show ((Prog.play (k true) .transfer (later 1 (later 55 look))).after []).after _ = _
    rw [Course.after_after, later_later]; rfl

theorem readSeq_play (last : Bool) (k : Byte → Prog) : (readSeq c b last k).play ph look =
    ((k (assemble (Config.order b) (readBits look))).play .transfer (later 63 look)).after
      (readEvents b c.tHalf (readBits look) last) := by
  rw [readSeq, xferIn_play]
  show ((Prog.play (k _) .transfer (later 1 (later 62 look))).after []).after _ = _
  rw [Course.after_after, later_later, List.append_nil]

theorem stopSeq_play (k : Prog) : (stopSeq c b k).play ph look =
    (k.play .idle (later 8 look)).after (stopEvents b c.tHalf c.tSettle) := rfl

end Sys2Proof.Machine
end

