-- ==== Sys2Proof/Laws/Adapters.lean ====
section
/-! SUPPORT. The courses of the adapters' sequences: RTC register framing (44_rtc.md R180 to R182), read-modify-write
(R190, R191) and the display's transactions (45_display.md R214). -/

namespace Sys2Proof.Machine

variable {c : Config} {look : Nat → Bool}

theorem rtcAbort_fine {k : Prog} {n : Nat} (h : k.Fine .rtc n false false) :
    (rtcAbort c k).Fine .rtc (n + 8) false false := by
  unfold rtcAbort
  cases c.abortSendsStop with
  | true => exact stopSeq_fine h
  | false => exact h.mono (by omega)

theorem readBurst_fine {n m : Nat} {k : List Byte → Prog} (h : ∀ d, (k d).Fine .rtc m false false) (d : List Byte) :
    (readBurst c n d k).Fine .rtc (m + 63 * n) false false := by
  induction n generalizing d with
  | zero => exact h _
  | succ n ih =>
    have := readSeq_fine (c := c) (b := .rtc) (last := n == 0) (k := fun v => readBurst c n (v :: d) k) fun v => ih (v :: d)
    exact this.mono (by omega)

theorem readRegs_fine {reg : Byte} {n m : Nat} {k : Option (List Byte) → Prog}
    (h : ∀ d, (k d).Fine .rtc m false false) : (readRegs c reg n k).Fine .rtc (m + 63 * n + 193) false false := by
  have h1 := fun d => stopSeq_fine (c := c) (h (some d))
  have h2 := readBurst_fine (c := c) (n := n) h1 []
  have h3 := startSeq_fine (c := c) (b := .rtc) (ha := true) (rw := true) (addr := c.rtcAddr) (n := m + 8 + 63 * n)
    (k := fun ok => bif !ok then rtcAbort c (k none) else readBurst c n [] fun d => stopSeq c .rtc (k (some d))) (by
    intro a
    cases a with
    | false => exact (rtcAbort_fine (h none)).mono (by omega)
    | true => exact h2)
  have h4 := writeSeq_fine (c := c) (b := .rtc) (x := reg) fun _ => h3
  have h5 := startSeq_fine (c := c) (b := .rtc) (ha := true) (rw := false) (addr := c.rtcAddr)
    (n := m + 8 + 63 * n + 64 + 57)
    (k := fun ok => bif !ok then rtcAbort c (k none) else writeSeq c .rtc reg fun _ =>
      startSeq c .rtc true c.rtcAddr true fun ok => bif !ok then rtcAbort c (k none) else
        readBurst c n [] fun d => stopSeq c .rtc (k (some d))) (by
    intro a
    cases a with
    | false => exact (rtcAbort_fine (h none)).mono (by omega)
    | true => exact h4)
  exact Prog.Fine.mono (p := readRegs c reg n k) h5 (by omega)

theorem writeBurst_fine {xs : List Byte} {m : Nat} {k : Prog} (h : k.Fine .rtc m false false) :
    (writeBurst c xs k).Fine .rtc (m + 57 * xs.length) false false := by
  induction xs with
  | nil => exact h
  | cons x xs ih =>
    have := writeSeq_fine (c := c) (b := .rtc) (x := x) fun _ => ih
    exact Prog.Fine.mono (p := writeBurst c (x :: xs) k) this (by simp only [List.length_cons]; omega)

theorem writeRegs_fine {reg : Byte} {data : List Byte} {m : Nat} {k : Bool → Prog}
    (h : ∀ ok, (k ok).Fine .rtc m false false) : (writeRegs c reg data k).Fine .rtc (m + 57 * data.length + 129) false false := by
  have h2 := writeBurst_fine (c := c) (xs := reg :: data) (stopSeq_fine (c := c) (h true))
  have h5 := startSeq_fine (c := c) (b := .rtc) (ha := true) (rw := false) (addr := c.rtcAddr)
    (n := m + 8 + 57 * (reg :: data).length)
    (k := fun ok => bif !ok then rtcAbort c (k false) else writeBurst c (reg :: data) (stopSeq c .rtc (k true))) (by
    intro a
    cases a with
    | false => exact (rtcAbort_fine (h false)).mono (by omega)
    | true => exact h2)
  exact Prog.Fine.mono (p := writeRegs c reg data k) h5 (by simp only [List.length_cons]; omega)

theorem updateReg_fine {reg : Byte} {f : Byte → Byte} {m : Nat} {k : Bool → Prog}
    (h : ∀ ok, (k ok).Fine .rtc m false false) : (updateReg c reg f k).Fine .rtc (m + 442) false false := by
  have := readRegs_fine (c := c) (reg := reg) (n := 1) (m := m + 186)
    (k := fun d => match d with | none => k false | some d => writeRegs c reg [f (burstByte d 0)] k) (by
    intro d
    cases d with
    | none => exact (h false).mono (by omega)
    | some d => exact Prog.Fine.mono (writeRegs_fine (c := c) (data := [f (burstByte d 0)]) h) (by simp))
  exact Prog.Fine.mono (p := updateReg c reg f k) this (by omega)

theorem dispBytes_fine {xs : List Byte} {m : Nat} {k : Prog} (h : k.Fine .disp m false false) :
    (dispBytes c xs k).Fine .disp (m + 57 * xs.length) false false := by
  induction xs with
  | nil => exact h
  | cons x xs ih =>
    have := writeSeq_fine (c := c) (b := .disp) (x := x) fun _ => ih
    exact Prog.Fine.mono (p := dispBytes c (x :: xs) k) this (by simp only [List.length_cons]; omega)

theorem dispTransaction_fine {xs : List Byte} {m : Nat} {k : Prog} (h : k.Fine .disp m false false) :
    (dispTransaction c xs k).Fine .disp (m + 57 * xs.length + 72) false false := by
  have := startSeq_fine (c := c) (b := .disp) (ha := false) (rw := false) (addr := c.rtcAddr)
    (k := fun _ => dispBytes c xs (stopSeq c .disp k)) fun _ => dispBytes_fine (stopSeq_fine (c := c) h)
  exact Prog.Fine.mono (p := dispTransaction c xs k) this (by omega)

theorem rtcAbort_play (k : Prog) : ∃ look', (rtcAbort c k).play .addrSent look =
    (k.play (abortPhase c) look').after (abortEvents c) := by
  unfold rtcAbort abortPhase abortEvents
  cases c.abortSendsStop with
  | true => exact ⟨_, stopSeq_play k⟩
  | false => exact ⟨look, rfl⟩

theorem readBurst_play (n : Nat) (done : List Byte) (ph : Phase) (look : Nat → Bool) (k : List Byte → Prog) :
    ∃ (sss : List (List Bool)) (ph' : Phase) (look' : Nat → Bool), sss.length = n ∧ (∀ ss ∈ sss, ss.length = 8) ∧
      (readBurst c n done k).play ph look =
        ((k (done.reverse ++ sss.map (assemble .msbFirst))).play ph' look').after (readBurstEvents .rtc c.tHalf sss) := by
  induction n generalizing done ph look with
  | zero => exact ⟨[], ph, look, rfl, by simp, by simp [readBurst, readBurstEvents]⟩
  | succ n ih =>
    obtain ⟨sss, ph', look', hl, h8, he⟩ := ih (assemble (Config.order .rtc) (readBits look) :: done) .transfer (later 63 look)
    refine ⟨readBits look :: sss, ph', look', by simp [hl], fun ss h => ?_, ?_⟩
    · rcases List.mem_cons.1 h with rfl | h
      · exact readBits_length _
      · exact h8 ss h
    · have hlast : (n == 0) = sss.isEmpty := by rw [← hl]; cases sss <;> rfl
      show Prog.play (readSeq c .rtc (n == 0) fun v => readBurst c n (v :: done) k) ph look = _
      rw [readSeq_play, he, Course.after_after, hlast]
      simp [readBurstEvents, Config.order]

theorem writeBurst_play (xs : List Byte) (ph : Phase) (look : Nat → Bool) (k : Prog) :
    ∃ (acks : List Bool) (ph' : Phase) (look' : Nat → Bool), acks.length = xs.length ∧
      (writeBurst c xs k).play ph look = (k.play ph' look').after (burstEvents .rtc c.tHalf (xs.zip acks)) := by
  induction xs generalizing ph look with
  | nil => exact ⟨[], ph, look, rfl, rfl⟩
  | cons x xs ih =>
    obtain ⟨acks, ph', look', hl, he⟩ := ih .transfer (later (bif look 53 then 57 else 56) look)
    refine ⟨look 53 :: acks, ph', look', by simp [hl], ?_⟩
    show Prog.play (writeSeq c .rtc x fun _ => writeBurst c xs k) ph look = _
    rw [writeSeq_play, he, Course.after_after]
    rfl

/-- A write of registers from an idle bus comes to one of its runs, then the rest (R181, R182). -/
theorem writeRegs_play (reg : Byte) (data : List Byte) (k : Bool → Prog) (look : Nat → Bool) :
    ∃ (evs : List Event) (ph : Phase) (ok : Bool) (look' : Nat → Bool), WriteRegsRun c reg data evs ph ok ∧
      (writeRegs c reg data k).play .idle look = ((k ok).play ph look').after evs := by
  have h0 : Prog.play (writeRegs c reg data k) .idle look = Prog.play (startSeq c .rtc true c.rtcAddr false fun ok =>
      bif !ok then rtcAbort c (k false) else writeBurst c (reg :: data) (stopSeq c .rtc (k true))) .idle look := rfl
  rw [h0, startSeq_play_addressed]
  generalize hb : look (startLength .idle + 54) = a
  cases a with
  | true =>
    obtain ⟨look', he⟩ := rtcAbort_play (c := c) (look := later (startLength .idle + 56) look) (k false)
    refine ⟨_, abortPhase c, false, look', Or.inl ⟨rfl, rfl, rfl⟩, ?_⟩
    show (Prog.play (rtcAbort c (k false)) .addrSent _).after _ = _
    rw [he, Course.after_after]; rfl
  | false =>
    obtain ⟨acks, ph', look', hl, he⟩ := writeBurst_play (c := c) (reg :: data) .addrSent
      (later (startLength .idle + 56) look) (stopSeq c .rtc (k true))
    refine ⟨_, .idle, true, later 8 look', Or.inr ⟨acks, by simpa using hl, rfl, rfl, rfl⟩, ?_⟩
    show (Prog.play (writeBurst c (reg :: data) _) .addrSent _).after _ = _
    rw [he, stopSeq_play, Course.after_after, Course.after_after]
    simp [addressedStartEvents]

/-- A read of registers from an idle bus comes to one of its runs, then the rest (R180, R182). -/
theorem readRegs_play (reg : Byte) (n : Nat) (k : Option (List Byte) → Prog) (look : Nat → Bool) :
    ∃ (evs : List Event) (ph : Phase) (d : Option (List Byte)) (look' : Nat → Bool), ReadRegsRun c reg n evs ph d ∧
      (readRegs c reg n k).play .idle look = ((k d).play ph look').after evs := by
  have h0 : Prog.play (readRegs c reg n k) .idle look = Prog.play (startSeq c .rtc true c.rtcAddr false fun ok =>
      bif !ok then rtcAbort c (k none) else writeSeq c .rtc reg fun _ => startSeq c .rtc true c.rtcAddr true fun ok =>
        bif !ok then rtcAbort c (k none) else readBurst c n [] fun d => stopSeq c .rtc (k (some d))) .idle look := rfl
  rw [h0, startSeq_play_addressed]
  generalize hb : look (startLength .idle + 54) = a
  cases a with
  | true =>
    obtain ⟨look', he⟩ := rtcAbort_play (c := c) (look := later (startLength .idle + 56) look) (k none)
    refine ⟨_, abortPhase c, none, look', Or.inl ⟨rfl, rfl, rfl⟩, ?_⟩
    show (Prog.play (rtcAbort c (k none)) .addrSent _).after _ = _
    rw [he, Course.after_after]; rfl
  | false =>
    show ∃ evs ph d look', _ ∧ (Prog.play (writeSeq c .rtc reg fun _ => startSeq c .rtc true c.rtcAddr true fun ok =>
        bif !ok then rtcAbort c (k none) else readBurst c n [] fun d => stopSeq c .rtc (k (some d))) .addrSent
        (later (startLength .idle + 56) look)).after _ = _
    rw [writeSeq_play, startSeq_play_addressed]
    generalize later (startLength .idle + 56) look 53 = w
    generalize later (bif w then 57 else 56) (later (startLength .idle + 56) look) = lk
    generalize hb2 : lk (startLength .transfer + 54) = a2
    cases a2 with
    | true =>
      obtain ⟨look', he⟩ := rtcAbort_play (c := c) (look := later (startLength .transfer + 56) lk) (k none)
      refine ⟨_, abortPhase c, none, look', Or.inr (Or.inl ⟨w, rfl, rfl, rfl⟩), ?_⟩
      show (((Prog.play (rtcAbort c (k none)) .addrSent _).after _).after _).after _ = _
      rw [he, Course.after_after, Course.after_after, Course.after_after]
      simp [addressedStartEvents, show (Phase.transfer == Phase.idle) = false from rfl]
    | false =>
      obtain ⟨sss, ph', look', hl, h8, he⟩ := readBurst_play (c := c) n [] .addrSent
        (later (startLength .transfer + 56) lk) fun d => stopSeq c .rtc (k (some d))
      refine ⟨_, .idle, some (sss.map (assemble .msbFirst)), later 8 look',
        Or.inr (Or.inr ⟨w, sss, hl, h8, rfl, rfl, rfl⟩), ?_⟩
      show (((Prog.play (readBurst c n [] _) .addrSent _).after _).after _).after _ = _
      rw [he, stopSeq_play, Course.after_after, Course.after_after, Course.after_after, Course.after_after]
      simp [addressedStartEvents, show (Phase.transfer == Phase.idle) = false from rfl]

/-- The bytes of a display transaction, with their acknowledgment samples (R214). -/
theorem dispBytes_play (xs : List Byte) (ph : Phase) (look : Nat → Bool) (k : Prog) :
    ∃ (acks : List Bool) (ph' : Phase) (look' : Nat → Bool), acks.length = xs.length ∧
      (dispBytes c xs k).play ph look = (k.play ph' look').after (burstEvents .disp c.tHalf (xs.zip acks)) := by
  induction xs generalizing ph look with
  | nil => exact ⟨[], ph, look, rfl, rfl⟩
  | cons x xs ih =>
    obtain ⟨acks, ph', look', hl, he⟩ := ih .transfer (later (bif look 53 then 57 else 56) look)
    refine ⟨look 53 :: acks, ph', look', by simp [hl], ?_⟩
    show Prog.play (writeSeq c .disp x fun _ => dispBytes c xs k) ph look = _
    rw [writeSeq_play, he, Course.after_after]
    rfl

/-- One display transaction from an idle bus (R214). -/
theorem dispTransaction_play (xs : List Byte) (k : Prog) (look : Nat → Bool) :
    ∃ (acks : List Bool) (look' : Nat → Bool), acks.length = xs.length ∧
      (dispTransaction c xs k).play .idle look = (k.play .idle look').after
        (startEvents .disp c.tHalf true ++ burstEvents .disp c.tHalf (xs.zip acks) ++
          stopEvents .disp c.tHalf c.tSettle) := by
  have h0 : Prog.play (dispTransaction c xs k) .idle look = Prog.play (startSeq c .disp false c.rtcAddr false fun _ =>
      dispBytes c xs (stopSeq c .disp k)) .idle look := rfl
  rw [h0, startSeq_play_bare]
  obtain ⟨acks, ph', look', hl, he⟩ := dispBytes_play (c := c) xs .started (later (startLength .idle + 1) look)
    (stopSeq c .disp k)
  refine ⟨acks, later 8 look', hl, ?_⟩
  rw [he, stopSeq_play, Course.after_after, Course.after_after]
  simp

end Sys2Proof.Machine
end

