-- ==== Sys2Proof/Laws/Bodies.lean ====
section
/-! SUPPORT. What any run can do, preempted, held or faulted (`run_keeps`), and that the sequence of each command acts
on its own bus alone (`bodyOf_on`). -/

namespace Sys2Proof.Machine

/-- Every micro-step of the sequence acts on bus `b` alone. -/
def Prog.On (b : Bus) : Prog → Prop
  | .ret _ => True
  | .act a rest => a.on b ∧ rest.On b
  | .sample b' _ rest => b' = b ∧ ∀ v, (rest v).On b
  | .ifIdle b' rest => b' = b ∧ ∀ v, (rest v).On b

theorem Prog.Fine.on {b : Bus} {p : Prog} {n : Nat} {x y : Bool} (h : p.Fine b n x y) : p.On b := by
  induction p generalizing n x y with
  | ret => trivial
  | act a rest ih =>
    cases n with
    | zero => exact absurd h (by simp [Prog.Fine])
    | succ n => exact ⟨h.1, ih h.2.2⟩
  | sample b' l rest ih =>
    cases n with
    | zero => exact absurd h (by simp [Prog.Fine])
    | succ n => exact ⟨h.1, fun v => ih v (h.2.2.2 v)⟩
  | ifIdle b' rest ih => exact ⟨h.1, fun v => ih v (h.2 v)⟩

/-- The rest of a sequence acts where the sequence does. -/
theorem Prog.On.after {b : Bus} {p : Prog} (h : p.On b) (trail : List Bool) : (p.after trail).On b := by
  induction p generalizing trail with
  | ret => cases trail <;> trivial
  | act a rest ih => cases trail with
    | nil => exact h
    | cons _ trail => exact ih h.2 trail
  | sample b' l rest ih => cases trail with
    | nil => exact h
    | cons v trail => exact ih v (h.2 v) trail
  | ifIdle b' rest ih => cases trail with
    | nil => exact h
    | cons v trail => exact ih v (h.2 v) trail

/-- What a run keeps: `P` while it goes on, `R` where it ends, is held, is preempted or faults. -/
theorem run_keeps {i : Instr} {b : Bus} {P R : State → Prop} (henv : ∀ s, P s → P s.envMove)
    (hact : ∀ a s t, Act.on b a → P s → a.effect s = .done t → P t)
    (hsample : ∀ l v s, P s → P (s.record (.sample b l v))) (hend : ∀ s r, P s → R ((s.acknowledge i r).finish b r))
    (hsuspend : ∀ s trail, P s → R (s.suspend { instr := i, trail := trail }))
    (hfires : ∀ s trail, P s → s.fires = true → R (s.suspend { instr := i, trail := trail }).startHandler)
    (hraise : ∀ s f, P s → R (s.raise f)) {p : Prog} (hp : p.On b) {trail : List Bool} {s : State} (h : P s) :
    R (run i b p trail s) := by
  induction p generalizing trail s with
  | ret r => exact hend s r h
  | act a rest ih =>
    simp only [run]
    have hm := henv s h
    cases hf : s.envMove.fires with
    | true => exact hfires _ _ hm hf
    | false =>
      simp only [cond_false]
      cases he : a.effect s.envMove with
      | done t => exact ih hp.2 (hact a _ t hp.1 hm he)
      | hold => exact hsuspend _ _ hm
      | fault f => exact hraise _ f hm
  | sample b' l rest ih =>
    obtain ⟨rfl, hr⟩ := hp
    simp only [run]
    have hm := henv s h
    cases hf : s.envMove.fires with
    | true => exact hfires _ _ hm hf
    | false => exact ih _ (hr _) (hsample l _ _ hm)
  | ifIdle b' rest ih => exact ih _ (hp.2 _) h

/-- A run of a well-behaved sequence never faults: what it keeps, `P` while it goes on and `R` where it ends, is held or
is preempted. -/
theorem run_fine_keeps {i : Instr} {b : Bus} {P R : State → Prop} (hsound : ∀ s, P s → configWf s.cfg = true ∧ s.pinsWf)
    (henv : ∀ s, P s → P s.envMove)
    (hact : ∀ a s t, Act.on b a → P s → a.effect s = .done t → P t)
    (hsample : ∀ l v s, P s → P (s.record (.sample b l v))) (hend : ∀ s r, P s → R ((s.acknowledge i r).finish b r))
    (hsuspend : ∀ s trail, P s → R (s.suspend { instr := i, trail := trail }))
    (hfires : ∀ s trail, P s → s.fires = true → R (s.suspend { instr := i, trail := trail }).startHandler)
    {p : Prog} {n : Nat} {c d : Bool} (hp : p.Fine b n c d) {trail : List Bool} {s : State}
    (hscl : c = true → s.drivesLow b .scl = false) (h : P s) : R (run i b p trail s) := by
  induction p generalizing n c d trail s with
  | ret r => exact hend s r h
  | act a rest ih =>
    cases n with
    | zero => exact absurd hp (by simp [Prog.Fine])
    | succ n =>
    obtain ⟨hon, hwait, hrest⟩ := hp
    simp only [run]
    have hm := henv s h
    have hcw := hsound _ hm
    cases hf : s.envMove.fires with
    | true => exact hfires _ _ hm hf
    | false =>
      simp only [cond_false]
      cases he : a.effect s.envMove with
      | done t =>
        refine ih hrest (fun hc => ?_) (hact a _ t hon hm he)
        have hd : s.envMove.drivesLow b .scl = s.drivesLow b .scl := rfl
        cases a with
        | driveLow b' l =>
          obtain rfl : b' = b := hon
          cases he
          rw [State.drivesLow_driveLow hcw.1 hcw.2, hd]
          cases l <;> cases c <;> simp_all [Act.freeAfter]
        | release b' l =>
          obtain rfl : b' = b := hon
          cases he
          rw [State.drivesLow_release hcw.1 hcw.2, hd]
          cases l <;> cases c <;> simp_all [Act.freeAfter]
        | waitHigh b' =>
          simp only [Act.effect] at he
          split_ifs at he
          cases he
          exact hscl hc
        | delay => cases he; exact hscl hc
        | phase => cases he; exact hscl hc
        | ackFail => cases he; exact hscl hc
      | hold => exact hsuspend _ _ hm
      | fault f =>
        cases a with
        | waitHigh b' =>
          obtain rfl : b' = b := hon
          have hd : s.envMove.drivesLow b' .scl = false := hscl (hwait rfl)
          unfold Act.effect at he
          simp only [hd, Bool.false_eq_true, if_false] at he
          split at he <;> cases he
        | driveLow => cases he
        | release => cases he
        | delay => cases he
        | phase => cases he
        | ackFail => cases he
  | sample b' l rest ih =>
    cases n with
    | zero => exact absurd hp (by simp [Prog.Fine])
    | succ n =>
    obtain ⟨rfl, rfl, hd1, hrest⟩ := hp
    simp only [run]
    have hm := henv s h
    cases hf : s.envMove.fires with
    | true => exact hfires _ _ hm hf
    | false => exact ih _ (hrest _) hscl (hsample .sda _ _ hm)
  | ifIdle b' rest ih => exact ih _ (hp.2 _) hscl h

theorem ret_fine {b : Bus} {r : Result} {n : Nat} {x y : Bool} : (Prog.ret r).Fine b n x y := trivial

theorem writeRegs_ret_fine {c : Config} {reg : Byte} {data : List Byte} (h : data.length ≤ 4) :
    (writeRegs c reg data fun ok => .ret (.ok ok)).Fine .rtc longest false false :=
  (writeRegs_fine (m := 0) fun _ => ret_fine).mono (by unfold longest; omega)

theorem readRegs_ret_fine {c : Config} {reg : Byte} {n : Nat} {f : List Byte → Result} (h : n ≤ 7) :
    (readRegs c reg n (readResult f)).Fine .rtc longest false false :=
  (readRegs_fine (m := 0) fun d => by cases d <;> exact ret_fine).mono (by unfold longest; omega)

theorem ackAlarm_fine {c : Config} : (ackAlarmSeq c).Fine .rtc 442 false false := by
  have := updateReg_fine (c := c) (reg := c.regStatus) (f := (clearFlag · c.a1fBit)) (m := 0)
    (k := fun ok => .ret (.ok ok)) fun _ => ret_fine
  exact this.mono (by omega)

theorem armAlarm_fine {c : Config} : (rtcArmAlarmBody c).Fine .rtc longest false false := by
  have h1 := updateReg_fine (c := c) (reg := c.regControl) (f := (setFlag · c.a1ieBit)) (m := 442)
    (k := fun ok => bif !ok then .ret (.ok false) else ackAlarmSeq c) (by
    intro ok
    cases ok with
    | true => exact ackAlarm_fine
    | false => exact ret_fine)
  have h2 := writeRegs_fine (c := c) (reg := c.regAlarm1) (data := alarmBytes c) (m := 884)
    (k := fun ok => bif !ok then .ret (.ok false) else updateReg c c.regControl (setFlag · c.a1ieBit) fun ok =>
      bif !ok then .ret (.ok false) else ackAlarmSeq c) (by
    intro ok
    cases ok with
    | true => exact h1.mono (by omega)
    | false => exact ret_fine)
  exact Prog.Fine.mono (p := rtcArmAlarmBody c) h2 (by simp [alarmBytes, longest])

theorem dispShowFrame_fine {c : Config} {s0 s1 s2 s3 : Byte} {br : BitVec 3} :
    (dispShowFrameBody c s0 s1 s2 s3 br).Fine .disp longest false false := by
  have := dispTransaction_fine (c := c) (xs := [Config.dispCmdAutoInc])
    (dispTransaction_fine (c := c) (xs := [Config.dispCmdAddr0, s0, s1, s2, s3])
      (dispTransaction_fine (c := c) (xs := [dispControl br]) (m := 0) (k := .ret .nothing) ret_fine))
  exact Prog.Fine.mono (p := dispShowFrameBody c s0 s1 s2 s3 br) this (by simp [longest])

/-- The sequence of each command acts on the bus the command touches, and on no other (R31). -/
theorem bodyOf_on {c : Config} {i : Instr} {b : Bus} {p : Prog} (h : bodyOf c i = some (b, p)) : p.On b := by
  cases i <;> simp only [bodyOf, Option.some.injEq, Prod.mk.injEq, reduceCtorEq] at h <;> obtain ⟨rfl, rfl⟩ := h
  case lineDriveLow => exact ⟨rfl, trivial⟩
  case lineRelease => exact ⟨rfl, trivial⟩
  case lineRead => exact ⟨rfl, fun _ => trivial⟩
  case sclWaitHigh => exact ⟨rfl, trivial⟩
  case halfDelay => exact ⟨trivial, trivial⟩
  case busInit => exact ⟨rfl, rfl, rfl, trivial⟩
  case busStart => exact (startSeq_fine (n := 0) fun _ => ret_fine).on
  case busWriteBit => exact (wbit_fine (n := 0) ret_fine).on
  case busReadBit => exact (rbit_fine (n := 0) fun _ => ret_fine).on
  case busWrite => exact (writeSeq_fine (n := 0) fun _ => ret_fine).on
  case busRead => exact (readSeq_fine (n := 0) fun _ => ret_fine).on
  case busStop => exact (stopSeq_fine (n := 0) ret_fine).on
  case rtcReadRegs => exact (readRegs_ret_fine (by omega)).on
  case rtcWriteRegs => exact (writeRegs_ret_fine (by simp [writeData])).on
  case rtcReadTime => exact (readRegs_ret_fine (by omega)).on
  case rtcWriteTime => exact (writeRegs_ret_fine (by simp)).on
  case rtcReadDate => exact (readRegs_ret_fine (by omega)).on
  case rtcWriteDate => exact (writeRegs_ret_fine (by simp)).on
  case rtcReadTemp => exact (readRegs_ret_fine (by omega)).on
  case rtcInit => exact (writeRegs_ret_fine (by simp)).on
  case rtcArmAlarm => exact armAlarm_fine.on
  case rtcAckAlarm => exact ackAlarm_fine.on
  case dispShowFrame => exact dispShowFrame_fine.on

/-- The bus of a command's sequence is the bus the command touches (R31). -/
theorem touches_of_bodyOf {c : Config} {i : Instr} {b : Bus} {p : Prog} (h : bodyOf c i = some (b, p)) :
    touches i = some b := by
  cases i <;> simp only [bodyOf, Option.some.injEq, Prod.mk.injEq, reduceCtorEq] at h <;> obtain ⟨rfl, rfl⟩ := h <;> rfl

/-- Every command that touches a bus has a sequence on it. -/
theorem bodyOf_of_touches {c : Config} {i : Instr} {b : Bus} (h : touches i = some b) : ∃ p, bodyOf c i = some (b, p) := by
  cases i <;> simp only [touches, Option.some.injEq, reduceCtorEq] at h <;> subst h <;> exact ⟨_, rfl⟩

/-- What a bus command's own rule requires of the phase (R138, R182, R214). -/
def needOf (i : Instr) : Need :=
  if needsTransaction i then .openTransaction else if needsIdle i then .idle else .anyPhase

theorem wellFormed_readDomain {reg : Byte} {n : BitVec 3} : (Instr.rtcReadRegs reg n).wellFormed = readDomain n := rfl

theorem wellFormed_writeDomain {reg d0 d1 d2 d3 : Byte} {n : BitVec 3} :
    (Instr.rtcWriteRegs reg n d0 d1 d2 d3).wellFormed = writeDomain n [d0, d1, d2, d3] := by
  have key : ∀ k, (1 ≤ k && k ≤ 4 && (2 ≤ k || d1 == 0) && (3 ≤ k || d2 == 0) && (4 ≤ k || d3 == 0)) =
      (decide (1 ≤ k) && decide (k ≤ 4) && ([d0, d1, d2, d3].drop k).all (· == 0)) := by
    intro k
    match k with
    | 0 => rfl
    | 1 => simp [Bool.and_assoc]
    | 2 => simp
    | 3 => simp
    | 4 => simp
    | k + 5 => simp
  exact key n.toNat

theorem wellFormed_writeTime {h m s : Byte} :
    (Instr.rtcWriteTime h m s).wellFormed = (bcdDomain h && bcdDomain m && bcdDomain s) := rfl

theorem wellFormed_writeDate {d m : Byte} {y : BitVec 16} :
    (Instr.rtcWriteDate d m y).wellFormed = (bcdDomain d && bcdDomain m && yearDomain y) := rfl

/-- A command that touches a bus is begun by the ownership check, its phase precondition and its sequence (R31, R138). -/
theorem exec_bus {i : Instr} {s : State} {b : Bus} {p : Prog} (hb : bodyOf s.cfg i = some (b, p))
    (hw : i.wellFormed = true) : exec i s = .next (busCommand i b (needOf i) p s) := by
  cases i <;> simp only [bodyOf, Option.some.injEq, Prod.mk.injEq, reduceCtorEq] at hb <;> obtain ⟨rfl, rfl⟩ := hb
  case rtcReadRegs =>
    simp only [exec, execRtcReadRegs, wellFormed_readDomain.symm.trans hw, cond_true]
    rfl
  case rtcWriteRegs =>
    simp only [exec, execRtcWriteRegs, wellFormed_writeDomain.symm.trans hw, cond_true]
    rfl
  case rtcWriteTime =>
    simp only [exec, execRtcWriteTime, wellFormed_writeTime.symm.trans hw, cond_true]
    rfl
  case rtcWriteDate =>
    simp only [exec, execRtcWriteDate, wellFormed_writeDate.symm.trans hw, cond_true]
    rfl
  all_goals rfl

end Sys2Proof.Machine
end

