-- ==== Sys2Proof/Laws/Decode.lean ====
section
/-! SUPPORT. The bit fields of a command word: a field of a word put together from fields, and a word put together
from its own fields (30_encoding.md R70, R71). -/

namespace Sys2Proof

theorem getLsbD_placed {n : Nat} (v : BitVec n) (lo k : Nat) :
    (placed v lo).getLsbD k = (decide (k < 64) && (decide (lo ≤ k) && v.getLsbD (k - lo))) := by
  unfold placed
  rw [BitVec.getLsbD_shiftLeft, BitVec.getLsbD_setWidth]
  by_cases h1 : k < 64
  · by_cases h2 : lo ≤ k
    · have h3 : ¬ k < lo := by omega
      have h4 : k - lo < 64 := by omega
      simp [h1, h2, h3, h4]
    · have h3 : k < lo := by omega
      simp [h1, h2, h3]
  · simp [h1]

theorem placedBit_eq (v : Bool) (i : Nat) : placedBit v i = placed (BitVec.ofBool v) i := rfl

theorem getLsbD_placedBit (v : Bool) (i k : Nat) : (placedBit v i).getLsbD k = (decide (k < 64) && (decide (k = i) && v)) := by
  rw [placedBit_eq, getLsbD_placed]
  by_cases h : k = i
  · subst h; simp
  · by_cases h2 : i ≤ k
    · have : k - i ≠ 0 := by omega
      simp [h, h2, this, BitVec.getLsbD_ofBool]
    · simp [h, h2]

theorem getLsbD_field (w : CmdWord) (lo n k : Nat) : (field w lo n).getLsbD k = (decide (k < n) && w.getLsbD (lo + k)) := by
  unfold field
  rw [BitVec.getLsbD_extractLsb']

/-- A field of two words put together. -/
theorem field_or (a b : CmdWord) (lo n : Nat) : field (a ||| b) lo n = field a lo n ||| field b lo n := by
  apply BitVec.eq_of_getLsbD_eq
  intro k hk
  rw [BitVec.getLsbD_or, getLsbD_field, getLsbD_field, getLsbD_field, BitVec.getLsbD_or]
  simp [hk]

/-- A field reads what was placed there. -/
theorem field_placed_self {n : Nat} (v : BitVec n) (lo : Nat) (h : lo + n ≤ 64) : field (placed v lo) lo n = v := by
  apply BitVec.eq_of_getLsbD_eq
  intro k hk
  rw [getLsbD_field, getLsbD_placed]
  have h1 : lo + k < 64 := by omega
  simp [hk, h1]

/-- A field reads 0 from what was placed elsewhere. -/
theorem field_placed_disjoint {n : Nat} (v : BitVec n) (lo lo' n' : Nat) (h : lo + n ≤ lo' ∨ lo' + n' ≤ lo) :
    field (placed v lo) lo' n' = 0 := by
  apply BitVec.eq_of_getLsbD_eq
  intro k hk
  rw [getLsbD_field, getLsbD_placed]
  rw [show (0 : BitVec n').getLsbD k = false from BitVec.getLsbD_zero]
  rcases h with h | h
  · have : v.getLsbD (lo' + k - lo) = false := BitVec.getLsbD_of_ge _ _ (by omega)
    simp [this]
  · have : ¬ lo ≤ lo' + k := by omega
    simp [this]

theorem field_placedBit_disjoint (v : Bool) (i lo' n' : Nat) (h : i < lo' ∨ lo' + n' ≤ i) :
    field (placedBit v i) lo' n' = 0 := field_placed_disjoint _ _ _ _ (by omega)

/-- A bit of two words put together. -/
theorem bitField_or (a b : CmdWord) (i : Nat) : bitField (a ||| b) i = (bitField a i || bitField b i) :=
  BitVec.getLsbD_or

theorem bitField_placedBit_self (v : Bool) (i : Nat) (h : i < 64) : bitField (placedBit v i) i = v := by
  unfold bitField; rw [getLsbD_placedBit]; simp [h]

theorem bitField_placedBit_ne (v : Bool) (i j : Nat) (h : j ≠ i) : bitField (placedBit v i) j = false := by
  unfold bitField; rw [getLsbD_placedBit]; simp [h]

theorem bitField_placed_disjoint {n : Nat} (v : BitVec n) (lo i : Nat) (h : i < lo ∨ lo + n ≤ i) :
    bitField (placed v lo) i = false := by
  unfold bitField; rw [getLsbD_placed]
  rcases h with h | h
  · have : ¬ lo ≤ i := by omega
    simp [this]
  · have : v.getLsbD (i - lo) = false := BitVec.getLsbD_of_ge _ _ (by omega)
    simp [this]

/-- What is placed lies in its field's mask. -/
theorem placed_and {n : Nat} (v : BitVec n) (lo : Nat) (m : CmdWord) (h : field m lo n = 0) : placed v lo &&& m = 0 := by
  apply BitVec.eq_of_getLsbD_eq
  intro k hk
  rw [BitVec.getLsbD_and, getLsbD_placed]
  rw [show (0 : CmdWord).getLsbD k = false from BitVec.getLsbD_zero]
  by_cases h1 : lo ≤ k ∧ k - lo < n
  · have : (field m lo n).getLsbD (k - lo) = false := by rw [h]; simp
    rw [getLsbD_field] at this
    have e : lo + (k - lo) = k := by omega
    simp [h1.2, e] at this
    simp [this]
  · by_cases h2 : lo ≤ k
    · have : v.getLsbD (k - lo) = false := BitVec.getLsbD_of_ge _ _ (by omega)
      simp [this]
    · simp [h2]

theorem placedBit_and (v : Bool) (i : Nat) (m : CmdWord) (h : bitField m i = false) : placedBit v i &&& m = 0 := by
  refine placed_and _ _ _ (BitVec.eq_of_getLsbD_eq fun k hk => ?_)
  have : k = 0 := by omega
  subst this
  rw [getLsbD_field]
  simpa [bitField] using h

/-- A field put back where it was read from is the word under the field's mask. -/
theorem placed_field (w : CmdWord) (lo n : Nat) : placed (field w lo n) lo = w &&& fieldMask lo n := by
  apply BitVec.eq_of_getLsbD_eq
  intro k hk
  rw [BitVec.getLsbD_and, fieldMask, getLsbD_placed, getLsbD_placed, getLsbD_field, BitVec.getLsbD_allOnes]
  by_cases h : lo ≤ k
  · have e : lo + (k - lo) = k := by omega
    rw [e]
    by_cases h2 : k - lo < n <;> simp [h, h2, hk]
  · simp [h]

theorem placedBit_bitField (w : CmdWord) (i : Nat) : placedBit (bitField w i) i = w &&& fieldMask i 1 := by
  apply BitVec.eq_of_getLsbD_eq
  intro k hk
  rw [BitVec.getLsbD_and, fieldMask, getLsbD_placed, getLsbD_placedBit, BitVec.getLsbD_allOnes, bitField]
  by_cases h : k = i
  · subst h; simp [hk]
  · by_cases h2 : i ≤ k
    · have : ¬ (k - i < 1) := by omega
      simp [h, this]
    · simp [h, h2]

theorem placedBus_busField (w : CmdWord) : placedBus (busField w) = w &&& fieldMask 48 1 := by
  rw [← placedBit_bitField]; unfold placedBus busField; cases bitField w 48 <;> rfl

theorem placedLine_lineField (w : CmdWord) : placedLine (lineField w) = w &&& fieldMask 49 1 := by
  rw [← placedBit_bitField]; unfold placedLine lineField; cases bitField w 49 <;> rfl

end Sys2Proof
end

