-- ==== Sys2Proof/Laws/Notify.lean ====
section
/-! SUPPORT. The notification of an unconstrained source (60_exceptions.md R240, R244, R245): pending is level-like, and no
micro-step, no environment's move and no end of a command but RTC_ACK_ALARM's clears it (log entry 12); and what a command
it preempts has done (log entry 13). -/

namespace Sys2Proof.Machine

/-- No expected RTC stands on bus 0, and the notification is pending. -/
def State.raised (s : State) : Prop := (∀ d, s.env.peers.rtc ≠ .rtc d) ∧ s.pending = true

variable {s t : State}

/-- Without an expected RTC the notification is pending as the source's present bit says. -/
theorem Peer.pending_of_ne_rtc {p : Peer} (h : ∀ d, p ≠ .rtc d) (c : Config) (v : Bool) : p.pending c v = v := by
  cases p with
  | rtc d => exact absurd rfl (h d)
  | free => rfl
  | absent => rfl
  | display d => rfl

theorem Peer.observe_ne_rtc {p : Peer} (h : ∀ d, p ≠ .rtc d) (c : Config) (x y : Bool) (d : RtcDevice) :
    p.observe c x y ≠ .rtc d := by
  cases p with
  | rtc d => exact absurd rfl (h d)
  | free => exact nofun
  | absent => exact nofun
  | display d => exact nofun

theorem Peer.setClock_ne_rtc {p : Peer} (h : ∀ d, p ≠ .rtc d) (c : Config) (v : Option Counters) : p.setClock c v = p := by
  cases p with
  | rtc d => exact absurd rfl (h d)
  | free => cases v <;> rfl
  | absent => cases v <;> rfl
  | display d => cases v <;> rfl

theorem State.raised_iff : s.raised ↔ (∀ d, s.env.peers.rtc ≠ .rtc d) ∧ s.env.now.pending = true := by
  unfold State.raised State.pending
  constructor <;> rintro ⟨h, hp⟩ <;> refine ⟨h, ?_⟩ <;> rw [Peer.pending_of_ne_rtc h] at * <;> exact hp

/-- Nothing but the present pending bit and the peer of bus 0 bears on it. -/
theorem State.raised_congr (he : t.env = s.env) (h : s.raised) : t.raised := by
  rw [State.raised_iff] at *; rw [he]; exact h

theorem State.raised_envMove (h : s.raised) : s.envMove.raised := by
  rw [State.raised_iff] at *
  refine ⟨fun d => ?_, ?_⟩
  · show s.env.peers.rtc.setClock _ _ ≠ _
    rw [Peer.setClock_ne_rtc h.1]; exact h.1 d
  · show (s.env.upcoming.pending || s.env.now.pending) = true
    rw [h.2, Bool.or_true]

theorem State.raised_observe (h : s.raised) (b : Bus) : (s.observe b).raised := by
  rw [State.raised_iff] at *
  refine ⟨fun d => ?_, h.2⟩
  cases b with
  | rtc => exact Peer.observe_ne_rtc h.1 _ _ _ d
  | disp => exact h.1 d

theorem Act.raised_effect {a : Act} (h : s.raised) (he : a.effect s = .done t) : t.raised := by
  cases a with
  | driveLow b l =>
    cases he
    exact State.raised_observe
      (s := (s.setPin (pinOf s.cfg b l) { mode := .output, latch := false }).record (.driveLow b l))
      (State.raised_congr (s := s) rfl h) b
  | release b l =>
    cases he
    exact State.raised_observe
      (s := (s.setPin (pinOf s.cfg b l) { s.pin (pinOf s.cfg b l) with mode := .input }).record (.release b l))
      (State.raised_congr (s := s) rfl h) b
  | waitHigh b =>
    simp only [Act.effect] at he
    split_ifs at he
    cases he; exact State.raised_congr rfl h
  | delay n => cases he; exact State.raised_congr rfl h
  | phase b p => cases he; exact State.raised_congr rfl h
  | ackFail b x => cases he; exact State.raised_congr rfl h

/-- A run of a command that is neither RTC_ACK_ALARM nor RTC_ARM_ALARM leaves the notification pending. -/
theorem run_raised {i : Instr} {b : Bus} {p : Prog} {trail : List Bool} (h1 : i ≠ .rtcAckAlarm) (h2 : i ≠ .rtcArmAlarm)
    (hp : p.On b) (h : s.raised) : (run i b p trail s).raised := by
  refine run_keeps (P := State.raised) (R := State.raised) (fun _ h => State.raised_envMove h)
    (fun _ _ _ _ h he => Act.raised_effect h he) (fun _ _ _ h => State.raised_congr rfl h) (fun s r h => ?_)
    (fun _ _ h => State.raised_congr rfl h) (fun _ _ h _ => State.raised_congr rfl h) (fun _ _ h => State.raised_congr rfl h)
    hp h
  rw [State.raised_iff] at *
  refine ⟨h.1, ?_⟩
  have : clearsPending i r = false := by
    cases i <;> first | rfl | exact absurd rfl h1 | exact absurd rfl h2
  show (s.env.now.pending && !(clearsPending i r && s.env.now.cleared)) = true
  rw [this, h.2]; rfl

/-- With a raised notification that MAIN has not masked, the environment's choice alone decides (R245). -/
theorem State.fires_envMove (h : s.raised) (hm : s.masked = false) (hr : s.handlerRunning = false) :
    s.envMove.fires = (s.env.moveAt 0).fire := by
  have hp : s.envMove.pending = true := (State.raised_envMove h).2
  have h1 : s.envMove.masked = false := hm
  have h2 : s.envMove.handlerRunning = false := hr
  unfold State.fires
  rw [hp, h1, h2, Env.moveAt_zero]
  rfl

/-- A command of MAIN with micro-steps `acts` before it and at least one after them, preempted by a raised notification
before the micro-step that follows `acts`: those of `acts` are done, and the position counts them (R37, R245). -/
theorem run_preempted {i : Instr} {b : Bus} {a : Act} {rest : Prog} {acts : List Act} {n : Nat} {c d : Bool}
    {trail : List Bool} (hfine : (acts.foldr Prog.act (.ret .nothing)).Fine b n c d) (hcfg : configWf s.cfg = true)
    (hw : s.pinsWf) (hm : s.masked = false) (hh : s.handlerRunning = false) (h : s.raised)
    (hscl : c = true → s.drivesLow b .scl = false)
    (hfree : ∀ j, acts[j]? = some (.waitHigh b) → s.sclFree b j = true)
    (hquiet : ∀ j < acts.length, (s.env.moveAt j).fire = false) (hfire : (s.env.moveAt acts.length).fire = true) :
    ∃ m, Moved s m b (acts.flatMap Act.events) (acts.foldl Act.phaseAfter (s.phase.get b)) ∧ m.owner = s.owner ∧
      m.returned = s.returned ∧ run i b (acts.foldr Prog.act (.act a rest)) trail s =
        (m.suspend { instr := i, trail := trail.reverse ++ List.replicate acts.length true }).startHandler := by
  induction acts generalizing s n c d trail with
  | nil =>
    refine ⟨s.envMove, Moved.envMove hw b, rfl, rfl, ?_⟩
    have : s.envMove.fires = true := (State.fires_envMove h hm hh).trans hfire
    simp [run, this]
  | cons x acts ih =>
    cases n with
    | zero => exact absurd hfine (by simp [Prog.Fine])
    | succ n =>
    obtain ⟨hon, hwait, hrest⟩ := hfine
    have hf : s.envMove.fires = false := (State.fires_envMove h hm hh).trans (hquiet 0 (by simp))
    have hmv := Moved.envMove hw b
    obtain ⟨t, het, hmt, hse, hto, htr, htd⟩ := Act.effect_done (s := s.envMove) (b := b) (a := x) hcfg hw hon (by
      intro hx
      refine ⟨hscl (hwait hx), ?_⟩
      rw [State.level_scl_envMove, hscl (hwait hx), hfree 0 (by simp [hx])]; rfl)
    have hst := hmv.trans hmt
    have hmove : ∀ k, t.env.moveAt k = s.env.moveAt (k + 1) := fun k =>
      (hse.move k).trans (Env.moveAt_advance _ _ _)
    obtain ⟨m, hmoved, hmo, hmr, hrun⟩ := @ih t n _ _ (true :: trail) hrest (by rw [hst.host.1]; exact hcfg) hst.wf
      (by rw [hst.host.2.2.2.1]; exact hm) (by rw [hst.host.2.2.2.2.1]; exact hh)
      (Act.raised_effect (State.raised_envMove h) het)
      (fun hx => by
        rw [htd]
        cases hc : c with
        | true =>
          have : s.envMove.drivesLow b .scl = false := hscl hc
          rw [hc] at hx; rw [this]; simpa using hx
        | false =>
          rw [hc] at hx
          cases hs : s.envMove.drivesLow b .scl with
          | true => simpa using hx
          | false =>
            have : x.freeAfter .scl true = true := by revert hx; cases x <;> simp [Act.freeAfter]
            simpa using this)
      (fun j hj => by rw [hse.sclFree, State.sclFree_envMove]; exact hfree (j + 1) (by simpa using hj))
      (fun j hj => by rw [hmove]; exact hquiet (j + 1) (by simpa using hj)) (by rw [hmove]; exact hfire)
    have hph : t.phase.get b = x.phaseAfter (s.phase.get b) := by rw [hmt.phase]; simp
    rw [hph] at hmoved
    refine ⟨m, hst.trans hmoved, hmo.trans hto, hmr.trans htr, ?_⟩
    show run i b (.act x (acts.foldr Prog.act (.act a rest))) trail s = _
    simp only [run, hf, het, cond_false]
    rw [hrun, List.length_cons, List.replicate_succ, List.reverse_cons, List.append_assoc]
    rfl

end Sys2Proof.Machine
end

