-- ==== Sys2Proof/Laws/Peers.lean ====
section
/-! SUPPORT. The expected peers (44_rtc.md R192, 45_display.md R215) keep their memories canonical, whatever they see. -/

namespace Sys2Proof.Machine

theorem RtcDevice.regs_wf_store {c : Config} {d : RtcDevice} (h : d.regs.wf = true) (x : Byte) :
    (d.store c x).regs.wf = true := Memory.wf_write _ _ h

theorem RtcDevice.regs_wf_onByte {c : Config} {d : RtcDevice} (h : d.regs.wf = true) : (d.onByte c).regs.wf = true := by
  unfold RtcDevice.onByte
  cases d.stage with
  | address => simp only; split_ifs <;> exact h
  | pointer => exact h
  | data => exact RtcDevice.regs_wf_store h _
  | reading => exact h

theorem RtcDevice.regs_wf_onFall {c : Config} {d : RtcDevice} (h : d.regs.wf = true) : (d.onFall c).regs.wf = true := by
  unfold RtcDevice.onFall
  cases d.wire.link with
  | idle => exact h
  | receive =>
    simp only
    split_ifs
    · exact RtcDevice.regs_wf_onByte h
    · cases d.stage <;> exact h
    · exact h
  | send => simp only; split_ifs <;> exact h

theorem RtcDevice.regs_wf_observe {c : Config} {d : RtcDevice} (h : d.regs.wf = true) (x y : Bool) :
    (d.observe c x y).regs.wf = true := by
  unfold RtcDevice.observe
  cases d.wire.edge x y with
  | fall => exact RtcDevice.regs_wf_onFall h
  | start => exact h
  | stop => exact h
  | rise => exact h
  | none => exact h

theorem RtcDevice.regs_wf_setClock {c : Config} {d : RtcDevice} (h : d.regs.wf = true) (t : Counters) :
    (d.setClock c t).regs.wf = true := by
  have h6 := Memory.wf_write c.regYear t.year (Memory.wf_write c.regMonth t.month (Memory.wf_write c.regDay t.day
    (Memory.wf_write c.regHours t.hour (Memory.wf_write c.regMinutes t.minute (Memory.wf_write c.regSeconds t.second h)))))
  unfold RtcDevice.setClock
  simp only
  cases (alarmMatches _ _ _ && alarmMatches _ _ _ && alarmMatches _ _ _ && alarmMatches _ _ _) with
  | true => exact Memory.wf_write _ _ h6
  | false => exact h6

theorem DisplayDevice.segments_command (d : DisplayDevice) (x : Byte) : (d.command x).segments = d.segments := by
  unfold DisplayDevice.command; split_ifs <;> rfl

theorem DisplayDevice.segments_wf_onFall {d : DisplayDevice} (h : d.segments.wf = true) : d.onFall.segments.wf = true := by
  unfold DisplayDevice.onFall
  cases d.wire.link with
  | idle => exact h
  | send => exact h
  | receive =>
    simp only
    split_ifs
    · unfold DisplayDevice.onByte
      cases d.atCommand with
      | true => show (d.command _).segments.wf = true; rw [DisplayDevice.segments_command]; exact h
      | false => exact Memory.wf_write _ _ h
    · exact h
    · exact h

theorem DisplayDevice.segments_wf_observe {d : DisplayDevice} (h : d.segments.wf = true) (x y : Bool) :
    (d.observe x y).segments.wf = true := by
  unfold DisplayDevice.observe
  cases d.wire.edge x y with
  | fall => exact DisplayDevice.segments_wf_onFall h
  | start => exact h
  | stop => exact h
  | rise => exact h
  | none => exact h

theorem Peer.memWf_observe {p : Peer} (h : p.memWf = true) (c : Config) (x y : Bool) : (p.observe c x y).memWf = true := by
  cases p with
  | free => rfl
  | absent => rfl
  | rtc d => exact RtcDevice.regs_wf_observe (d := d) h x y
  | display d => exact DisplayDevice.segments_wf_observe (d := d) h x y

theorem Peer.memWf_setClock {p : Peer} (h : p.memWf = true) (c : Config) (t : Option Counters) :
    (p.setClock c t).memWf = true := by
  cases p with
  | free => cases t <;> exact h
  | absent => cases t <;> exact h
  | display d => cases t <;> exact h
  | rtc d =>
    cases t with
    | none => exact h
    | some t => exact RtcDevice.regs_wf_setClock (d := d) h t

/-- A peer that is no RTC has no clock to set. -/
theorem Peer.setClock_of_not_rtc {p : Peer} (h : ∀ d, p ≠ .rtc d) (c : Config) (t : Option Counters) :
    p.setClock c t = p := by
  cases p <;> cases t <;> first | rfl | exact absurd rfl (h _)

end Sys2Proof.Machine
end

