-- ==== Sys2Proof/Laws/PerInstr.lean ====
section
/-! SUPPORT. The statement every instruction satisfies as syntax: its command word selects the row of opcode_table.json
it belongs to, opcode and reserved bits (30_encoding.md R70 to R72, R74). -/

namespace Sys2Proof.Laws.RowSelect

open Sys2Proof.Machine

/-- The command's word agrees with its row's `match` under the row's `mask`. -/
def Statement (i : Instr) : Prop := encode i &&& (tableRow i).2 = (tableRow i).1

/-- A word whose operand fields avoid the mask selects the row its opcode selects. -/
theorem of_operands {i : Instr} (hop : placed (opcodeOf i) 56 &&& (tableRow i).2 = (tableRow i).1)
    (hf : operandsOf i &&& (tableRow i).2 = 0) : Statement i := by
  unfold Statement encode
  rw [BitVec.and_or_distrib_right, hop, hf]
  exact BitVec.or_zero

/-- Two operand parts avoid a mask together. -/
theorem or_and {a b m : CmdWord} (ha : a &&& m = 0) (hb : b &&& m = 0) : (a ||| b) &&& m = 0 := by
  rw [BitVec.and_or_distrib_right, ha, hb]
  exact BitVec.or_zero

theorem pinValid (pin : Byte) : Statement (.pinValid pin) :=
  of_operands (by dsimp only [opcodeOf, tableRow]; decide) (by
    dsimp only [operandsOf, tableRow]
    exact placed_and _ _ _ (by decide))

theorem pinSetMode (pin : Byte) (v : Bool) : Statement (.pinSetMode pin v) :=
  of_operands (by dsimp only [opcodeOf, tableRow]; decide) (by
    dsimp only [operandsOf, tableRow]
    exact or_and (placed_and _ _ _ (by decide)) (placedBit_and _ _ _ (by decide)))

theorem pinWrite (pin : Byte) (v : Bool) : Statement (.pinWrite pin v) :=
  of_operands (by dsimp only [opcodeOf, tableRow]; decide) (by
    dsimp only [operandsOf, tableRow]
    exact or_and (placed_and _ _ _ (by decide)) (placedBit_and _ _ _ (by decide)))

theorem pinRead (pin : Byte) : Statement (.pinRead pin) :=
  of_operands (by dsimp only [opcodeOf, tableRow]; decide) (by
    dsimp only [operandsOf, tableRow]
    exact placed_and _ _ _ (by decide))

theorem lineDriveLow (bus : Bus) (line : Line) : Statement (.lineDriveLow bus line) :=
  of_operands (by dsimp only [opcodeOf, tableRow]; decide) (by
    dsimp only [operandsOf, tableRow]
    exact or_and (placedBit_and _ _ _ (by decide)) (placedBit_and _ _ _ (by decide)))

theorem lineRelease (bus : Bus) (line : Line) : Statement (.lineRelease bus line) :=
  of_operands (by dsimp only [opcodeOf, tableRow]; decide) (by
    dsimp only [operandsOf, tableRow]
    exact or_and (placedBit_and _ _ _ (by decide)) (placedBit_and _ _ _ (by decide)))

theorem lineRead (bus : Bus) (line : Line) : Statement (.lineRead bus line) :=
  of_operands (by dsimp only [opcodeOf, tableRow]; decide) (by
    dsimp only [operandsOf, tableRow]
    exact or_and (placedBit_and _ _ _ (by decide)) (placedBit_and _ _ _ (by decide)))

theorem sclWaitHigh (bus : Bus) : Statement (.sclWaitHigh bus) :=
  of_operands (by dsimp only [opcodeOf, tableRow]; decide) (by
    dsimp only [operandsOf, tableRow]
    exact placedBit_and _ _ _ (by decide))

theorem halfDelay (bus : Bus) : Statement (.halfDelay bus) :=
  of_operands (by dsimp only [opcodeOf, tableRow]; decide) (by
    dsimp only [operandsOf, tableRow]
    exact placedBit_and _ _ _ (by decide))

theorem busInit (bus : Bus) : Statement (.busInit bus) :=
  of_operands (by dsimp only [opcodeOf, tableRow]; decide) (by
    dsimp only [operandsOf, tableRow]
    exact placedBit_and _ _ _ (by decide))

theorem busStart (bus : Bus) (ha : Bool) (addr : BitVec 7) (rw : Bool) : Statement (.busStart bus ha addr rw) :=
  of_operands (by dsimp only [opcodeOf, tableRow]; decide) (by
    dsimp only [operandsOf, tableRow]
    exact or_and (or_and (or_and (placedBit_and _ _ _ (by decide)) (placedBit_and _ _ _ (by decide))) (placed_and _ _ _ (by decide))) (placedBit_and _ _ _ (by decide)))

theorem busWriteBit (bus : Bus) (bit : Bool) : Statement (.busWriteBit bus bit) :=
  of_operands (by dsimp only [opcodeOf, tableRow]; decide) (by
    dsimp only [operandsOf, tableRow]
    exact or_and (placedBit_and _ _ _ (by decide)) (placedBit_and _ _ _ (by decide)))

theorem busReadBit (bus : Bus) : Statement (.busReadBit bus) :=
  of_operands (by dsimp only [opcodeOf, tableRow]; decide) (by
    dsimp only [operandsOf, tableRow]
    exact placedBit_and _ _ _ (by decide))

theorem busWrite (bus : Bus) (byte : Byte) : Statement (.busWrite bus byte) :=
  of_operands (by dsimp only [opcodeOf, tableRow]; decide) (by
    dsimp only [operandsOf, tableRow]
    exact or_and (placedBit_and _ _ _ (by decide)) (placed_and _ _ _ (by decide)))

theorem busRead (bus : Bus) (last : Bool) : Statement (.busRead bus last) :=
  of_operands (by dsimp only [opcodeOf, tableRow]; decide) (by
    dsimp only [operandsOf, tableRow]
    exact or_and (placedBit_and _ _ _ (by decide)) (placedBit_and _ _ _ (by decide)))

theorem busStop (bus : Bus) : Statement (.busStop bus) :=
  of_operands (by dsimp only [opcodeOf, tableRow]; decide) (by
    dsimp only [operandsOf, tableRow]
    exact placedBit_and _ _ _ (by decide))

theorem bcdEncode (x : Byte) : Statement (.bcdEncode x) :=
  of_operands (by dsimp only [opcodeOf, tableRow]; decide) (by
    dsimp only [operandsOf, tableRow]
    exact placed_and _ _ _ (by decide))

theorem bcdDecode (x : Byte) : Statement (.bcdDecode x) :=
  of_operands (by dsimp only [opcodeOf, tableRow]; decide) (by
    dsimp only [operandsOf, tableRow]
    exact placed_and _ _ _ (by decide))

theorem yearEncode (year : BitVec 16) : Statement (.yearEncode year) :=
  of_operands (by dsimp only [opcodeOf, tableRow]; decide) (by
    dsimp only [operandsOf, tableRow]
    exact placed_and _ _ _ (by decide))

theorem yearDecode (yb : Byte) (cen : Bool) : Statement (.yearDecode yb cen) :=
  of_operands (by dsimp only [opcodeOf, tableRow]; decide) (by
    dsimp only [operandsOf, tableRow]
    exact or_and (placed_and _ _ _ (by decide)) (placedBit_and _ _ _ (by decide)))

theorem tempDecode (msb lsb : Byte) : Statement (.tempDecode msb lsb) :=
  of_operands (by dsimp only [opcodeOf, tableRow]; decide) (by
    dsimp only [operandsOf, tableRow]
    exact or_and (placed_and _ _ _ (by decide)) (placed_and _ _ _ (by decide)))

theorem rtcReadRegs (reg : Byte) (n : BitVec 3) : Statement (.rtcReadRegs reg n) :=
  of_operands (by dsimp only [opcodeOf, tableRow]; decide) (by
    dsimp only [operandsOf, tableRow]
    exact or_and (placed_and _ _ _ (by decide)) (placed_and _ _ _ (by decide)))

theorem rtcWriteRegs (reg : Byte) (n : BitVec 3) (data0 data1 data2 data3 : Byte) : Statement (.rtcWriteRegs reg n data0 data1 data2 data3) :=
  of_operands (by dsimp only [opcodeOf, tableRow]; decide) (by
    dsimp only [operandsOf, tableRow]
    exact or_and (or_and (or_and (or_and (or_and (placed_and _ _ _ (by decide)) (placed_and _ _ _ (by decide))) (placed_and _ _ _ (by decide))) (placed_and _ _ _ (by decide))) (placed_and _ _ _ (by decide))) (placed_and _ _ _ (by decide)))

theorem rtcReadTime : Statement (.rtcReadTime) :=
  of_operands (by dsimp only [opcodeOf, tableRow]; decide) (by
    dsimp only [operandsOf, tableRow]
    exact BitVec.zero_and)

theorem rtcWriteTime (hour min sec : Byte) : Statement (.rtcWriteTime hour min sec) :=
  of_operands (by dsimp only [opcodeOf, tableRow]; decide) (by
    dsimp only [operandsOf, tableRow]
    exact or_and (or_and (placed_and _ _ _ (by decide)) (placed_and _ _ _ (by decide))) (placed_and _ _ _ (by decide)))

theorem rtcReadDate : Statement (.rtcReadDate) :=
  of_operands (by dsimp only [opcodeOf, tableRow]; decide) (by
    dsimp only [operandsOf, tableRow]
    exact BitVec.zero_and)

theorem rtcWriteDate (day month : Byte) (year : BitVec 16) : Statement (.rtcWriteDate day month year) :=
  of_operands (by dsimp only [opcodeOf, tableRow]; decide) (by
    dsimp only [operandsOf, tableRow]
    exact or_and (or_and (placed_and _ _ _ (by decide)) (placed_and _ _ _ (by decide))) (placed_and _ _ _ (by decide)))

theorem rtcReadTemp : Statement (.rtcReadTemp) :=
  of_operands (by dsimp only [opcodeOf, tableRow]; decide) (by
    dsimp only [operandsOf, tableRow]
    exact BitVec.zero_and)

theorem rtcInit : Statement (.rtcInit) :=
  of_operands (by dsimp only [opcodeOf, tableRow]; decide) (by
    dsimp only [operandsOf, tableRow]
    exact BitVec.zero_and)

theorem rtcArmAlarm : Statement (.rtcArmAlarm) :=
  of_operands (by dsimp only [opcodeOf, tableRow]; decide) (by
    dsimp only [operandsOf, tableRow]
    exact BitVec.zero_and)

theorem rtcAckAlarm : Statement (.rtcAckAlarm) :=
  of_operands (by dsimp only [opcodeOf, tableRow]; decide) (by
    dsimp only [operandsOf, tableRow]
    exact BitVec.zero_and)

theorem segDigit (d : BitVec 4) : Statement (.segDigit d) :=
  of_operands (by dsimp only [opcodeOf, tableRow]; decide) (by
    dsimp only [operandsOf, tableRow]
    exact placed_and _ _ _ (by decide))

theorem segSetDot (seg0 seg1 seg2 seg3 : Byte) (pos : BitVec 2) : Statement (.segSetDot seg0 seg1 seg2 seg3 pos) :=
  of_operands (by dsimp only [opcodeOf, tableRow]; decide) (by
    dsimp only [operandsOf, tableRow]
    exact or_and (or_and (or_and (or_and (placed_and _ _ _ (by decide)) (placed_and _ _ _ (by decide))) (placed_and _ _ _ (by decide))) (placed_and _ _ _ (by decide))) (placed_and _ _ _ (by decide)))

theorem segNumber (value : BitVec 16) (sup : Bool) (dots : BitVec 4) : Statement (.segNumber value sup dots) :=
  of_operands (by dsimp only [opcodeOf, tableRow]; decide) (by
    dsimp only [operandsOf, tableRow]
    exact or_and (or_and (placed_and _ _ _ (by decide)) (placedBit_and _ _ _ (by decide))) (placed_and _ _ _ (by decide)))

theorem dispShowFrame (seg0 seg1 seg2 seg3 : Byte) (bright : BitVec 3) : Statement (.dispShowFrame seg0 seg1 seg2 seg3 bright) :=
  of_operands (by dsimp only [opcodeOf, tableRow]; decide) (by
    dsimp only [operandsOf, tableRow]
    exact or_and (or_and (or_and (or_and (placed_and _ _ _ (by decide)) (placed_and _ _ _ (by decide))) (placed_and _ _ _ (by decide))) (placed_and _ _ _ (by decide))) (placed_and _ _ _ (by decide)))

end Sys2Proof.Laws.RowSelect
end

