-- ==== Sys2Proof/Tests/Slice0.lean ====
section
/-! SUPPORT. Tests: ill-formed commands, one word of every command written out from the spec's encoding (R71, R72), one
or two steps of every command with the results of 95_test_vectors.md, and a witness for the hypotheses of every
obligation. -/

namespace Sys2Proof.Tests

open Sys2Proof.Machine

-- One theorem after another: each `decide +kernel` would otherwise hold a thread while it waits for those before it.
set_option Elab.async false

/-! ## A bench: two peers, a quiet scripted environment, the notification masked -/

/-- Right after reset with `p` on bus 0 and `q` on bus 1, an environment that does nothing for `n` moves, masked. -/
def bench (p q : Peer) (n : Nat) : State :=
  { State.reset with
    masked := true
    env := { peers := { rtc := p, disp := q }, now := .quiet, script := List.replicate n .quiet, tick := 0 } }

/-- The expected RTC of R192 holding `regs`. -/
def rtcWith (regs : Memory) : Peer := .rtc { wire := .idle, stage := .address, regs := regs, ptr := 0 }

/-- The registers of 95_test_vectors.md B5. -/
def vectorRtc : Peer := rtcWith [(0x00, 0x56), (0x01, 0x34), (0x02, 0x12), (0x04, 0x15), (0x05, 0x87), (0x06, 0x01),
  (0x0E, 0x04), (0x0F, 0x01), (0x11, 0x19), (0x12, 0x40)]

/-- The expected display of R215. -/
def vectorDisp : Peer :=
  .display { wire := .idle, atCommand := false, segments := [], ptr := 0, autoInc := false, control := 0 }

/-- No device on either bus (95_test_vectors.md P4). -/
def bare : State := bench .absent .absent 400

/-- `bare` inside an open transaction of MAIN on both buses, both lines of bus 0 and bus 1 released. -/
def opened : State :=
  { bare with
    phase := { rtc := .transfer, disp := .started }
    owner := { rtc := .main, disp := .main } }

/-- `bare` with HANDLER running. -/
def handling : State := { bare with handlerRunning := true }

/-- The state a command leaves, where it answers one. -/
def after (i : Instr) (s : State) : Option State :=
  match exec i s with
  | .next t => some t
  | .fault _ => none
  | .refused _ => none

/-- The last result returned (R79). -/
def lastResult (o : Option State) : Option Result := o.bind fun t => (t.returned.head?).map (·.2)

/-- The trace after a command. -/
def traceOf (o : Option State) : Option (List Event) := o.map State.trace

/-- Events and delays recorded. -/
def countsOf (o : Option State) : Option (Nat × Nat) := o.map fun t => (t.trace.length, delays t.trace)

/-- A step's reason for a refusal. -/
def refusalOf (s : State) : Option RefuseReason :=
  match step s with
  | .refused (.refuse e _) => some e
  | _ => none

/-- `s` whose host issues `w` next. -/
def issuing (s : State) (w : CmdWord) : State := { s with mainTodo := [.command w] }

/-! ## Ill-formed commands (R77): one for each check -/

theorem test_illFormed_bcdEncode : (Instr.bcdEncode 100).wellFormed = false := by decide
theorem test_illFormed_yearEncode :
    (Instr.yearEncode 1999).wellFormed = false ∧ (Instr.yearEncode 2200).wellFormed = false := by decide
theorem test_illFormed_rtcReadRegs : (Instr.rtcReadRegs 0 0).wellFormed = false := by decide
theorem test_illFormed_rtcWriteRegs_count : (Instr.rtcWriteRegs 0x0E 0 0 0 0 0).wellFormed = false ∧
    (Instr.rtcWriteRegs 0x0E 5 1 2 3 4).wellFormed = false := by decide
theorem test_illFormed_rtcWriteRegs_data : (Instr.rtcWriteRegs 0x0E 1 0 0xFF 0 0).wellFormed = false ∧
    (Instr.rtcWriteRegs 0x0E 2 0 0 1 0).wellFormed = false ∧
    (Instr.rtcWriteRegs 0x0E 3 0 0 0 1).wellFormed = false := by decide
theorem test_illFormed_rtcWriteTime : (Instr.rtcWriteTime 100 0 0).wellFormed = false ∧
    (Instr.rtcWriteTime 0 100 0).wellFormed = false ∧ (Instr.rtcWriteTime 0 0 100).wellFormed = false := by decide
theorem test_illFormed_rtcWriteDate : (Instr.rtcWriteDate 100 1 2023).wellFormed = false ∧
    (Instr.rtcWriteDate 1 100 2023).wellFormed = false ∧ (Instr.rtcWriteDate 1 1 1999).wellFormed = false ∧
    (Instr.rtcWriteDate 1 1 2200).wellFormed = false := by decide
theorem test_illFormed_segNumber : (Instr.segNumber 10000 false 0).wellFormed = false := by decide

/-! ## Decoding: a word of every command, from the fields of R71 and the opcodes of R72 -/

theorem test_decode_pinValid : decode 0x0100000000000009#64 = .ok (.pinValid 9) := by decide
theorem test_decode_pinSetMode : decode 0x0200000000000117#64 = .ok (.pinSetMode 23 true) := by decide
theorem test_decode_pinWrite : decode 0x0300000000000107#64 = .ok (.pinWrite 7 true) := by decide
theorem test_decode_pinRead : decode 0x0400000000000018#64 = .ok (.pinRead 24) := by decide
theorem test_decode_lineDriveLow : decode 0x1002000000000000#64 = .ok (.lineDriveLow .rtc .sda) := by decide
theorem test_decode_lineRelease : decode 0x1102000000000000#64 = .ok (.lineRelease .rtc .sda) := by decide
theorem test_decode_lineRead : decode 0x1201000000000000#64 = .ok (.lineRead .disp .scl) := by decide
theorem test_decode_sclWaitHigh : decode 0x1301000000000000#64 = .ok (.sclWaitHigh .disp) := by decide
theorem test_decode_halfDelay : decode 0x1401000000000000#64 = .ok (.halfDelay .disp) := by decide
theorem test_decode_busInit : decode 0x2001000000000000#64 = .ok (.busInit .disp) := by decide
theorem test_decode_busStart : decode 0x21010000000001D1#64 = .ok (.busStart .disp true 0x68 true) := by decide
theorem test_decode_busWriteBit : decode 0x2201000000000001#64 = .ok (.busWriteBit .disp true) := by decide
theorem test_decode_busReadBit : decode 0x2301000000000000#64 = .ok (.busReadBit .disp) := by decide
theorem test_decode_busWrite : decode 0x24010000000000A5#64 = .ok (.busWrite .disp 0xA5) := by decide
theorem test_decode_busRead : decode 0x2501000000000100#64 = .ok (.busRead .disp true) := by decide
theorem test_decode_busStop : decode 0x2601000000000000#64 = .ok (.busStop .disp) := by decide
theorem test_decode_bcdEncode : decode 0x300000000000003B#64 = .ok (.bcdEncode 59) := by decide
theorem test_decode_bcdDecode : decode 0x3100000000000023#64 = .ok (.bcdDecode 0x23) := by decide
theorem test_decode_yearEncode : decode 0x3200000000000835#64 = .ok (.yearEncode 2101) := by decide
theorem test_decode_yearDecode : decode 0x33000000000001FF#64 = .ok (.yearDecode 0xFF true) := by decide
theorem test_decode_tempDecode : decode 0x340000000000C019#64 = .ok (.tempDecode 0x19 0xC0) := by decide
theorem test_decode_rtcReadRegs : decode 0x400000000000070F#64 = .ok (.rtcReadRegs 0x0F 7) := by decide
theorem test_decode_rtcWriteRegs :
    decode 0x4100040302010407#64 = .ok (.rtcWriteRegs 7 4 1 2 3 4) := by decide
theorem test_decode_rtcReadTime : decode 0x4200000000000000#64 = .ok .rtcReadTime := by decide
theorem test_decode_rtcWriteTime : decode 0x43000000000C2238#64 = .ok (.rtcWriteTime 12 34 56) := by decide
theorem test_decode_rtcReadDate : decode 0x4400000000000000#64 = .ok .rtcReadDate := by decide
theorem test_decode_rtcWriteDate : decode 0x4500000008350C1F#64 = .ok (.rtcWriteDate 31 12 2101) := by decide
theorem test_decode_rtcReadTemp : decode 0x4600000000000000#64 = .ok .rtcReadTemp := by decide
theorem test_decode_rtcInit : decode 0x4700000000000000#64 = .ok .rtcInit := by decide
theorem test_decode_rtcArmAlarm : decode 0x4800000000000000#64 = .ok .rtcArmAlarm := by decide
theorem test_decode_rtcAckAlarm : decode 0x4900000000000000#64 = .ok .rtcAckAlarm := by decide
theorem test_decode_segDigit : decode 0x500000000000000F#64 = .ok (.segDigit 15) := by decide
theorem test_decode_segSetDot :
    decode 0x51000001664F5B06#64 = .ok (.segSetDot 0x06 0x5B 0x4F 0x66 1) := by decide
theorem test_decode_segNumber : decode 0x52000000002104D2#64 = .ok (.segNumber 1234 true 2) := by decide
theorem test_decode_dispShowFrame :
    decode 0x53000004664FDB06#64 = .ok (.dispShowFrame 0x06 0xDB 0x4F 0x66 4) := by decide

/-- 95_test_vectors.md B0: unassigned opcodes. -/
theorem test_decode_illegalOpcode : decode 0x0000000000000000#64 = .error .illegalOpcode ∧
    decode 0xFF00000000000000#64 = .error .illegalOpcode ∧
    decode 0x1500000000000000#64 = .error .illegalOpcode := by decide

/-- 95_test_vectors.md B0: a reserved bit set, an operand out of its domain with it or not. -/
theorem test_decode_reservedBits : decode 0x0100000000000100#64 = .error .reservedBits ∧
    decode 0x2004000000000000#64 = .error .reservedBits ∧ decode 0x1400000000000001#64 = .error .reservedBits ∧
    decode 0x4200000000000001#64 = .error .reservedBits ∧ decode 0x5000000000000010#64 = .error .reservedBits ∧
    decode 0x5200000000020005#64 = .error .reservedBits ∧ decode 0x3001000000000064#64 = .error .reservedBits ∧
    decode 0x21040000000001D0#64 = .error .reservedBits := by decide

/-- 95_test_vectors.md B0: words refused for their operands, by a step. -/
theorem test_step_outOfDomain :
    [0x3000000000000064#64, 0x320000000000076C#64, 0x3200000000000898#64, 0x4000000000000000#64,
      0x41000000FF00010E#64, 0x4300000000640000#64, 0x5200000000002710#64].map (fun w => refusalOf (issuing bare w)) =
    List.replicate 7 (some .outOfDomain) := by decide +kernel

/-- A word placed where a step fetches is run by that step (B1.1). -/
theorem test_step_withFetchWord : (match step (State.reset.withFetchWord 64 0x0100000000000009) with
    | .next t => some t.returned
    | _ => none) = some [(.main, .bit true)] := by decide +kernel

/-! ## One step of every command (95_test_vectors.md) -/

/-- B1.1. -/
theorem test_pinValid : [0, 1, 6, 7, 8, 9, 20, 21, 22, 23, 28, 29, 255].map (fun p => lastResult (after (.pinValid p) bare)) =
    [false, true, true, false, false, true, false, true, false, true, true, false, false].map
      (fun v => some (.bit v)) := by decide +kernel

/-- B1.2: port and bit of the ids of the vector. -/
theorem test_pinMapping : [1, 3, 4, 6, 9, 19, 21, 23, 24, 28].map
    (fun p => (pinSlot .default p, pinPort .default p, pinBit .default p)) =
    [(0, 0, 0), (2, 0, 2), (3, 0, 3), (5, 0, 5), (6, 0, 6), (16, 2, 0), (17, 2, 1), (18, 2, 2), (19, 2, 3),
      (23, 2, 7)] := by decide +kernel

/-- B1.6: a bus pin becomes an output and the change is recorded. -/
theorem test_pinSetMode : (after (.pinSetMode 23 true) bare).map (fun t => (t.trace, t.pin 23)) =
    some ([.driveLow .rtc .sda], { mode := .output, latch := false }) := by decide +kernel

/-- B1.6: output-high is not reached. -/
theorem test_pinSetMode_outputHigh :
    (((after (.pinWrite 23 true) bare).bind (after (.pinSetMode 23 true))).map fun t => (t.fault, (t.pin 23).mode)) =
    some (some (.outputHigh 23), .input) := by decide +kernel

/-- B1.4. -/
theorem test_pinWrite :
    lastResult (((after (.pinSetMode 9 true) bare).bind (after (.pinWrite 9 true))).bind (after (.pinRead 9))) =
    some (.bit true) := by decide +kernel

/-- P7 run a. -/
theorem test_pinWrite_outputHigh :
    (((after (.pinSetMode 23 true) bare).bind (after (.pinWrite 23 true))).map fun t => (t.fault, t.pin 23)) =
    some (some (.outputHigh 23), { mode := .output, latch := false }) := by decide +kernel

/-- B1.3, B1.5. -/
theorem test_pinRead : [7, 0, 29, 24].map (fun p => lastResult (after (.pinRead p) bare)) =
    [false, false, false, true].map (fun v => some (.bit v)) := by decide +kernel

/-- B2. -/
theorem test_lineDriveLow : (after (.lineDriveLow .rtc .sda) bare).map
    (fun t => (t.trace, t.pin 23, t.level .rtc .sda, t.phase.rtc, t.owner.rtc)) =
    some ([.driveLow .rtc .sda], { mode := .output, latch := false }, false, .idle, .none) := by decide +kernel

/-- B2. -/
theorem test_lineRelease : ((after (.lineDriveLow .rtc .sda) bare).bind (after (.lineRelease .rtc .sda))).map
    (fun t => ((t.pin 23).mode, t.level .rtc .sda)) = some (.input, true) := by decide +kernel

/-- B2. -/
theorem test_lineRead : (after (.lineRead .disp .scl) bare).map (fun t => (t.trace, t.returned)) =
    some ([.sample .disp .scl true], [(.main, .bit true)]) := by decide +kernel

/-- B2. -/
theorem test_sclWaitHigh : traceOf (after (.sclWaitHigh .rtc) bare) = some [.waited .rtc] := by decide +kernel

/-- P7 run b. -/
theorem test_sclWaitHigh_selfStall :
    (((after (.lineDriveLow .rtc .scl) bare).bind (after (.sclWaitHigh .rtc))).map fun t => (t.fault, t.trace)) =
    some (some (.selfStall .rtc), [.driveLow .rtc .scl]) := by decide +kernel

/-- B2. -/
theorem test_halfDelay : traceOf (after (.halfDelay .disp) bare) = some [.delay 5] := by decide +kernel

/-- B3.1. -/
theorem test_busInit : (after (.busInit .rtc) bare).map (fun t => (t.trace, t.phase.rtc)) =
    some ([.release .rtc .sda, .release .rtc .scl], .idle) := by decide +kernel

/-- B3.1. -/
theorem test_busStart : (after (.busStart .rtc false 0 false) bare).map
    (fun t => (t.trace, t.returned, t.phase.rtc, t.owner.rtc)) =
    some ([.driveLow .rtc .sda, .delay 5, .driveLow .rtc .scl], [(.main, .bit true)], .started, .main) := by
  decide +kernel

/-- B3.2: the address of a present and of an absent RTC. -/
theorem test_busStart_addressed :
    ([vectorRtc, .absent].map fun p => (after (.busStart .rtc true 0x68 false) (bench p .absent 100)).map
      fun t => (t.trace.length, t.returned, t.phase.rtc)) =
    [some (58, [(.main, .bit true)], .addrSent), some (58, [(.main, .bit false)], .addrSent)] := by decide +kernel

/-- B3.6. -/
theorem test_busWriteBit : traceOf (after (.busWriteBit .rtc false) opened) =
    some [.driveLow .rtc .sda, .delay 5, .release .rtc .scl, .waited .rtc, .delay 5, .driveLow .rtc .scl] := by
  decide +kernel

/-- B3.6. -/
theorem test_busReadBit : (after (.busReadBit .rtc) opened).map (fun t => (t.trace, t.returned)) =
    some ([.release .rtc .sda, .delay 5, .release .rtc .scl, .waited .rtc, .delay 5, .sample .rtc .sda true,
      .driveLow .rtc .scl], [(.main, .bit true)]) := by decide +kernel

/-- B3.4: the bits of 0x40 least significant first, and the log of a missing acknowledgment. -/
theorem test_busWrite :
    (traceOf (after (.busWrite .disp 0x40) opened)).map (fun es =>
      (highPeriodBits .disp true es, es.length, es.getLast?)) =
      some ([false, false, false, false, false, false, true, false, true], 56, some (.ackFail .disp 0x40)) ∧
    (after (.busWrite .disp 0x40) opened).map (fun t => (t.returned, t.phase.disp)) =
      some ([(.main, .bit false)], .transfer) := by decide +kernel

/-- B3.5: nobody drives SDA. -/
theorem test_busRead : (after (.busRead .rtc true) opened).map (fun t => (countsOf (some t), t.returned)) =
    some (some (62, 18), [(.main, .byte 0xFF)]) := by decide +kernel

/-- B3.5: the expected RTC presents 0x56. -/
theorem test_busRead_rtc :
    lastResult ((((after (.busStart .rtc true 0x68 false) (bench vectorRtc .absent 400)).bind
      (after (.busWrite .rtc 0x00))).bind (after (.busStart .rtc true 0x68 true))).bind (after (.busRead .rtc true))) =
    some (.byte 0x56) := by decide +kernel

/-- B3.1. -/
theorem test_busStop : (after (.busStop .rtc) opened).map (fun t => (t.trace, t.phase.rtc, t.owner.rtc)) =
    some ([.driveLow .rtc .sda, .delay 5, .release .rtc .scl, .waited .rtc, .delay 5, .release .rtc .sda, .delay 5],
      .idle, .none) := by decide +kernel

/-- B3.7: the commands that need a transaction, in IDLE. -/
theorem test_protocolMisuse :
    ([.busWrite .rtc 0, .busRead .rtc false, .busReadBit .rtc, .busWriteBit .rtc true, .busStop .rtc].map
      fun i => (after i bare).map fun t => (t.fault, t.trace)) =
    List.replicate 5 (some (some (.protocolMisuse .rtc), [])) := by decide +kernel

/-- B4. -/
theorem test_bcdEncode : [0, 59, 99].map (fun x => lastResult (after (.bcdEncode x) bare)) =
    [0x00, 0x59, 0x99].map (fun y => some (.byte y)) := by decide +kernel

/-- B4. -/
theorem test_bcdDecode : [0x23, 0x0A, 0xA0, 0xFF].map (fun x => lastResult (after (.bcdDecode x) bare)) =
    [23, 10, 100, 165].map (fun n => some (.number n)) := by decide +kernel

/-- B4, E6. -/
theorem test_yearEncode : [2000, 2099, 2100, 2199, 2101].map (fun y => lastResult (after (.yearEncode y) bare)) =
    [(0x00, false), (0x99, false), (0x00, true), (0x99, true), (0x01, true)].map
      (fun p => some (.yearCode p.1 p.2)) := by decide +kernel

/-- B4. -/
theorem test_yearDecode : [(0x23, false), (0xFF, true)].map (fun p => lastResult (after (.yearDecode p.1 p.2) bare)) =
    [some (.number 2023), some (.number 2265)] := by decide +kernel

/-- B4. -/
theorem test_tempDecode :
    [(0x19, 0x40), (0xFF, 0xC0), (0xE6, 0x80), (0x80, 0x00), (0x00, 0x3F)].map
      (fun p => lastResult (after (.tempDecode p.1 p.2) bare)) =
    [(25, 25), (-1, 75), (-26, 50), (-128, 0), (0, 0)].map (fun p => some (.temperature p.1 p.2)) := by decide +kernel

/-- R166's month byte (B4). -/
theorem test_monthByte : monthByte 12 true = 0x92 ∧ splitMonth 0x92 = 12 ∧ splitCentury 0x92 = true ∧
    splitMonth 0x87 = 7 ∧ splitCentury 0x87 = true ∧ splitMonth 0x07 = 7 ∧ splitCentury 0x07 = false := by decide

/-- The bench of B5. -/
def rtcBench : State := bench vectorRtc .absent 1300

/-- Result, events and delays of a command on the bench of B5. -/
def onRtc (i : Instr) : Option Result × Option (Nat × Nat) := (lastResult (after i rtcBench), countsOf (after i rtcBench))

/-- Bytes `0x00 ..` of the expected RTC after a command. -/
def regsAfter (i : Instr) (s : State) (addrs : List Byte) : Option (List Byte) :=
  (after i s).bind fun t => match t.env.peers.rtc with
    | .rtc d => some (addrs.map d.regs.read)
    | _ => none

theorem test_rtcReadTime : onRtc .rtcReadTime = (some (.time 12 34 56), some (369, 115)) := by decide +kernel
theorem test_rtcReadDate : onRtc .rtcReadDate = (some (.date 15 7 2101), some (369, 115)) := by decide +kernel
theorem test_rtcReadTemp : onRtc .rtcReadTemp = (some (.rtcTemperature 25 25), some (307, 97)) := by decide +kernel
theorem test_rtcReadRegs : onRtc (.rtcReadRegs 0x0F 1) = (some (.registers [0x01]), some (245, 79)) := by
  decide +kernel
theorem test_rtcReadRegs_longest : onRtc (.rtcReadRegs 0x00 7) =
    (some (.registers [0x56, 0x34, 0x12, 0x00, 0x15, 0x87, 0x01]), some (617, 187)) := by decide +kernel
theorem test_rtcWriteTime : onRtc (.rtcWriteTime 12 34 56) = (some (.ok true), some (285, 94)) := by decide +kernel
theorem test_rtcWriteDate : regsAfter (.rtcWriteDate 31 12 2101) rtcBench [4, 5, 6] = some [0x31, 0x92, 0x01] := by
  decide +kernel
theorem test_rtcInit : onRtc .rtcInit = (some (.ok true), some (175, 58)) := by decide +kernel
theorem test_rtcWriteRegs : regsAfter (.rtcWriteRegs 0x07 4 1 2 3 4) rtcBench [7, 8, 9, 10] = some [1, 2, 3, 4] ∧
    onRtc (.rtcWriteRegs 0x07 4 1 2 3 4) = (some (.ok true), some (340, 112)) := by decide +kernel
theorem test_rtcArmAlarm_counts : onRtc .rtcArmAlarm = (some (.ok true), some (1180, 386)) := by decide +kernel
theorem test_rtcArmAlarm : regsAfter .rtcArmAlarm rtcBench [7, 8, 9, 10, 14, 15] =
    some [0x00, 0x80, 0x80, 0x80, 0x05, 0x00] := by decide +kernel
theorem test_rtcAckAlarm : regsAfter .rtcAckAlarm (bench (rtcWith [(0x0F, 0x89)]) .absent 450) [15] = some [0x88] := by
  decide +kernel
/-- R192: over status 0x01 the byte 0xFF leaves the three flag bits (0, 1, 7) as they were and sets the other bits. -/
theorem test_rtcWriteRegs_statusFlags :
    regsAfter (.rtcWriteRegs 0x0F 1 0xFF 0 0 0) (bench (rtcWith [(0x0F, 0x01)]) .absent 450) [15] = some [0x7D] := by
  decide +kernel
/-- B5: the RTC absent. -/
theorem test_rtc_absent :
    [.rtcReadTime, .rtcWriteTime 1 2 3, .rtcInit, .rtcAckAlarm, .rtcArmAlarm].all (fun i =>
      lastResult (after i bare) == some (.ok false) && countsOf (after i bare) == some (65, 22)) = true := by
  decide +kernel
/-- B5: an adapter operation inside a transaction. -/
theorem test_rtc_misuse : (after .rtcReadTime opened).map (fun t => (t.fault, t.trace)) =
    some (some (.protocolMisuse .rtc), []) := by decide +kernel

/-- B6. -/
theorem test_segDigit : [5, 0, 15].map (fun d => lastResult (after (.segDigit d) bare)) =
    [0x6D, 0x3F, 0x71].map (fun y => some (.byte y)) := by decide +kernel

/-- B6. -/
theorem test_segSetDot : lastResult (after (.segSetDot 0x06 0x5B 0x4F 0x66 1) bare) =
    some (.frame #v[0x06, 0xDB, 0x4F, 0x66]) := by decide +kernel

/-- B6. -/
theorem test_segNumber :
    lastResult (after (.segNumber 1005 true 0) bare) = some (.frame #v[0x06, 0x3F, 0x3F, 0x6D]) ∧
    lastResult (after (.segNumber 40 true 0) bare) = some (.frame #v[0x00, 0x00, 0x66, 0x3F]) ∧
    lastResult (after (.segNumber 0 true 0) bare) = some (.frame #v[0x00, 0x00, 0x00, 0x3F]) ∧
    lastResult (after (.segNumber 0 false 0) bare) = some (.frame #v[0x3F, 0x3F, 0x3F, 0x3F]) := by decide +kernel

/-- B6: the dots, under suppression too. -/
theorem test_segNumber_dots :
    lastResult (after (.segNumber 1234 false 2) bare) = some (.frame #v[0x06, 0xDB, 0x4F, 0x66]) ∧
    lastResult (after (.segNumber 7 true 2) bare) = some (.frame #v[0x00, 0x80, 0x00, 0x07]) ∧
    lastResult (after (.segNumber 1 true 15) bare) = some (.frame #v[0x80, 0x80, 0x80, 0x86]) := by decide +kernel

/-- E5. -/
theorem test_dispShowFrame :
    ((after (.dispShowFrame 0x3F 0x06 0x5B 0x4F 4) (bench .absent vectorDisp 450)).map fun t =>
      (countsOf (some t), t.owner.disp, match t.env.peers.disp with
        | .display d => some ([0, 1, 2, 3].map d.segments.read, d.control)
        | _ => none)) =
    some (some (415, 138), .none, some ([0x3F, 0x06, 0x5B, 0x4F], 0x8C)) := by decide +kernel

/-- B6: nothing acknowledged. -/
theorem test_dispShowFrame_absent :
    countsOf (after (.dispShowFrame 0 0 0 0x6D 7) (bench .absent .absent 450)) = some (422, 138) := by decide +kernel

/-! ## The notification, holds and ownership (B7, P6) -/

/-- P6: HANDLER begins a bus-0 command while MAIN owns bus 0; the ownership check comes before the phase check. -/
theorem test_overlap : (after .rtcAckAlarm { opened with handlerRunning := true }).map (fun t => (t.fault, t.trace)) =
    some (some (.overlap .rtc .handler .main), []) := by decide +kernel

/-- A pending RTC interrupt (control 0x05, status 0x89) starts HANDLER only where MAIN has not masked it (R245). -/
theorem test_notification :
    ([true, false].map fun m =>
      let s := { bench (rtcWith [(0x0E, 0x05), (0x0F, 0x89)]) .absent 0 with masked := m }
      let e := { s with env := { s.env with script := [{ EnvMove.quiet with fire := true }] } }
      match step e with
      | .next t => some t.handlerRunning
      | _ => none) = [some false, some true] := by decide +kernel

/-- A stop whose clock the peer holds low stays in progress with three events and returns nothing (R113, R234). -/
theorem test_hold :
    (let slow : EnvMove := { EnvMove.quiet with
        drive := { rtc := { scl := true, sda := false }, disp := { scl := false, sda := false } } }
     let s := { opened with env := { peers := { rtc := .free, disp := .absent }, now := .quiet,
                                     script := List.replicate 4 slow, tick := 0 } }
     (after (.busStop .rtc) s).map fun t => (t.trace, t.mainJob, t.returned)) =
    some ([.driveLow .rtc .sda, .delay 5, .release .rtc .scl],
      some { instr := .busStop .rtc, trail := [true, true, true] }, []) := by decide +kernel

/-! ## Witnesses: for every obligation with hypotheses, a state and operands that meet them together -/

/-- Bus 0 has an unconstrained peer that holds SCL low for four moves; MAIN is inside a transaction. -/
def stretched : State :=
  let slow : EnvMove := { EnvMove.quiet with
    drive := { rtc := { scl := true, sda := false }, disp := { scl := false, sda := false } } }
  { opened with
    env := { peers := { rtc := .free, disp := .absent }, now := .quiet, script := List.replicate 4 slow, tick := 0 } }

/-- The move in which an unconstrained peer of bus 0 leaves the `k / 7`-th wire bit of `x` on SDA. -/
def sendingMove (x : Byte) (k : Nat) : EnvMove :=
  { EnvMove.quiet with
    drive := { rtc := { scl := false, sda := !bitAt .msbFirst x (k / 7) }, disp := { scl := false, sda := false } } }

/-- Bus 0 has an unconstrained peer that sends the byte `x`; MAIN is inside a transaction. -/
def sending (x : Byte) : State :=
  { opened with
    env := { peers := { rtc := .free, disp := .absent }, now := .quiet,
             script := (List.range longest).map (sendingMove x), tick := 0 } }

/-- The latch of bus pin 23 is 1 (B1.6). -/
def latched : State := { bare with pins := [(23, { mode := .input, latch := true })] }

/-- Bus pin 23 is an output. -/
def driven : State := { bare with pins := [(23, { mode := .output, latch := false })] }

/-- Bus pin 24, SCL of bus 0, is an output. -/
def clockLow : State := { bare with pins := [(24, { mode := .output, latch := false })] }

/-- The RTC's interrupt is pending, MAIN has not masked it, and the notification fires at each of four moves. -/
def firing : State :=
  { bench (rtcWith [(0x0E, 0x05), (0x0F, 0x89)]) .absent 0 with
    masked := false
    activations := [[0x4900000000000000#64]]
    env := { peers := { rtc := rtcWith [(0x0E, 0x05), (0x0F, 0x89)], disp := .absent }, now := .quiet,
             script := List.replicate 4 { EnvMove.quiet with fire := true }, tick := 0 } }

/-- An unconstrained source's notification is pending and fires at move `k`; MAIN is inside a transaction on both buses. -/
def preempting (k : Nat) : State :=
  { opened with
    masked := false
    env := { peers := { rtc := .free, disp := .absent }, now := { EnvMove.quiet with pending := true },
             script := List.replicate k .quiet ++ [{ EnvMove.quiet with fire := true }], tick := 0 } }

/-- `bare` with the notification pending from a source that is no expected RTC. -/
def raised : State := { bare with env := { bare.env with now := { EnvMove.quiet with pending := true } } }

/-- `driven` has one pin entry, of a valid id. -/
theorem pinsWf_single (s : State) (p : Byte) (v : PinState) (hs : s.pins = [(p.toNat, v)])
    (hw : Sparse.wf PinState.reset s.pins = true) (hp : validPin s.cfg p = true) : s.pinsWf :=
  ⟨hw, fun e he => ⟨p, by rw [hs] at he; simp_all, hp⟩⟩

theorem pinsWf_none (s : State) (hs : s.pins = []) : s.pinsWf :=
  ⟨by rw [hs]; rfl, fun e he => by rw [hs] at he; cases he⟩

theorem test_bare_ready (b : Bus) : bare.ready b :=
  ⟨⟨by decide +kernel, pinsWf_none _ rfl, .inl (by cases b <;> rfl), .inl rfl⟩, .inl rfl, fun k _ => by cases b <;> rfl⟩

theorem test_opened_ready (b : Bus) : opened.ready b :=
  ⟨⟨by decide +kernel, pinsWf_none _ rfl, .inr (by cases b <;> rfl), .inl rfl⟩, .inl rfl, fun k _ => by cases b <;> rfl⟩

theorem test_opened_phase (b : Bus) : opened.phase.get b ≠ .idle := by cases b <;> decide

/-- HANDLER is ready too, without a mask. -/
theorem test_handling_ready (b : Bus) : ({ handling with masked := false } : State).ready b :=
  ⟨⟨by decide +kernel, pinsWf_none _ rfl, .inl (by cases b <;> rfl), .inr rfl⟩, .inr rfl, fun k _ => by cases b <;> rfl⟩

theorem test_stretched_steady : stretched.steady .rtc :=
  ⟨by decide +kernel, pinsWf_none _ rfl, .inr rfl, .inl rfl⟩

theorem test_clockLow_steady : clockLow.steady .rtc :=
  ⟨by decide +kernel, pinsWf_single _ 24 _ rfl (by decide) (by decide), .inl rfl, .inl rfl⟩

theorem test_sending_moveAt (x : Byte) (k : Nat) (hk : k < longest) : (sending x).env.moveAt k = sendingMove x k := by
  simp [Env.moveAt, sending, hk]

theorem test_default_configWf : configWf Config.default = true := by decide +kernel

theorem test_sending_ready (x : Byte) : (sending x).ready .rtc :=
  ⟨⟨test_default_configWf, pinsWf_none _ rfl, .inr rfl, .inl rfl⟩, .inl rfl, fun k hk => by
    unfold State.sclFree
    rw [test_sending_moveAt x k hk]
    rfl⟩

theorem witness_EveryWordSelectsOneRowOrIsRefused :
    decode 0x0300000000000109#64 = .ok (.pinWrite 9 true) ∧
    0x0300000000000109#64 &&& (tableRow (.pinWrite 9 true)).2 = (tableRow (.pinWrite 9 true)).1 ∧
    0x0300000000000109#64 &&& (tableRow (.pinWrite 0 false)).2 = (tableRow (.pinWrite 0 false)).1 ∧
    decode 0xFF00000000000000#64 = .error .illegalOpcode ∧ decode 0x0100000000000100#64 = .error .reservedBits ∧
    (0xFF00000000000000#64).extractLsb' 56 8 = 0xFF#8 := by decide

theorem witness_AStepRunsTheDecodedCommand :
    (∃ (s : State) (w : CmdWord) (rest : List HostMove) (i : Instr), s.fault = none ∧ s.handlerRunning = false ∧
      s.envMove.fires = false ∧ s.mainJob = none ∧ s.mainTodo = .command w :: rest ∧ decode w = .ok i) ∧
    ∃ (s : State) (w : CmdWord) (rest : List CmdWord) (i : Instr), s.fault = none ∧ s.handlerRunning = true ∧
      s.handlerJob = none ∧ s.handlerTodo = w :: rest ∧ decode w = .ok i :=
  ⟨⟨issuing bare 0x0100000000000009#64, _, _, .pinValid 9, rfl, rfl, rfl, rfl, rfl, by decide⟩,
    { handling with handlerTodo := [0x4900000000000000#64] }, _, _, .rtcAckAlarm, rfl, rfl, rfl, rfl, by decide⟩

theorem witness_ARefusedCommandChangesNothing :
    refusalOf (issuing bare 0x3000000000000064#64) = some .outOfDomain ∧
    decode 0x1500000000000000#64 = .error .illegalOpcode ∧
    (∃ rest, (issuing bare 0x1500000000000000#64).mainTodo = .command 0x1500000000000000#64 :: rest) ∧
    (issuing bare 0x1500000000000000#64).fault = none ∧ (issuing bare 0x1500000000000000#64).handlerRunning = false ∧
    (issuing bare 0x1500000000000000#64).envMove.fires = false ∧
    (issuing bare 0x1500000000000000#64).mainJob = none ∧
    ∃ rest, ({ handling with handlerTodo := [0x1500000000000000#64] } : State).handlerTodo =
      0x1500000000000000#64 :: rest ∧ handling.fault = none ∧ handling.handlerRunning = true ∧
      handling.handlerJob = none :=
  ⟨by decide +kernel, by decide, ⟨[], rfl⟩, rfl, rfl, rfl, rfl, [], rfl, rfl, rfl, rfl⟩

theorem witness_CommandsAreRefusedExactlyOutsideTheirDomain :
    (Instr.bcdEncode 99).wellFormed = true ∧ (Instr.bcdEncode 100).wellFormed = false ∧
    (Instr.rtcWriteRegs 0 4 1 2 3 4).wellFormed = true ∧ (Instr.rtcWriteRegs 0 3 1 2 3 4).wellFormed = false ∧
    (Instr.segNumber 9999 true 0).wellFormed = true ∧ (Instr.yearEncode 2199).wellFormed = true := by decide

/-- MAIN and HANDLER between two commands, with none to come. -/
theorem witness_ResetLeavesTheResetTable :
    (bare.fault = none ∧ bare.mainJob = none ∧ bare.handlerJob = none ∧ bare.mainTodo = [] ∧ bare.handlerTodo = [] ∧
      bare.activations = []) ∧
    handling.fault = none ∧ handling.mainJob = none ∧ handling.handlerJob = none ∧ handling.mainTodo = [] ∧
    handling.handlerTodo = [] ∧ handling.activations = [] := by decide

/-- An open transaction of MAIN, with a command in progress on it, meets the invariant and steps. -/
theorem witness_EveryStepKeepsTheInvariant :
    ({ opened with mainJob := some { instr := .busStop .rtc, trail := [] } } : State).Inv ∧
    ∃ t, step { opened with mainJob := some { instr := .busStop .rtc, trail := [] } } = .next t := by
  refine ⟨⟨by decide +kernel, pinsWf_none _ rfl, fun b l => ?_, fun b _ => ?_, fun b _ => .inr (.inl ?_),
    ⟨fun j hj => ⟨.rtc, ?_, rfl⟩, fun j hj => ?_⟩, rfl, rfl⟩, _, rfl⟩
  · intro h; cases h
  · cases b <;> decide
  · cases b <;> decide
  · cases hj; rfl
  · cases hj

theorem witness_NoCommandWritesConfigurationOrMask :
    (∃ t, exec (.pinValid 1) bare = .next t) ∧
    ∃ t, step { bare with mainTodo := [.mask false] } = .next t ∧ t.masked ≠ bare.masked :=
  ⟨⟨_, rfl⟩, _, rfl, by decide⟩

theorem witness_AFaultedRunIsQuiescent :
    ({ bare with fault := some (.selfStall .rtc) } : State).fault = some (.selfStall .rtc) := rfl

/-- P6: HANDLER meets a bus MAIN owns; and a command of no bus in a faulted run. -/
theorem witness_OverlapIsRaisedBeforeAnyLineAction :
    (touches .rtcAckAlarm = some .rtc ∧ Instr.rtcAckAlarm.wellFormed = true ∧ opened.owner.get .rtc ≠ .none ∧
      ({ opened with handlerRunning := true } : State).owner.get .rtc ≠
        ({ opened with handlerRunning := true } : State).ctx.owner) ∧
    (touches (.busStop .disp) = some .disp ∧
      ({ opened with owner := { rtc := .none, disp := .handler } } : State).owner.get .disp ≠ opened.ctx.owner) ∧
    touches (.pinRead 9) = none ∧
    ∃ t, exec (.pinRead 9) { bare with fault := some (.overlap .rtc .handler .main) } = .next t ∧
      t.fault = some (.overlap .rtc .handler .main) :=
  ⟨⟨rfl, rfl, by decide, by decide⟩, ⟨rfl, by decide⟩, rfl, _, rfl, rfl⟩

theorem witness_ProtocolMisuseIsRaisedBeforeAnyLineAction :
    (touches (.busStop .rtc) = some .rtc ∧ bare.mayUse .rtc ∧ needsTransaction (.busStop .rtc) = true ∧
      bare.phase.get .rtc = .idle) ∧
    (touches .rtcReadTime = some .rtc ∧ opened.mayUse .rtc ∧ needsIdle .rtcReadTime = true ∧
      opened.phase.get .rtc ≠ .idle) ∧
    ∃ t, exec (.busInit .disp) { bare with fault := some (.protocolMisuse .rtc) } = .next t ∧
      t.fault = some (.protocolMisuse .rtc) :=
  ⟨⟨rfl, .inl rfl, rfl, rfl⟩, ⟨rfl, .inr rfl, rfl, by decide⟩, _, rfl, by decide +kernel⟩

/-- Each of the four faults, from a sound state; and a stop gone on with at its clock wait while the block drives SCL. -/
theorem witness_FaultsAriseOnlyAsTheirRulesSay :
    (configWf bare.cfg = true ∧ latched.pinsWf ∧ driven.pinsWf ∧ clockLow.pinsWf ∧ opened.pinsWf) ∧
    (∃ t, exec (.pinSetMode 23 true) latched = .next t ∧ t.fault = some (.outputHigh 23)) ∧
    (∃ t, exec (.pinWrite 23 true) driven = .next t ∧ t.fault = some (.outputHigh 23)) ∧
    (∃ t, exec (.busStop .rtc) { opened with handlerRunning := true } = .next t ∧
      t.fault = some (.overlap .rtc .handler .main)) ∧
    (∃ t, exec (.busStop .rtc) bare = .next t ∧ t.fault = some (.protocolMisuse .rtc)) ∧
    (∃ t, exec (.sclWaitHigh .rtc) clockLow = .next t ∧ t.fault = some (.selfStall .rtc)) ∧
    clockLow.fault = none ∧ (resume { instr := .busStop .rtc, trail := [true, true, true] } clockLow).fault =
      some (.selfStall .rtc) :=
  ⟨⟨by decide +kernel, pinsWf_single _ 23 _ rfl (by decide) (by decide), pinsWf_single _ 23 _ rfl (by decide) (by decide),
    pinsWf_single _ 24 _ rfl (by decide) (by decide), pinsWf_none _ rfl⟩, ⟨_, rfl, by decide +kernel⟩,
    ⟨_, rfl, by decide +kernel⟩, ⟨_, rfl, by decide +kernel⟩, ⟨_, rfl, by decide +kernel⟩, ⟨_, rfl, by decide +kernel⟩, rfl, by decide +kernel⟩

/-- One command that returns and one that is held. -/
theorem witness_ABegunCommandReturnsOrIsHeld :
    (opened.steady .rtc ∧ ∃ t, exec (.busStop .rtc) opened = .next t ∧ t.owner.get .rtc = .none) ∧
    stretched.steady .rtc ∧ touches (.busStop .rtc) = some .rtc ∧ stretched.phase.get .rtc ≠ .idle ∧
    ∃ t, exec (.busStop .rtc) stretched = .next t ∧ t.owner.get .rtc = .main :=
  ⟨⟨(test_opened_ready .rtc).1, _, rfl, by decide +kernel⟩, test_stretched_steady, rfl, by decide, _, rfl,
    by decide +kernel⟩

/-- Both ends of the ids, a reserved one, and the first and last slot. -/
theorem witness_PinMappingIsInjectiveWithNoGap : configWf Config.default = true ∧
    validPin Config.default 1 = true ∧ pinSlot Config.default 1 = 0 ∧ validPin Config.default 28 = true ∧
    pinSlot Config.default 28 = 23 ∧ validPin Config.default 0 = false ∧ validPin Config.default 29 = false ∧
    validPin Config.default 8 = false := by decide +kernel

/-- PIN_SET_MODE: an invalid id at each boundary, a bus pin with its latch set, a bus pin with either value, a pin of no
bus. -/
theorem witness_PinSetModeWritesTheMode :
    configWf bare.cfg = true ∧ bare.pinsWf ∧ latched.pinsWf ∧ validPin bare.cfg 0 = false ∧
    validPin bare.cfg 29 = false ∧ pinOf latched.cfg .rtc .sda = 23 ∧ (latched.pin 23).latch = true ∧
    (bare.pin 23).latch = false ∧ validPin bare.cfg 23 = true ∧ validPin bare.cfg 9 = true ∧
    ∀ b l, (9 : Byte) ≠ pinOf bare.cfg b l :=
  ⟨by decide +kernel, pinsWf_none _ rfl, pinsWf_single _ 23 _ rfl (by decide) (by decide), by decide, by decide, rfl,
    by decide, by decide, by decide, by decide, by intro b l; cases b <;> cases l <;> decide⟩

theorem witness_PinWriteWritesTheLatch :
    configWf driven.cfg = true ∧ driven.pinsWf ∧ bare.pinsWf ∧ pinOf driven.cfg .rtc .sda = 23 ∧
    (driven.pin 23).mode = .output ∧ (bare.pin 23).mode = .input ∧ validPin bare.cfg 255 = false ∧
    validPin bare.cfg 28 = true :=
  ⟨by decide +kernel, pinsWf_single _ 23 _ rfl (by decide) (by decide), pinsWf_none _ rfl, rfl, by decide, by decide,
    by decide, by decide⟩

theorem witness_PinReadAnswersTheLevel :
    configWf driven.cfg = true ∧ validPin driven.cfg 7 = false ∧ validPin driven.cfg 23 = true ∧
    (driven.pin 23).mode = .output ∧ 24 = pinOf driven.cfg .rtc .scl ∧ (driven.pin 24).mode = .input ∧
    validPin driven.cfg 9 = true ∧ (driven.pin 9).mode = .input ∧ ∀ b l, (9 : Byte) ≠ pinOf driven.cfg b l :=
  ⟨by decide +kernel, by decide, by decide, by decide, rfl, by decide, by decide, by decide,
    by intro b l; cases b <;> cases l <;> decide⟩

/-- A pin of no bus with either value, and a bus pin that became an output. -/
theorem witness_PinGuardLaw :
    validPin bare.cfg 22 = false ∧ configWf bare.cfg = true ∧ bare.pinsWf ∧ bare.fault = none ∧
    (validPin bare.cfg 9 = true ∧ (∀ b l, (9 : Byte) ≠ pinOf bare.cfg b l) ∧
      ∃ t, exec (.pinSetMode 9 true) bare = .next t ∧ t.fault = none) ∧
    validPin bare.cfg 23 = true ∧ 23 = pinOf bare.cfg .rtc .sda ∧
      ∃ t, exec (.pinSetMode 23 true) bare = .next t ∧ t.fault = none :=
  ⟨by decide, by decide +kernel, pinsWf_none _ rfl, rfl, ⟨by decide, by intro b l; cases b <;> cases l <;> decide,
    _, rfl, by decide +kernel⟩, by decide, rfl, _, rfl, by decide +kernel⟩

theorem witness_LineDriveLowDrivesTheLine (b : Bus) : bare.steady b ∧ opened.steady b :=
  ⟨(test_bare_ready b).1, (test_opened_ready b).1⟩

/-- Released with pull-ups, from an output. -/
theorem witness_LineReleaseReleasesTheLine : clockLow.steady .rtc ∧ clockLow.cfg.pullupsPresent = true :=
  ⟨test_clockLow_steady, rfl⟩

theorem witness_LineReadAnswersTheLevel : clockLow.steady .rtc ∧ clockLow.drivesLow .rtc .scl = true :=
  ⟨test_clockLow_steady, by decide⟩

/-- A clock the block drives, a free clock, and a clock the peer holds. -/
theorem witness_SclWaitHighWaitsForTheClock :
    (clockLow.steady .rtc ∧ clockLow.drivesLow .rtc .scl = true) ∧
    (bare.steady .rtc ∧ bare.drivesLow .rtc .scl = false ∧ bare.sclFree .rtc 0 = true) ∧
    stretched.steady .rtc ∧ stretched.drivesLow .rtc .scl = false ∧ stretched.sclFree .rtc 0 = false :=
  ⟨⟨test_clockLow_steady, by decide⟩, ⟨(test_bare_ready .rtc).1, by decide, rfl⟩, test_stretched_steady, by decide, rfl⟩

theorem witness_HalfDelayRecordsOneDelay (b : Bus) : ({ handling with masked := false } : State).steady b :=
  (test_handling_ready b).1

theorem witness_BusInitReleasesBothLines (b : Bus) : opened.steady b := (test_opened_ready b).1

/-- A start from an idle bus, a repeated start, and a start of HANDLER. -/
theorem witness_BusStartWithoutAddress (b : Bus) :
    (bare.ready b ∧ bare.phase.get b = .idle) ∧ (opened.ready b ∧ opened.phase.get b ≠ .idle) ∧
    ({ handling with masked := false } : State).ready b :=
  ⟨⟨test_bare_ready b, by cases b <;> rfl⟩, ⟨test_opened_ready b, test_opened_phase b⟩, test_handling_ready b⟩

theorem witness_BusStartWithAddress (b : Bus) : bare.ready b ∧ opened.ready b :=
  ⟨test_bare_ready b, test_opened_ready b⟩

theorem witness_BusWriteBitClocksOneBitOut (b : Bus) : opened.ready b ∧ opened.phase.get b ≠ .idle :=
  ⟨test_opened_ready b, test_opened_phase b⟩

theorem witness_BusReadBitClocksOneBitIn (b : Bus) :
    opened.ready b ∧ opened.phase.get b ≠ .idle ∧ (opened.env.peers.get b).isDrawn = true :=
  ⟨test_opened_ready b, test_opened_phase b, by cases b <;> rfl⟩

theorem witness_BusWriteSendsTheByte (b : Bus) : opened.ready b ∧ opened.phase.get b ≠ .idle :=
  ⟨test_opened_ready b, test_opened_phase b⟩

theorem witness_BusReadReceivesTheByte (b : Bus) : opened.ready b ∧ opened.phase.get b ≠ .idle :=
  ⟨test_opened_ready b, test_opened_phase b⟩

theorem witness_BusStopClosesTheTransaction (b : Bus) : opened.ready b ∧ opened.phase.get b ≠ .idle :=
  ⟨test_opened_ready b, test_opened_phase b⟩

theorem witness_EngineCommandsLeaveTheirPhaseAndLines (b : Bus) :
    exitLines (.busRead b false) = some (true, true) ∧ touches (.busRead b false) = some b ∧ opened.ready b ∧
    opened.phase.get b ≠ .idle ∧ exitLines (.busInit b) = some (false, false) ∧
    needsTransaction (.busInit b) = false :=
  ⟨rfl, rfl, test_opened_ready b, test_opened_phase b, rfl, rfl⟩

/-- `opened` with both clocks driven low, as the engine leaves them (R145). -/
def clocked : State :=
  { opened with pins := [(3, { mode := .output, latch := false }), (24, { mode := .output, latch := false })] }

theorem test_clocked_pinsWf : clocked.pinsWf := by
  refine ⟨by decide, fun e he => ?_⟩
  simp only [clocked, List.mem_cons, List.not_mem_nil, or_false] at he
  rcases he with rfl | rfl
  · exact ⟨3, rfl, by decide⟩
  · exact ⟨24, rfl, by decide⟩

theorem test_clocked_ready (b : Bus) : clocked.ready b :=
  ⟨⟨test_default_configWf, test_clocked_pinsWf, .inr (by cases b <;> rfl), .inl rfl⟩, .inl rfl,
    fun k _ => by cases b <;> rfl⟩

/-- Inside a transaction with SCL driven low, and a start from an idle bus with SCL released. -/
theorem witness_SdaIsStableWhileTheClockIsReleased (b : Bus) :
    ((exitLines (.busWrite b 0)).isSome = true ∧ touches (.busWrite b 0) = some b ∧ clocked.ready b ∧
      clocked.phase.get b ≠ .idle ∧ clocked.drivesLow b .scl = true) ∧
    bare.ready b ∧ bare.phase.get b = .idle ∧ bare.drivesLow b .scl = false :=
  ⟨⟨rfl, rfl, test_clocked_ready b, by cases b <;> decide, by cases b <;> decide⟩, test_bare_ready b,
    by cases b <;> rfl, by cases b <;> decide⟩

/-- The unconstrained peer sends 0x56 most significant bit first. -/
theorem witness_BytesAreReconstructedBitForBit :
    (sending 0x56).ready .rtc ∧ (sending 0x56).phase.get .rtc ≠ .idle ∧
    ((sending 0x56).env.peers.get .rtc).isDrawn = true ∧
    ∀ i < 8, (sending 0x56).sdaFree .rtc (7 * i + 5) = bitAt (Config.order .rtc) 0x56 i := by
  refine ⟨test_sending_ready 0x56, by decide, rfl, fun i hi => ?_⟩
  unfold State.sdaFree
  rw [test_sending_moveAt _ _ (by unfold longest; omega), sendingMove, show (7 * i + 5) / 7 = i by omega]
  show (!(!bitAt .msbFirst 0x56 i) && true) = bitAt .msbFirst 0x56 i
  simp

/-- An idle bus, and a bus inside a transaction. -/
theorem witness_EngineCommandsRecordTheirEventCounts (b : Bus) :
    (bare.ready b ∧ bare.phase.get b = .idle) ∧ opened.ready b ∧ opened.phase.get b ≠ .idle :=
  ⟨⟨test_bare_ready b, by cases b <;> rfl⟩, test_opened_ready b, test_opened_phase b⟩

/-- A held stop, and a stop that goes on with a free clock. -/
theorem witness_AHeldStopGoesOnWhereItStood :
    (stretched.steady .rtc ∧ stretched.phase.get .rtc ≠ .idle ∧ stretched.sclFree .rtc 3 = false) ∧
    opened.ready .rtc ∧ opened.owner.get .rtc = opened.ctx.owner ∧ opened.drivesLow .rtc .scl = false :=
  ⟨⟨test_stretched_steady, by decide, rfl⟩, test_opened_ready .rtc, rfl, by decide⟩

theorem witness_BcdEncodeGivesTensAndUnits :
    (0 : Byte).toNat ≤ 99 ∧ (99 : Byte).toNat ≤ 99 ∧ 100 ≤ (100 : Byte).toNat ∧ 100 ≤ (255 : Byte).toNat ∧
    bcdEncode 99 = bcdEncode 99 ∧ (0x99 : Byte).toNat / 16 ≤ 9 ∧ (0x99 : Byte).toNat % 16 ≤ 9 ∧
    ¬ (0x9A : Byte).toNat % 16 ≤ 9 := by decide

theorem witness_BcdRoundTripLaw : 99 ≤ 99 ∧ (0x99 : Byte).toNat / 16 ≤ 9 ∧ (0x99 : Byte).toNat % 16 ≤ 9 := by decide

theorem witness_YearCodecFollowsTheCenturyFlag : 2000 ≤ (2000 : BitVec 16).toNat ∧ (2199 : BitVec 16).toNat ≤ 2199 ∧
    centuryFlag 2099 = false ∧ centuryFlag 2100 = true := by decide

theorem witness_MonthByteCarriesTheCentury : 79 ≤ 79 ∧ splitMonth (monthByte 79 true) = 79 ∧
    splitCentury (monthByte 80 false) = true := by decide

/-- One and seven registers from an idle bus. -/
theorem witness_RtcReadRegsReadsABurst :
    bare.ready .rtc ∧ bare.phase.get .rtc = .idle ∧ 1 ≤ (1 : BitVec 3).toNat ∧ 1 ≤ (7 : BitVec 3).toNat :=
  ⟨test_bare_ready .rtc, rfl, by decide, by decide⟩

theorem witness_RtcWriteRegsWritesABurst :
    bare.ready .rtc ∧ bare.phase.get .rtc = .idle ∧ (Instr.rtcWriteRegs 0 1 1 0 0 0).wellFormed = true ∧
    (Instr.rtcWriteRegs 0 4 1 2 3 4).wellFormed = true :=
  ⟨test_bare_ready .rtc, rfl, by decide, by decide⟩

theorem witness_RtcReadOperationsDecodeOneBurst : bare.ready .rtc ∧ bare.phase.get .rtc = .idle :=
  ⟨test_bare_ready .rtc, rfl⟩

theorem witness_RtcWriteOperationsWriteTheirBytes :
    bare.ready .rtc ∧ bare.phase.get .rtc = .idle ∧ (99 : Byte).toNat ≤ 99 ∧ 2000 ≤ (2000 : BitVec 16).toNat ∧
    (2199 : BitVec 16).toNat ≤ 2199 :=
  ⟨test_bare_ready .rtc, rfl, by decide, by decide, by decide⟩

theorem witness_RtcAckAlarmClearsOneStatusBit : bare.ready .rtc ∧ bare.phase.get .rtc = .idle :=
  ⟨test_bare_ready .rtc, rfl⟩

theorem witness_RtcArmAlarmRunsFiveTransactions : bare.ready .rtc ∧ bare.phase.get .rtc = .idle :=
  ⟨test_bare_ready .rtc, rfl⟩

/-- Bus 0 has an unconstrained peer that holds SDA low and lets SCL go for as long as any command runs. -/
def lowSda : State :=
  let low : EnvMove := { EnvMove.quiet with
    drive := { rtc := { scl := false, sda := true }, disp := { scl := false, sda := false } } }
  { bare with
    env := { peers := { rtc := .free, disp := .absent }, now := .quiet, script := List.replicate longest low, tick := 0 } }

theorem test_lowSda_moveAt (k : Nat) (hk : k < longest) : (lowSda.env.moveAt k).drive.rtc = { scl := false, sda := true } := by
  simp [Env.moveAt, lowSda, hk]

/-- Both peers, with the longest operation. -/
theorem witness_AddressAcknowledgmentsDecideEveryRtcOperation :
    (touches .rtcArmAlarm = some .rtc ∧ needsIdle .rtcArmAlarm = true ∧ Instr.rtcArmAlarm.wellFormed = true) ∧
    (bare.ready .rtc ∧ bare.phase.get .rtc = .idle ∧ bare.env.peers.rtc = .absent ∧ bare.cfg.pullupsPresent = true) ∧
    lowSda.ready .rtc ∧ lowSda.phase.get .rtc = .idle ∧ lowSda.env.peers.rtc.isDrawn = true ∧
    ∀ k < longest, lowSda.sdaFree .rtc k = false := by
  refine ⟨⟨rfl, rfl, rfl⟩, ⟨test_bare_ready .rtc, rfl, rfl, rfl⟩, ⟨⟨test_default_configWf, pinsWf_none _ rfl, .inl rfl,
    .inl rfl⟩, .inl rfl, fun k hk => ?_⟩, rfl, rfl, fun k hk => ?_⟩
  · show (!(PerLine.get (PerBus.get (lowSda.env.moveAt k).drive .rtc) .scl) && true) = true
    rw [show PerBus.get (lowSda.env.moveAt k).drive .rtc = _ from test_lowSda_moveAt k hk]
    rfl
  · show (!(PerLine.get (PerBus.get (lowSda.env.moveAt k).drive .rtc) .sda) && true) = false
    rw [show PerBus.get (lowSda.env.moveAt k).drive .rtc = _ from test_lowSda_moveAt k hk]
    rfl

/-- What zero bytes decode to. -/
theorem test_zeroResult : timeOf [0, 0, 0] = zeroResult .rtcReadTime ∧ dateOf [0, 0, 0] = zeroResult .rtcReadDate ∧
    temperatureOf [0, 0] = zeroResult .rtcReadTemp := by decide

/-- An RTC whose SDA stays low acknowledges everything: the longest operation returns 1. -/
theorem test_rtcArmAlarm_lowSda : lastResult (after .rtcArmAlarm lowSda) = some (zeroResult .rtcArmAlarm) := by
  decide +kernel

/-- A write and a read that run to their end, and a display bus that is ready. -/
theorem witness_AdapterOperationsCountTheirDelays :
    (∃ evs ph, WriteRegsRun .default 0x0E [0x1C] evs ph true) ∧
    (∃ evs ph d, ReadRegsRun .default 0x0F 1 evs ph (some d)) ∧ bare.ready .disp ∧ bare.phase.get .disp = .idle :=
  ⟨⟨_, _, .inr ⟨[false, false], rfl, rfl, rfl, rfl⟩⟩,
    ⟨_, _, _, .inr (.inr ⟨false, [List.replicate 8 true], rfl, by simp, rfl, rfl, rfl⟩)⟩, test_bare_ready .disp, rfl⟩

theorem witness_SegmentCommandsBuildFrames : configWf bare.cfg = true := by decide +kernel

/-- Values with one to four digits, under suppression at each position. -/
theorem witness_SegNumberSuppressesLeadingZeros :
    configWf bare.cfg = true ∧ (9999 : BitVec 16).toNat ≤ 9999 ∧ (999 : BitVec 16).toNat < 10 ^ (3 - 0) ∧
    (99 : BitVec 16).toNat < 10 ^ (3 - 1) ∧ (9 : BitVec 16).toNat < 10 ^ (3 - 2) ∧
    ¬ (1000 : BitVec 16).toNat < 10 ^ (3 - 0) := by decide +kernel

theorem witness_DispShowFrameSendsThreeTransactions :
    bare.ready .disp ∧ bare.phase.get .disp = .idle ∧ ({ handling with masked := false } : State).ready .disp :=
  ⟨test_bare_ready .disp, rfl, test_handling_ready .disp⟩

/-- `lowSda` with the notification pending at every move, from a source that takes an acknowledgment. -/
def acking : State :=
  { lowSda with
    env := { lowSda.env with script := lowSda.env.script.map fun m => { m with pending := true, cleared := true } } }

/-- RTC_ACK_ALARM clears the pending bit where the source takes it so, and RTC_INIT does not (R245). -/
theorem test_pending :
    ([0x4900000000000000#64, 0x4700000000000000#64].map fun w =>
      match step (issuing acking w) with
      | .next t => some (t.returned, t.pending)
      | _ => none) =
    [some ([(.main, .ok true)], false), some ([(.main, .ok true)], true)] := by decide +kernel

/-- HANDLER starts before MAIN's first command; a notification pending at a command's begin and at its resumption; and
RTC_ACK_ALARM's clear of it. -/
theorem witness_TheNotificationFiresOnlyWhenAllowed :
    (firing.handlerRunning = false ∧ ∃ t, step firing = .next t ∧ t.handlerRunning = true) ∧
    ((∀ d, raised.env.peers.rtc ≠ .rtc d) ∧ raised.pending = true ∧ Instr.busInit .rtc ≠ .rtcAckAlarm ∧
      Instr.busInit .rtc ≠ .rtcArmAlarm ∧ ∃ t, exec (.busInit .rtc) raised = .next t) ∧
    ∃ s t, (∀ d, s.env.peers.rtc ≠ .rtc d) ∧ s.pending = true ∧ step s = .next t ∧ t.pending = false :=
  ⟨⟨rfl, _, rfl, by decide +kernel⟩, ⟨nofun, rfl, nofun, nofun, _, rfl⟩,
    issuing { acking with env := { acking.env with now := { EnvMove.quiet with pending := true } } }
      0x4900000000000000#64, _, nofun, rfl, rfl, by decide +kernel⟩

/-- The bits of R245 in the first moves of `preempting`. -/
theorem test_preempting_moves : ∀ k ∈ [0, 3, 7], (∀ j < k, ((preempting k).env.moveAt j).fire = false) ∧
    ((preempting k).env.moveAt k).fire = true := by decide +kernel

/-- BUS_STOP preempted before its first, its fourth (the clock wait) and its last micro-step. -/
theorem test_preempted :
    ([0, 3, 7].map fun k => (after (.busStop .rtc) (preempting k)).map fun t =>
      (t.mainJob, t.trace, t.handlerRunning)) =
    [0, 3, 7].map (fun k => some (some { instr := .busStop .rtc, trail := List.replicate k true },
      (stopEvents .rtc 5 5).take k, true)) := by decide +kernel

/-- An adapter operation and a line command at their begin; a command in progress of MAIN and one of HANDLER; a BUS_STOP
preempted before micro-step 0, 3 and 7; and BUS_STOP in progress at its start and near its end. -/
theorem witness_TheNotificationsEntrySavesNothing :
    ((∃ p, bodyOf firing.cfg .rtcReadTime = some (.rtc, p)) ∧ Instr.rtcReadTime.wellFormed = true ∧
      firing.mayUse .rtc ∧ needsTransaction .rtcReadTime = false ∧ firing.phase.get .rtc = .idle ∧
      firing.envMove.fires = true) ∧
    ((∃ p, bodyOf firing.cfg (.busStart .disp false 0 false) = some (.disp, p)) ∧ firing.mayUse .disp) ∧
    (∃ j, (∃ p, bodyOf opened.cfg j.instr = some (.rtc, p)) ∧
      ({ opened with mainJob := some j } : State).envMove.fires = false ∧ opened.fault = none ∧
      opened.handlerRunning = false ∧ handling.handlerRunning = true ∧ handling.fault = none) ∧
    (∀ k ∈ [0, 3, 7], k ≤ 7 ∧ configWf (preempting k).cfg = true ∧ (preempting k).pinsWf ∧
      (preempting k).mayUse .rtc ∧ (preempting k).phase.get .rtc ≠ .idle ∧ (preempting k).masked = false ∧
      (preempting k).handlerRunning = false ∧ (∀ d, (preempting k).env.peers.rtc ≠ .rtc d) ∧
      (preempting k).pending = true ∧ (3 < k → (preempting k).sclFree .rtc 3 = true)) ∧
    (clocked.ready .rtc ∧ clocked.owner.get .rtc = clocked.ctx.owner ∧ clocked.phase.get .rtc ≠ .idle) ∧
    opened.ready .rtc ∧ opened.owner.get .rtc = opened.ctx.owner ∧ opened.drivesLow .rtc .scl = false := by
  refine ⟨⟨⟨_, rfl⟩, rfl, .inl rfl, rfl, rfl, by decide +kernel⟩, ⟨⟨_, rfl⟩, .inl rfl⟩,
    ⟨{ instr := .busStop .rtc, trail := [true] }, ⟨_, rfl⟩, rfl, rfl, rfl, rfl, rfl⟩, fun k hk => ?_,
    ⟨test_clocked_ready .rtc, rfl, by decide⟩, test_opened_ready .rtc, rfl, by decide⟩
  refine ⟨?_, test_default_configWf, pinsWf_none _ rfl, .inr rfl, nofun, rfl, rfl, nofun, rfl, ?_⟩
  all_goals
    simp only [List.mem_cons, List.not_mem_nil, or_false] at hk
    rcases hk with rfl | rfl | rfl <;> decide +kernel

/-- HANDLER with a command to issue, and HANDLER at its end. -/
theorem witness_HandlerRunsToItsEndAndMainStandsStill :
    (∃ t, step { handling with handlerTodo := [0x0100000000000009#64] } = .next t ∧ t.handlerRunning = true) ∧
    ∃ t, step handling = .next t ∧ t.handlerRunning = false :=
  ⟨⟨_, rfl, by decide +kernel⟩, _, rfl, by decide +kernel⟩

theorem witness_CommandsLeaveTheOtherBusAlone :
    configWf opened.cfg = true ∧ touches (.busStop .rtc) = some .rtc ∧ Bus.disp ≠ .rtc ∧
    (∃ t, exec (.busStop .rtc) opened = .next t) ∧ ∀ d, opened.env.peers.get .disp ≠ .rtc d :=
  ⟨by decide +kernel, rfl, by decide, ⟨_, rfl⟩, by intro d h; cases h⟩

theorem witness_OnlyPinCommandsWriteOtherPins :
    configWf latched.cfg = true ∧ latched.pinsWf ∧
    (∀ p v, Instr.busInit .rtc ≠ .pinSetMode p v ∧ Instr.busInit .rtc ≠ .pinWrite p v) ∧
    ∃ t, exec (.busInit .rtc) latched = .next t ∧ (t.pin 23).latch = true ∧ ∀ b l, touches (.busInit .rtc) = some b →
      (9 : Byte) ≠ pinOf latched.cfg b l :=
  ⟨by decide +kernel, pinsWf_single _ 23 _ rfl (by decide) (by decide), fun _ _ => ⟨nofun, nofun⟩, _, rfl,
    by decide +kernel, by intro b l _; cases b <;> cases l <;> decide⟩

end Sys2Proof.Tests
end

section
/-! SUPPORT. What one step and one command can answer, each said once; and the frame of a command on one bus. -/

namespace Sys2Proof.Machine

variable {s t u : State} {b : Bus} {i : Instr}

/-! ## Steps -/

theorem step_of_handlerRunning (hf : s.fault = none) (hr : s.handlerRunning = true) :
    step s = handlerStep s.envMove := by
  simp [step, schedule, hf, hr]

theorem step_of_fires (hf : s.fault = none) (hr : s.handlerRunning = false) (hn : s.envMove.fires = true) :
    step s = .next s.envMove.startHandler := by
  simp [step, schedule, hf, hr, hn]

theorem step_of_not_fires (hf : s.fault = none) (hr : s.handlerRunning = false) (hn : s.envMove.fires = false) :
    step s = mainStep s.envMove := by
  simp [step, schedule, hf, hr, hn]

theorem issue_of_decode {w : CmdWord} (h : decode w = .ok i) : issue w s = exec i s := by
  simp [issue, h]

theorem handlerStep_of_word {w : CmdWord} {ws : List CmdWord} (hj : s.handlerJob = none)
    (ht : s.handlerTodo = w :: ws) : handlerStep s = issue w { s with handlerTodo := ws } := by
  simp [handlerStep, hj, ht]

theorem handlerStep_of_end (hj : s.handlerJob = none) (ht : s.handlerTodo = []) :
    handlerStep s = .next s.endHandler := by
  simp [handlerStep, hj, ht]

theorem mainStep_of_command {w : CmdWord} {rest : List HostMove} (hj : s.mainJob = none)
    (ht : s.mainTodo = .command w :: rest) : mainStep s = issue w { s with mainTodo := rest } := by
  simp [mainStep, hj, ht]

theorem mainStep_of_nothing (hj : s.mainJob = none) (ht : s.mainTodo = []) : mainStep s = .next s := by
  simp [mainStep, hj, ht]

/-- A word whose issue answers a next state decodes to a command that answers it. -/
theorem issue_next {w : CmdWord} (h : issue w s = .next t) : ∃ i, decode w = .ok i ∧ exec i s = .next t := by
  unfold issue at h
  cases hd : decode w with
  | ok i => rw [hd] at h; exact ⟨i, rfl, h⟩
  | error e => rw [hd] at h; cases h

/-- What HANDLER's step answers, by what HANDLER has to do (R245). -/
inductive HandlerNext (s : State) : State → Prop
  | job (j : Job) (hj : s.handlerJob = some j) : HandlerNext s (resume j s)
  | command (w : CmdWord) (ws : List CmdWord) (i : Instr) (t : State) (hj : s.handlerJob = none)
      (ht : s.handlerTodo = w :: ws) (hd : decode w = .ok i) (h : exec i { s with handlerTodo := ws } = .next t) :
      HandlerNext s t
  | done (hj : s.handlerJob = none) (ht : s.handlerTodo = []) : HandlerNext s s.endHandler

/-- What MAIN's step answers, by what MAIN has to do (R255, R261). -/
inductive MainNext (s : State) : State → Prop
  | job (j : Job) (hj : s.mainJob = some j) : MainNext s (resume j s)
  | command (w : CmdWord) (rest : List HostMove) (i : Instr) (t : State) (hj : s.mainJob = none)
      (ht : s.mainTodo = .command w :: rest) (hd : decode w = .ok i) (h : exec i { s with mainTodo := rest } = .next t) :
      MainNext s t
  | mask (v : Bool) (rest : List HostMove) (hj : s.mainJob = none) (ht : s.mainTodo = .mask v :: rest) :
      MainNext s { s with masked := v, mainTodo := rest }
  | nothing (hj : s.mainJob = none) (ht : s.mainTodo = []) : MainNext s s

theorem handlerStep_next (h : handlerStep s = .next t) : HandlerNext s t := by
  unfold handlerStep at h
  split at h
  next j hj => cases h; exact .job j hj
  next hj =>
    split at h
    next w ws ht =>
      obtain ⟨i, hd, hi⟩ := issue_next h
      exact .command w ws i t hj ht hd hi
    next ht => cases h; exact .done hj ht

theorem mainStep_next (h : mainStep s = .next t) : MainNext s t := by
  unfold mainStep at h
  split at h
  next j hj => cases h; exact .job j hj
  next hj =>
    split at h
    next w rest ht =>
      obtain ⟨i, hd, hi⟩ := issue_next h
      exact .command w rest i t hj ht hd hi
    next v rest ht => cases h; exact .mask v rest hj ht
    next ht => cases h; exact .nothing hj ht

/-- All that a step that answers a next state can be: HANDLER's step, the notification's entry or MAIN's step, after the
environment's move, in a run without a fault (R236, R245). -/
theorem step_next (h : step s = .next t) : s.fault = none ∧
    (s.handlerRunning = true ∧ HandlerNext s.envMove t ∨
      s.handlerRunning = false ∧ s.envMove.fires = true ∧ t = s.envMove.startHandler ∨
      s.handlerRunning = false ∧ s.envMove.fires = false ∧ MainNext s.envMove t) := by
  cases hf : s.fault with
  | some f => simp [step, hf] at h
  | none =>
    refine ⟨rfl, ?_⟩
    cases hr : s.handlerRunning with
    | true => rw [step_of_handlerRunning hf hr] at h; exact .inl ⟨rfl, handlerStep_next h⟩
    | false =>
      cases hn : s.envMove.fires with
      | true => rw [step_of_fires hf hr hn] at h; cases h; exact .inr (.inl ⟨rfl, rfl, rfl⟩)
      | false => rw [step_of_not_fires hf hr hn] at h; exact .inr (.inr ⟨rfl, rfl, mainStep_next h⟩)

/-! ## Commands -/

/-- What a command that touches no bus can answer: a result, a fault, or a pin's new mode or latch where no bus pin
becomes output-high (R102, R103, R238). -/
inductive LocalNext (s : State) : Instr → State → Prop
  | give (i : Instr) (r : Result) : LocalNext s i (s.give r)
  | raise (i : Instr) (f : Fault) : LocalNext s i (s.raise f)
  | setMode (p : Byte) (v : Bool) (hp : validPin s.cfg p = true)
      (hl : (lineOf s.cfg p).isSome = true → v = true → (s.pin p).latch = false) :
      LocalNext s (.pinSetMode p v) ((s.setMode p v).give .nothing)
  | write (p : Byte) (v : Bool) (hp : validPin s.cfg p = true)
      (hl : (lineOf s.cfg p).isSome = true → (s.pin p).mode = .output → v = false) :
      LocalNext s (.pinWrite p v) ((s.setPin p { s.pin p with latch := v }).give .nothing)

theorem execPinSetMode_next {p : Byte} {v : Bool} (h : execPinSetMode p v s = .next t) :
    LocalNext s (.pinSetMode p v) t := by
  cases h
  cases hp : validPin s.cfg p with
  | false => exact .give _ _
  | true =>
    simp only [Bool.not_true, cond_false]
    cases hl : ((lineOf s.cfg p).isSome && v && (s.pin p).latch) with
    | true => exact .raise _ _
    | false => exact .setMode p v hp fun h1 h2 => by simpa [h1, h2] using hl

theorem execPinWrite_next {p : Byte} {v : Bool} (h : execPinWrite p v s = .next t) :
    LocalNext s (.pinWrite p v) t := by
  cases h
  cases hp : validPin s.cfg p with
  | false => exact .give _ _
  | true =>
    simp only [Bool.not_true, cond_false]
    cases hl : ((lineOf s.cfg p).isSome && (s.pin p).mode == .output && v) with
    | true => exact .raise _ _
    | false => exact .write p v hp fun h1 h2 => by simpa [h1, h2] using hl

/-- A result given where a domain allows it is all that answers a next state. -/
theorem LocalNext.of_domain {c : Bool} {r : Result}
    (h : (bif c then .next (s.give r) else outOfDomain s : Host.Outcome State Fault Refusal) = .next t) :
    LocalNext s i t := by
  cases c with
  | true => cases h; exact .give _ _
  | false => cases h

/-- A bus command begun where a domain allows it is all that answers a next state. -/
theorem next_of_domain {c : Bool} {v : State}
    (h : (bif c then .next v else outOfDomain s : Host.Outcome State Fault Refusal) = .next t) : t = v := by
  cases c with
  | true => cases h; rfl
  | false => cases h

/-- Every command that answers a next state either touches a bus and is begun there by its rule, or touches none
(R31, R138, R182, R214). -/
theorem exec_next (h : exec i s = .next t) :
    (∃ b p, bodyOf s.cfg i = some (b, p) ∧ t = busCommand i b (needOf i) p s) ∨
      bodyOf s.cfg i = none ∧ LocalNext s i t := by
  cases hb : bodyOf s.cfg i with
  | some e =>
    obtain ⟨b, p⟩ := e
    refine .inl ⟨b, p, rfl, ?_⟩
    cases hw : i.wellFormed with
    | true => rw [exec_bus hb hw] at h; cases h; rfl
    | false =>
      cases i <;> simp only [Instr.wellFormed, Bool.true_eq_false, bodyOf, reduceCtorEq] at hw hb
      all_goals
        simp only [Option.some.injEq, Prod.mk.injEq] at hb
        obtain ⟨rfl, rfl⟩ := hb
        exact next_of_domain h
  | none =>
    refine .inr ⟨rfl, ?_⟩
    cases i <;> simp only [bodyOf, reduceCtorEq] at hb
    case pinSetMode => exact execPinSetMode_next h
    case pinWrite => exact execPinWrite_next h
    case bcdEncode => exact .of_domain h
    case yearEncode => exact .of_domain h
    case segNumber => exact .of_domain h
    all_goals cases h; exact .give _ _

/-- What a pin command leaves as it was: the buses and the host's side (R102, R103). -/
theorem State.sameBuses_setMode (p : Byte) (v : Bool) : SameBuses s (s.setMode p v) := by
  have hsame : SameBuses s s := ⟨rfl, rfl, SameHost.refl s⟩
  unfold State.setMode
  cases lineOf s.cfg p with
  | none => exact hsame
  | some e =>
    obtain ⟨b, l⟩ := e
    show SameBuses s (bif (s.pin p).mode == modeOf v then s else _)
    cases (s.pin p).mode == modeOf v with
    | true => exact hsame
    | false => exact hsame

/-- A command that touches no bus leaves the buses and the host's side as they were, or faults. -/
theorem LocalNext.sameBuses (h : LocalNext s i t) : SameBuses s t ∨ ∃ f, t = s.raise f := by
  cases h with
  | give _ r => exact .inl ⟨rfl, rfl, SameHost.refl s⟩
  | raise _ f => exact .inr ⟨f, rfl⟩
  | setMode p v hp hl => exact .inl (s.sameBuses_setMode p v)
  | write p v hp hl => exact .inl ⟨rfl, rfl, SameHost.refl s⟩

/-- A bus command raises Overlap in the state it found, or claims its bus, which no other context owns, and then runs or
raises ProtocolMisuse (R31, R237, R239). -/
theorem busCommand_cases (i : Instr) (b : Bus) (need : Need) (p : Prog) (s : State) :
    (∃ f, busCommand i b need p s = s.raise f) ∨
      s.mayUse b ∧ (busCommand i b need p s = run i b p [] (s.setOwner b s.ctx.owner) ∨
        ∃ f, busCommand i b need p s = (s.setOwner b s.ctx.owner).raise f) := by
  unfold busCommand
  cases ho : s.ownedByOther b with
  | true => exact .inl ⟨_, rfl⟩
  | false =>
    have hmay : s.mayUse b := by
      simp only [State.ownedByOther, Bool.and_eq_false_iff, bne_eq_false_iff_eq] at ho
      exact ho
    cases need.met (s.phase.get b) with
    | true => exact .inr ⟨hmay, .inl rfl⟩
    | false => exact .inr ⟨hmay, .inr ⟨_, rfl⟩⟩

/-- To go on with a command is to run the rest of its sequence; one without a sequence has nothing left (R37). -/
theorem resume_cases (j : Job) (s : State) :
    (∃ b p, bodyOf s.cfg j.instr = some (b, p) ∧
      resume j s = run j.instr b (p.after j.trail) j.trail.reverse s.clearJob) ∨
      bodyOf s.cfg j.instr = none ∧ resume j s = s.clearJob := by
  unfold resume
  cases hb : bodyOf s.cfg j.instr with
  | some e => obtain ⟨b, p⟩ := e; exact .inl ⟨b, p, rfl, rfl⟩
  | none => exact .inr ⟨rfl, rfl⟩

/-! ## The frame of a command on one bus -/

/-- What a command on bus `b` may not touch: the parameters, the mask, the other bus's phase and owner, every pin but the
two of bus `b`, and a peer without a clock of its own on the other bus (R21, R27, R31, R32). -/
structure OutsideBus (s t : State) (b : Bus) : Prop where
  cfg : t.cfg = s.cfg
  masked : t.masked = s.masked
  phase : ∀ b', b' ≠ b → t.phase.get b' = s.phase.get b'
  owner : ∀ b', b' ≠ b → t.owner.get b' = s.owner.get b'
  pin : ∀ q, (∀ l, q ≠ pinOf s.cfg b l) → t.pin q = s.pin q
  peer : ∀ b', b' ≠ b → (∀ d, s.env.peers.get b' ≠ .rtc d) → t.env.peers.get b' = s.env.peers.get b'

/-- The part of the state that the frame of a command on one bus speaks of. -/
def State.framed (s : State) : Config × Bool × PerBus Phase × PerBus Owner × Sparse PinState × PerBus Peer :=
  (s.cfg, s.masked, s.phase, s.owner, s.pins, s.env.peers)

namespace OutsideBus

/-- An update of the trace, the jobs, the results or the fault record touches nothing of the frame. -/
theorem of_framed (b : Bus) (h : t.framed = s.framed) : OutsideBus s t b := by
  simp only [State.framed, Prod.mk.injEq] at h
  obtain ⟨hcfg, hmasked, hphase, howner, hpins, hpeers⟩ := h
  exact ⟨hcfg, hmasked, fun _ _ => by rw [hphase], fun _ _ => by rw [howner], fun q _ => State.pin_congr hpins q,
    fun _ _ _ => by rw [hpeers]⟩

theorem refl (s : State) (b : Bus) : OutsideBus s s b := of_framed b rfl

theorem trans (h : OutsideBus s t b) (h' : OutsideBus t u b) : OutsideBus s u b where
  cfg := h'.cfg.trans h.cfg
  masked := h'.masked.trans h.masked
  phase b' hb := (h'.phase b' hb).trans (h.phase b' hb)
  owner b' hb := (h'.owner b' hb).trans (h.owner b' hb)
  pin q hq := (h'.pin q (by rw [h.cfg]; exact hq)).trans (h.pin q hq)
  peer b' hb hd := (h'.peer b' hb (by rw [h.peer b' hb hd]; exact hd)).trans (h.peer b' hb hd)

theorem envMove (s : State) (b : Bus) : OutsideBus s s.envMove b :=
  { refl s b with
    peer := fun b' _ hd => by rw [State.peers_envMove, Peer.setClock_of_not_rtc hd] }

theorem setOwner (s : State) (b : Bus) (o : Owner) : OutsideBus s (s.setOwner b o) b :=
  { refl s b with owner := fun _ hb => PerBus.get_set_ne _ _ hb }

theorem finish (s : State) (b : Bus) (r : Result) : OutsideBus s (s.finish b r) b :=
  { refl s b with
    owner := fun b' hb => by
      rw [State.finish_owner]
      cases s.phase.get b == .idle with
      | true => exact PerBus.get_set_ne _ _ hb
      | false => rfl }

/-- A micro-step on bus `b` stays on bus `b`, and leaves the host's side and every owner (R33, R34, R110, R111, R113). -/
theorem of_effect {a : Act} (hon : a.on b) (he : a.effect s = .done t) :
    OutsideBus s t b ∧ SameHost s t ∧ t.owner = s.owner := by
  cases a with
  | driveLow b' l =>
    obtain rfl : b' = b := hon
    cases he
    exact ⟨{ refl s b' with
      pin := fun _ hq => State.pin_driveLow_ne (hq l)
      peer := fun _ hb _ => PerBus.get_set_ne _ _ hb }, SameHost.refl s, rfl⟩
  | release b' l =>
    obtain rfl : b' = b := hon
    cases he
    exact ⟨{ refl s b' with
      pin := fun _ hq => State.pin_release_ne (hq l)
      peer := fun _ hb _ => PerBus.get_set_ne _ _ hb }, SameHost.refl s, rfl⟩
  | waitHigh b' =>
    simp only [Act.effect] at he
    split_ifs at he
    cases he
    exact ⟨of_framed b rfl, SameHost.refl s, rfl⟩
  | delay n => cases he; exact ⟨of_framed b rfl, SameHost.refl s, rfl⟩
  | phase b' p =>
    obtain rfl : b' = b := hon
    cases he
    exact ⟨{ refl s b' with phase := fun _ hb => PerBus.get_set_ne _ _ hb }, SameHost.refl s, rfl⟩
  | ackFail b' x => cases he; exact ⟨of_framed b rfl, SameHost.refl s, rfl⟩

/-- A run on bus `b` stays on bus `b`, however it ends. -/
theorem of_run {p : Prog} {trail : List Bool} (hp : p.On b) : OutsideBus s (run i b p trail s) b :=
  run_keeps (P := fun t => OutsideBus s t b) (R := fun t => OutsideBus s t b)
    (fun m h => h.trans (envMove m b)) (fun _ _ _ hon h he => h.trans (of_effect hon he).1)
    (fun _ _ _ h => h.trans (of_framed b rfl))
    (fun m r h => (h.trans (of_framed (t := m.acknowledge i r) b rfl)).trans (finish _ b r))
    (fun _ _ h => h.trans (of_framed b rfl)) (fun _ _ h _ => h.trans (of_framed b rfl))
    (fun _ _ h => h.trans (of_framed b rfl)) hp (refl s b)

theorem of_busCommand {need : Need} {p : Prog} (hp : p.On b) : OutsideBus s (busCommand i b need p s) b := by
  have hown := setOwner s b s.ctx.owner
  rcases busCommand_cases i b need p s with ⟨f, h⟩ | ⟨-, h | ⟨f, h⟩⟩
  · rw [h]; exact of_framed b rfl
  · rw [h]; exact hown.trans (of_run hp)
  · rw [h]; exact hown.trans (of_framed b rfl)

theorem of_resume {trail : List Bool} (hb : touches i = some b) :
    OutsideBus s (resume { instr := i, trail := trail } s) b := by
  have hclear : OutsideBus s s.clearJob b := of_framed b rfl
  rcases resume_cases { instr := i, trail := trail } s with ⟨b', p, hp, h⟩ | ⟨-, h⟩
  · obtain rfl : b = b' := Option.some.inj (hb.symm.trans (touches_of_bodyOf hp))
    rw [h]; exact hclear.trans (of_run ((bodyOf_on hp).after trail))
  · rw [h]; exact hclear

theorem of_exec (hb : touches i = some b) (h : exec i s = .next t) : OutsideBus s t b := by
  rcases exec_next h with ⟨b', p, hp, rfl⟩ | ⟨hn, -⟩
  · obtain rfl : b = b' := Option.some.inj (hb.symm.trans (touches_of_bodyOf hp))
    exact of_busCommand (bodyOf_on hp)
  · obtain ⟨p, hp⟩ := bodyOf_of_touches (c := s.cfg) hb
    simp [hn] at hp

/-- On a sound board the other bus is outside (R23). -/
theorem sameBus (h : OutsideBus s t b) (hc : configWf s.cfg = true) {b' : Bus} (hb : b' ≠ b) : SameBus s t b' :=
  ⟨h.phase b' hb, h.owner b' hb, fun _ => h.pin _ fun _ heq => hb (pinOf_inj hc heq).1, h.peer b' hb⟩

end OutsideBus

/-- No command's continuation writes the parameters or the mask (R27, R244). -/
theorem resume_cfg_masked (j : Job) (s : State) : (resume j s).cfg = s.cfg ∧ (resume j s).masked = s.masked := by
  rcases resume_cases j s with ⟨b, p, hp, -⟩ | ⟨-, h⟩
  · have hout : OutsideBus s (resume j s) b := OutsideBus.of_resume (touches_of_bodyOf hp)
    exact ⟨hout.cfg, hout.masked⟩
  · rw [h]; exact ⟨rfl, rfl⟩

/-- No command writes the parameters or the mask (R27, R244). -/
theorem exec_cfg_masked (h : exec i s = .next t) : t.cfg = s.cfg ∧ t.masked = s.masked := by
  rcases exec_next h with ⟨b, p, hp, -⟩ | ⟨-, hl⟩
  · have hout := OutsideBus.of_exec (touches_of_bodyOf hp) h
    exact ⟨hout.cfg, hout.masked⟩
  · rcases hl.sameBuses with ⟨-, -, hcfg, -, -, hmasked, -⟩ | ⟨f, rfl⟩
    · exact ⟨hcfg, hmasked⟩
    · exact ⟨rfl, rfl⟩

end Sys2Proof.Machine
end

section
/-! SUPPORT. The invariant along a step (`State.Inv`): the board's part, kept by every update of pins and peers, and the
ownership part, kept by a run because its command has claimed its bus (R31, R237). -/

namespace Sys2Proof.Machine

variable {s t : State} {b : Bus} {i : Instr}

/-! ## The board's part -/

/-- The part of the invariant that speaks of the board, the pins and the peers (R20, R23, R24). -/
structure State.Board (s : State) : Prop where
  cfg : configWf s.cfg = true
  pins : s.pinsWf
  drain : s.openDrain
  peers : ∀ b, (s.env.peers.get b).memWf = true

/-- Nothing but the parameters, the pins and the peers bears on it. -/
theorem State.Board.congr (h : s.Board) (hc : t.cfg = s.cfg) (hp : t.pins = s.pins)
    (he : t.env.peers = s.env.peers) : t.Board where
  cfg := by rw [hc]; exact h.cfg
  pins := State.pinsWf_congr hp hc h.pins
  drain b l := by rw [hc, State.pin_congr hp]; exact h.drain b l
  peers b := by rw [he]; exact h.peers b

theorem State.Board.envMove (h : s.Board) : s.envMove.Board :=
  ⟨h.cfg, h.pins, h.drain, fun b => by rw [State.peers_envMove]; exact Peer.memWf_setClock (h.peers b) _ _⟩

theorem State.Board.record (h : s.Board) (e : Event) : (s.record e).Board := h.congr rfl rfl rfl

theorem State.Board.give (h : s.Board) (r : Result) : (s.give r).Board := h.congr rfl rfl rfl

theorem State.Board.observe (h : s.Board) (b : Bus) : (s.observe b).Board :=
  ⟨h.cfg, h.pins, h.drain, fun b' => by
    rw [State.peers_observe_get]
    split
    · exact Peer.memWf_observe (h.peers b) _ _ _
    · exact h.peers b'⟩

/-- A valid pin may be written as long as no bus pin becomes output-high (R24, R238). -/
theorem State.Board.setPin (h : s.Board) {p : Byte} {v : PinState} (hp : validPin s.cfg p = true)
    (hv : (lineOf s.cfg p).isSome = true → v.mode = .output → v.latch = false) : (s.setPin p v).Board := by
  refine ⟨h.cfg, State.pinsWf_setPin h.pins hp v, fun b l hm => ?_, h.peers⟩
  simp only [State.setPin_cfg] at hm ⊢
  by_cases hq : pinOf s.cfg b l = p
  · subst hq
    rw [State.pin_setPin_self h.pins] at hm ⊢
    exact hv (by rw [lineOf_pinOf h.cfg]; rfl) hm
  · rw [State.pin_setPin_ne v hq] at hm ⊢
    exact h.drain b l hm

theorem State.Board.driveLow (h : s.Board) (b : Bus) (l : Line) : (s.driveLow b l).Board :=
  ((h.setPin (validPin_pinOf h.cfg b l) fun _ _ => rfl).record _).observe b

theorem State.Board.release (h : s.Board) (b : Bus) (l : Line) : (s.release b l).Board :=
  ((h.setPin (validPin_pinOf h.cfg b l) fun _ hm => by cases hm).record _).observe b

theorem State.Board.setMode (h : s.Board) {p : Byte} {v : Bool} (hp : validPin s.cfg p = true)
    (hl : (lineOf s.cfg p).isSome = true → v = true → (s.pin p).latch = false) : (s.setMode p v).Board := by
  have hset : (s.setPin p { s.pin p with mode := modeOf v }).Board := h.setPin hp fun hs hm => hl hs (by
    cases v with
    | true => rfl
    | false => cases hm)
  unfold State.setMode
  cases lineOf s.cfg p with
  | none => exact hset
  | some e =>
    obtain ⟨b, l⟩ := e
    show (bif (s.pin p).mode == modeOf v then s else _ : State).Board
    cases (s.pin p).mode == modeOf v with
    | true => exact h
    | false => exact (hset.record _).observe b

/-- Every micro-step keeps the board's part (R115). -/
theorem State.Board.effect {a : Act} (h : s.Board) (he : a.effect s = .done t) : t.Board := by
  cases a with
  | driveLow b l => cases he; exact h.driveLow b l
  | release b l => cases he; exact h.release b l
  | waitHigh b =>
    simp only [Act.effect] at he
    split_ifs at he
    cases he
    exact h.record _
  | delay n => cases he; exact h.record _
  | phase b p => cases he; exact h.congr rfl rfl rfl
  | ackFail b x => cases he; exact h.record _

/-- A command that touches no bus keeps the board's part (R102, R103, R238). -/
theorem LocalNext.board (h : s.Board) (hl : LocalNext s i t) : t.Board := by
  cases hl with
  | give _ r => exact h.give r
  | raise _ f => exact h.congr rfl rfl rfl
  | setMode p v hp hlatch => exact (h.setMode hp hlatch).give _
  | write p v hp hmode =>
    exact State.Board.give (s := s.setPin p { s.pin p with latch := v }) (h.setPin hp hmode) _

/-! ## The ownership part -/

theorem State.inv_iff : s.Inv ↔ s.Board ∧ s.openOwned ∧ s.ownedOpen ∧ s.jobsOwn := by
  constructor
  · rintro ⟨hcfg, hpins, hdrain, hopen, howned, hjobs, hrtc, hdisp⟩
    exact ⟨⟨hcfg, hpins, hdrain, fun b => by cases b <;> assumption⟩, hopen, howned, hjobs⟩
  · rintro ⟨⟨hcfg, hpins, hdrain, hpeers⟩, hopen, howned, hjobs⟩
    exact ⟨hcfg, hpins, hdrain, hopen, howned, hjobs, hpeers .rtc, hpeers .disp⟩

/-- Bus `b'` is owned exactly as R31 says: an open transaction has an owner, and an owned bus has an open transaction or
a command in progress. -/
def State.busOwned (s : State) (b' : Bus) : Prop :=
  (s.phase.get b' ≠ .idle → s.owner.get b' ≠ .none) ∧
    (s.owner.get b' ≠ .none → s.phase.get b' ≠ .idle ∨
      ∃ j, (s.mainJob = some j ∨ s.handlerJob = some j) ∧ touches j.instr = some b')

/-- The running context's command in progress (R37, R245). -/
def State.ownJob (s : State) : Option Job := bif s.handlerRunning then s.handlerJob else s.mainJob

/-- While the running context's command on bus `b` runs: the bus is its own, it is not listed as in progress, and all
else is as the invariant has it (R31, R237). -/
structure State.Claimed (s : State) (b : Bus) : Prop where
  board : s.Board
  owner : s.owner.get b = s.ctx.owner
  jobs : s.jobsOwn
  running : s.ownJob = none
  others : ∀ b', b' ≠ b → s.busOwned b'

/-- The running context's command in progress is a bus command, and the context owns its bus. -/
theorem State.jobsOwn.own {j : Job} (h : s.jobsOwn) (hj : s.ownJob = some j) :
    ∃ b, touches j.instr = some b ∧ s.owner.get b = s.ctx.owner := by
  unfold State.ownJob at hj
  unfold State.ctx
  cases hr : s.handlerRunning with
  | true => rw [hr] at hj; exact (h.2 j hj).2
  | false => rw [hr] at hj; exact h.1 j hj

theorem Ctx.owner_ne_none (c : Ctx) : c.owner ≠ .none := by cases c <;> decide

/-- Buses owned as R31 says meet both ownership clauses of the invariant. -/
theorem State.inv_of_busOwned (hboard : s.Board) (hbus : ∀ b, s.busOwned b) (hjobs : s.jobsOwn) : s.Inv :=
  State.inv_iff.2 ⟨hboard, fun b => (hbus b).1, fun b ho => .inr ((hbus b).2 ho), hjobs⟩

/-- In a run without a fault the invariant has each bus owned as R31 says. -/
theorem State.Inv.busOwned (h : s.Inv) (hf : s.fault = none) (b : Bus) : s.busOwned b := by
  obtain ⟨-, hopen, howned, -⟩ := State.inv_iff.1 h
  refine ⟨hopen b, fun ho => (howned b ho).resolve_left ?_⟩
  simp [hf]

/-- `busOwned` with the phase and owner of the bus as before carries over to a state that lists the same jobs of it. -/
theorem State.busOwned.congr (h : s.busOwned b) (hp : t.phase.get b = s.phase.get b)
    (ho : t.owner.get b = s.owner.get b)
    (hj : ∀ j, touches j.instr = some b → (s.mainJob = some j ∨ s.handlerJob = some j) →
      (t.mainJob = some j ∨ t.handlerJob = some j)) : t.busOwned b := by
  unfold State.busOwned
  rw [hp, ho]
  exact ⟨h.1, fun hne => (h.2 hne).imp id fun ⟨j, hmem, ht⟩ => ⟨j, hj j ht hmem, ht⟩⟩

/-- Bus `b` is owned by a context that has a command in progress. -/
def State.heldByJob (s : State) (b : Bus) : Prop :=
  (∃ j, s.mainJob = some j) ∧ s.owner.get b = .main ∨ (∃ j, s.handlerJob = some j) ∧ s.owner.get b = .handler

/-- Jobs that were listed before, with every owner that counts as before, are owned as before. -/
theorem State.jobsOwn.congr (h : s.jobsOwn) (hr : t.handlerRunning = s.handlerRunning)
    (hm : ∀ j, t.mainJob = some j → s.mainJob = some j) (hh : ∀ j, t.handlerJob = some j → s.handlerJob = some j)
    (ho : ∀ b, s.heldByJob b → t.owner.get b = s.owner.get b) : t.jobsOwn := by
  refine ⟨fun j hj => ?_, fun j hj => ?_⟩
  · obtain ⟨b, ht, hb⟩ := h.1 j (hm j hj)
    exact ⟨b, ht, (ho b (.inl ⟨⟨j, hm j hj⟩, hb⟩)).trans hb⟩
  · obtain ⟨hrun, b, ht, hb⟩ := h.2 j (hh j hj)
    exact ⟨hr.trans hrun, b, ht, (ho b (.inr ⟨⟨j, hh j hj⟩, hb⟩)).trans hb⟩

namespace State.Inv

theorem board (h : s.Inv) : s.Board := (State.inv_iff.1 h).1

theorem jobsOwn (h : s.Inv) : s.jobsOwn := (State.inv_iff.1 h).2.2.2

theorem raise (h : s.Inv) (f : Fault) : (s.raise f).Inv := by
  obtain ⟨hboard, hopen, -, hjobs⟩ := State.inv_iff.1 h
  exact State.inv_iff.2 ⟨hboard.congr rfl rfl rfl, hopen, fun _ _ => .inl rfl, hjobs⟩

theorem envMove (h : s.Inv) : s.envMove.Inv := by
  obtain ⟨hboard, hown⟩ := State.inv_iff.1 h
  exact State.inv_iff.2 ⟨hboard.envMove, hown⟩

/-- What leaves the buses and the host's side leaves the ownership part. -/
theorem of_sameBuses (h : s.Inv) (hb : t.Board) (hs : SameBuses s t) : t.Inv := by
  obtain ⟨-, hopen, howned, hjobs⟩ := State.inv_iff.1 h
  obtain ⟨hphase, howner, -, hfault, -, -, hrun, hmain, hhandler, -⟩ := hs
  refine State.inv_iff.2 ⟨hb, fun b => ?_, fun b => ?_, ?_⟩
  · rw [hphase, howner]; exact hopen b
  · rw [hphase, howner, hfault, hmain, hhandler]; exact howned b
  · unfold State.jobsOwn; rw [howner, hrun, hmain, hhandler]; exact hjobs

theorem startHandler (h : s.Inv) : s.startHandler.Inv := by
  obtain ⟨hboard, hopen, howned, hjobs⟩ := State.inv_iff.1 h
  exact State.inv_iff.2 ⟨hboard.congr rfl rfl rfl, hopen, howned, hjobs.1,
    fun j hj => ⟨rfl, (hjobs.2 j hj).2⟩⟩

theorem endHandler (h : s.Inv) (hj : s.handlerJob = none) : s.endHandler.Inv := by
  obtain ⟨hboard, hopen, howned, hjobs⟩ := State.inv_iff.1 h
  refine State.inv_iff.2 ⟨hboard.congr rfl rfl rfl, hopen, howned, hjobs.1, fun j hj' => ?_⟩
  simp [hj] at hj'

/-- Claiming a bus that no other context owns begins a run (R31). -/
theorem claim (h : s.Inv) (hf : s.fault = none) (hj : s.ownJob = none) (hmay : s.mayUse b) :
    (s.setOwner b s.ctx.owner).Claimed b := by
  have howner : ∀ b', s.owner.get b' ≠ .none → (s.setOwner b s.ctx.owner).owner.get b' = s.owner.get b' := by
    intro b' hne
    by_cases hb : b' = b
    · subst hb
      exact (PerBus.get_set_self _ _ _).trans (hmay.resolve_left hne).symm
    · exact PerBus.get_set_ne _ _ hb
  refine ⟨h.board.congr rfl rfl rfl, PerBus.get_set_self _ _ _,
    h.jobsOwn.congr rfl (fun _ => id) (fun _ => id) fun b' hb' => howner b' ?_, hj,
    fun b' hb => (h.busOwned hf b').congr rfl (PerBus.get_set_ne _ _ hb) fun _ _ => id⟩
  rcases hb' with ⟨-, hb'⟩ | ⟨-, hb'⟩ <;> rw [hb'] <;> decide

/-- The running context owns the bus of its command in progress, and going on with it goes on with a run (R37). -/
theorem reclaim (h : s.Inv) (hf : s.fault = none) {j : Job} (hj : s.ownJob = some j)
    (hb : touches j.instr = some b) : s.clearJob.Claimed b := by
  refine ⟨h.board.congr rfl rfl rfl, ?_, ?_, ?_, fun b' hb' => ?_⟩
  · obtain ⟨b', hb', ho⟩ := h.jobsOwn.own hj
    obtain rfl : b = b' := Option.some.inj (hb.symm.trans hb')
    exact ho
  · refine h.jobsOwn.congr rfl (fun j' hj' => ?_) (fun j' hj' => ?_) fun _ _ => rfl
    · cases hr : s.handlerRunning <;> simp [hr] at hj'
      exact hj'
    · cases hr : s.handlerRunning <;> simp [hr] at hj'
      exact hj'
  · cases hr : s.handlerRunning <;> simp [State.ownJob, hr]
  · refine (h.busOwned hf b').congr rfl rfl fun j' ht hmem => ?_
    have hne : j' ≠ j := by
      rintro rfl
      exact hb' (Option.some.inj (ht.symm.trans hb))
    cases hr : s.handlerRunning with
    | true =>
      have hown : s.handlerJob = some j := by simpa [State.ownJob, hr] using hj
      exact .inl (by simpa [hr, hown, hne.symm] using hmem)
    | false =>
      have hown : s.mainJob = some j := by simpa [State.ownJob, hr] using hj
      exact .inr (by simpa [hr, hown, hne.symm] using hmem)

end State.Inv

namespace State.Claimed

/-! A run on a claimed bus keeps the claim. -/

theorem envMove (h : s.Claimed b) : s.envMove.Claimed b := ⟨h.board.envMove, h.owner, h.jobs, h.running, h.others⟩

theorem record (h : s.Claimed b) (e : Event) : (s.record e).Claimed b :=
  ⟨h.board.record e, h.owner, h.jobs, h.running, h.others⟩

theorem effect {a : Act} (h : s.Claimed b) (hon : a.on b) (he : a.effect s = .done t) : t.Claimed b := by
  obtain ⟨hout, hhost, howner⟩ := OutsideBus.of_effect hon he
  have hctx := hhost.ctx
  obtain ⟨-, -, -, -, hrun, hmain, hhandler, -⟩ := hhost
  refine ⟨h.board.effect he, by rw [howner, hctx]; exact h.owner,
    h.jobs.congr hrun (fun j hj => by rwa [hmain] at hj) (fun j hj => by rwa [hhandler] at hj) fun _ _ => by rw [howner],
    ?_, fun b' hb => (h.others b' hb).congr (hout.phase b' hb) (hout.owner b' hb) fun j _ hj => ?_⟩
  · unfold State.ownJob; rw [hrun, hmain, hhandler]; exact h.running
  · rwa [hmain, hhandler]

/-! The invariant holds wherever it stops. -/

theorem inv_raise (h : s.Claimed b) (f : Fault) : (s.raise f).Inv := by
  refine State.inv_iff.2 ⟨h.board.congr rfl rfl rfl, fun b' hph => ?_, fun _ _ => .inl rfl, h.jobs⟩
  by_cases hb : b' = b
  · rw [hb, State.raise_owner, h.owner]; exact Ctx.owner_ne_none _
  · exact (h.others b' hb).1 hph

/-- A context's command in progress never stands on the bus that the running command has claimed. -/
theorem other_bus {b' : Bus} (h : s.Claimed b) (hj : s.heldByJob b') : b' ≠ b := by
  rintro rfl
  have hown := h.owner
  have hrun := h.running
  rcases hj with ⟨⟨j, hj⟩, ho⟩ | ⟨⟨j, hj⟩, ho⟩ <;>
    cases hr : s.handlerRunning <;> simp [State.ownJob, State.ctx, Ctx.owner, hr, hj, ho] at hown hrun

theorem inv_finish (h : s.Claimed b) (r : Result) : (s.finish b r).Inv := by
  refine State.inv_of_busOwned (h.board.congr rfl rfl rfl) (fun b' => ?_)
    (h.jobs.congr rfl (fun _ => id) (fun _ => id) fun b' hj => (OutsideBus.finish s b r).owner b' (h.other_bus hj))
  by_cases hb : b' = b
  · subst hb
    unfold State.busOwned
    rw [State.finish_owner, State.finish_phase]
    by_cases hph : s.phase.get b' = .idle
    · simp [hph]
    · have hne : s.owner.get b' ≠ .none := by rw [h.owner]; exact Ctx.owner_ne_none _
      rw [beq_eq_false_iff_ne.2 hph]
      exact ⟨fun _ => hne, fun _ => .inl hph⟩
  · exact (h.others b' hb).congr rfl ((OutsideBus.finish s b r).owner b' hb) fun _ _ => id

theorem inv_suspend (h : s.Claimed b) {j : Job} (hj : touches j.instr = some b) : (s.suspend j).Inv := by
  have hne : s.owner.get b ≠ .none := by rw [h.owner]; exact Ctx.owner_ne_none _
  have hown := h.owner
  have hrun := h.running
  refine State.inv_of_busOwned (h.board.congr rfl rfl rfl) (fun b' => ?_) ?_
  · by_cases hb : b' = b
    · subst hb
      exact ⟨fun _ => hne, fun _ => .inr ⟨j, by cases hr : s.handlerRunning <;> simp [hr], hj⟩⟩
    · refine (h.others b' hb).congr rfl rfl fun j' _ hmem => ?_
      cases hr : s.handlerRunning <;> simp_all [State.ownJob]
  · cases hr : s.handlerRunning with
    | true =>
      refine ⟨fun j' hj' => h.jobs.1 j' (by simpa [hr] using hj'), fun j' hj' => ?_⟩
      obtain rfl : j = j' := by simpa [hr] using hj'
      exact ⟨hr, b, hj, by simpa [State.ctx, hr, Ctx.owner] using hown⟩
    | false =>
      refine ⟨fun j' hj' => ?_, fun j' hj' => h.jobs.2 j' (by simpa [hr] using hj')⟩
      obtain rfl : j = j' := by simpa [hr] using hj'
      exact ⟨b, hj, by simpa [State.ctx, hr, Ctx.owner] using hown⟩

/-- A run of a claimed bus's command ends, is held, is preempted or faults in a state with the invariant (R31, R37). -/
theorem inv_run {p : Prog} {trail : List Bool} (h : s.Claimed b) (hi : touches i = some b) (hp : p.On b) :
    (run i b p trail s).Inv :=
  run_keeps (P := fun m => m.Claimed b) (R := State.Inv) (fun _ h => h.envMove) (fun _ _ _ hon h he => h.effect hon he)
    (fun _ _ _ h => h.record _)
    (fun m r h => inv_finish (s := m.acknowledge i r)
      ⟨h.board.congr rfl rfl rfl, h.owner, h.jobs, h.running, h.others⟩ r)
    (fun _ _ h => h.inv_suspend hi) (fun _ _ h _ => (h.inv_suspend hi).startHandler) (fun _ f h => h.inv_raise f) hp h

end State.Claimed

/-! ## A command and a step -/

theorem State.Inv.exec (h : s.Inv) (hf : s.fault = none) (hj : s.ownJob = none) (he : exec i s = .next t) : t.Inv := by
  rcases exec_next he with ⟨b, p, hp, rfl⟩ | ⟨-, hl⟩
  · rcases busCommand_cases i b (needOf i) p s with ⟨f, hr⟩ | ⟨hmay, hr | ⟨f, hr⟩⟩
    · rw [hr]; exact h.raise f
    · rw [hr]; exact (h.claim hf hj hmay).inv_run (touches_of_bodyOf hp) (bodyOf_on hp)
    · rw [hr]; exact (h.claim hf hj hmay).inv_raise f
  · rcases hl.sameBuses with hs | ⟨f, rfl⟩
    · exact h.of_sameBuses (hl.board h.board) hs
    · exact h.raise f

theorem State.Inv.resume (h : s.Inv) (hf : s.fault = none) {j : Job} (hj : s.ownJob = some j) : (resume j s).Inv := by
  obtain ⟨b, hb, -⟩ := h.jobsOwn.own hj
  have hclaim := h.reclaim hf hj hb
  rcases resume_cases j s with ⟨b', p, hp, hr⟩ | ⟨hn, -⟩
  · obtain rfl : b = b' := Option.some.inj (hb.symm.trans (touches_of_bodyOf hp))
    rw [hr]; exact hclaim.inv_run hb ((bodyOf_on hp).after _)
  · obtain ⟨p, hp⟩ := bodyOf_of_touches (c := s.cfg) hb
    simp [hn] at hp

/-- Settles O9: HANDLER's and MAIN's step each end in a run of a command on a bus it has claimed, in a command of no bus, or
in a move of the host. -/
theorem everyStepKeepsTheInvariant : Obligations.EveryStepKeepsTheInvariant := by
  intro s t h hstep
  have hm := h.envMove
  obtain ⟨hf, hnext⟩ := step_next hstep
  rcases hnext with ⟨hr, hnext⟩ | ⟨-, -, rfl⟩ | ⟨hr, -, hnext⟩
  · cases hnext with
    | job j hj => exact hm.resume hf (by simpa [State.ownJob, hr] using hj)
    | command w ws i _ hj _ _ he =>
      exact State.Inv.exec (s := { s.envMove with handlerTodo := ws }) hm hf (by simpa [State.ownJob, hr] using hj) he
    | done hj _ => exact hm.endHandler hj
  · exact hm.startHandler
  · cases hnext with
    | job j hj => exact hm.resume hf (by simpa [State.ownJob, hr] using hj)
    | command w rest i _ hj _ _ he =>
      exact State.Inv.exec (s := { s.envMove with mainTodo := rest }) hm hf (by simpa [State.ownJob, hr] using hj) he
    | mask => exact hm
    | nothing => exact hm

end Sys2Proof.Machine
end

section
/-! SUPPORT. The frame of a command on the pins (R21), the lines and phase that an engine command leaves (R145), and the
statements about steps and reset. -/

namespace Sys2Proof.Machine

variable {s t : State} {b : Bus} {i : Instr}

/-- Settles O10: a command that touches a bus stays on it, any other leaves the host's side, and of MAIN's moves only a
mask change writes the mask. -/
theorem noCommandWritesConfigurationOrMask : Obligations.NoCommandWritesConfigurationOrMask := by
  refine ⟨fun _ _ _ h => exec_cfg_masked h, fun s t hstep => ?_⟩
  have hkept : t.cfg = s.cfg ∧ t.masked = s.masked → t.cfg = s.cfg ∧ (t.masked ≠ s.masked →
      s.handlerRunning = false ∧ s.mainJob = none ∧ ∃ rest, s.mainTodo = .mask t.masked :: rest) :=
    fun ⟨hc, hm⟩ => ⟨hc, fun hne => absurd hm hne⟩
  obtain ⟨-, hnext⟩ := step_next hstep
  rcases hnext with ⟨-, hnext⟩ | ⟨-, -, rfl⟩ | ⟨hr, -, hnext⟩
  · cases hnext with
    | job j _ => exact hkept (resume_cfg_masked j s.envMove)
    | command w ws i _ _ _ _ he => exact hkept (exec_cfg_masked (s := { s.envMove with handlerTodo := ws }) he)
    | done => exact hkept ⟨rfl, rfl⟩
  · exact hkept ⟨rfl, rfl⟩
  · cases hnext with
    | job j _ => exact hkept (resume_cfg_masked j s.envMove)
    | command w rest i _ _ _ _ he => exact hkept (exec_cfg_masked (s := { s.envMove with mainTodo := rest }) he)
    | mask v rest hj ht => exact ⟨rfl, fun _ => ⟨hr, hj, rest, ht⟩⟩
    | nothing => exact hkept ⟨rfl, rfl⟩

/-- Settles O59: the other bus lies outside the frame of a command on one bus. -/
theorem commandsLeaveTheOtherBusAlone : Obligations.CommandsLeaveTheOtherBusAlone :=
  fun _ _ _ _ hc hi hb => ⟨fun _ he => (OutsideBus.of_exec hi he).sameBus hc hb,
    fun _ => (OutsideBus.of_resume hi).sameBus hc hb⟩

/-! ## Latches -/

/-- The pin file keeps its form and no latch is newly set, on a sound board (R20, R110, R111). -/
structure LatchesKept (s t : State) : Prop where
  cfg : configWf t.cfg = true
  pins : t.pinsWf
  latch : ∀ q, (t.pin q).latch = true → (s.pin q).latch = true

theorem LatchesKept.effect {a : Act} (h : LatchesKept s t) {u : State} (he : a.effect t = .done u) :
    LatchesKept s u := by
  cases a with
  | driveLow b l =>
    cases he
    refine ⟨h.cfg, State.pinsWf_driveLow h.cfg h.pins b l, fun q hq => ?_⟩
    by_cases hp : q = pinOf t.cfg b l
    · rw [hp, State.pin_driveLow_self h.pins] at hq; cases hq
    · rw [State.pin_driveLow_ne hp] at hq; exact h.latch q hq
  | release b l =>
    cases he
    refine ⟨h.cfg, State.pinsWf_release h.cfg h.pins b l, fun q hq => ?_⟩
    by_cases hp : q = pinOf t.cfg b l
    · rw [hp, State.pin_release_self h.pins] at hq; rw [hp]; exact h.latch _ hq
    · rw [State.pin_release_ne hp] at hq; exact h.latch q hq
  | waitHigh b =>
    simp only [Act.effect] at he
    split_ifs at he
    cases he
    exact ⟨h.cfg, h.pins, h.latch⟩
  | delay n => cases he; exact ⟨h.cfg, h.pins, h.latch⟩
  | phase b p => cases he; exact ⟨h.cfg, h.pins, h.latch⟩
  | ackFail b x => cases he; exact ⟨h.cfg, h.pins, h.latch⟩

theorem LatchesKept.of_run {p : Prog} {trail : List Bool} (hp : p.On b) (h : LatchesKept s t) :
    LatchesKept s (run i b p trail t) :=
  run_keeps (P := LatchesKept s) (R := LatchesKept s) (fun _ h => ⟨h.cfg, h.pins, h.latch⟩)
    (fun _ _ _ _ h he => h.effect he) (fun _ _ _ h => ⟨h.cfg, h.pins, h.latch⟩) (fun _ _ h => ⟨h.cfg, h.pins, h.latch⟩)
    (fun _ _ h => ⟨h.cfg, h.pins, h.latch⟩) (fun _ _ h _ => ⟨h.cfg, h.pins, h.latch⟩)
    (fun _ _ h => ⟨h.cfg, h.pins, h.latch⟩) hp h

/-- A bus command sets no latch, whether it runs or faults at once. -/
theorem LatchesKept.of_busCommand {need : Need} {p : Prog} (hp : p.On b) (hc : configWf s.cfg = true) (hw : s.pinsWf) :
    LatchesKept s (busCommand i b need p s) := by
  rcases busCommand_cases i b need p s with ⟨f, h⟩ | ⟨-, h | ⟨f, h⟩⟩ <;> rw [h]
  · exact ⟨hc, hw, fun _ => id⟩
  · exact LatchesKept.of_run hp ⟨hc, hw, fun _ => id⟩
  · exact ⟨hc, hw, fun _ => id⟩

/-- A command on bus `b` that stays on it and sets no latch writes its own bus's pins alone. -/
theorem PinsOfItsBusAlone.of_bus (hi : touches i = some b) (hout : OutsideBus s t b) (hl : LatchesKept s t) :
    PinsOfItsBusAlone i s t :=
  ⟨fun q hq => hout.pin q fun l => hq b l hi, hl.latch⟩

theorem PinsOfItsBusAlone.of_pins (h : t.pins = s.pins) : PinsOfItsBusAlone i s t :=
  ⟨fun q _ => State.pin_congr h q, fun q hq => by rwa [State.pin_congr h q] at hq⟩

/-- Settles O60: a bus command stays on its bus and sets no latch, and a command of no bus but the two pin writers leaves
the pins. -/
theorem onlyPinCommandsWriteOtherPins : Obligations.OnlyPinCommandsWriteOtherPins := by
  intro i s hc hw hi
  refine ⟨fun t he => ?_, fun trail => ?_⟩
  · rcases exec_next he with ⟨b, p, hp, rfl⟩ | ⟨-, hl⟩
    · exact .of_bus (touches_of_bodyOf hp) (OutsideBus.of_busCommand (bodyOf_on hp)) (.of_busCommand (bodyOf_on hp) hc hw)
    · cases hl with
      | give => exact .of_pins rfl
      | raise => exact .of_pins rfl
      | setMode p v => exact absurd rfl (hi p v).1
      | write p v => exact absurd rfl (hi p v).2
  · rcases resume_cases { instr := i, trail := trail } s with ⟨b, p, hp, h⟩ | ⟨-, h⟩
    · refine .of_bus (touches_of_bodyOf hp) (OutsideBus.of_resume (touches_of_bodyOf hp)) ?_
      rw [h]
      exact LatchesKept.of_run ((bodyOf_on hp).after trail) ⟨hc, hw, fun _ => id⟩
    · rw [h]; exact .of_pins rfl

/-! ## The lines an engine command leaves -/

/-- Whatever the two pins of bus `b` held, after the events `es` the block drives its lines as `ls` says. -/
def LeavesLines (b : Bus) (es : List Event) (ls : Bool × Bool) : Prop :=
  ∀ p, ((es.foldl (pinAfter b .scl) p).mode == .output) = ls.1 ∧ ((es.foldl (pinAfter b .sda) p).mode == .output) = ls.2

/-- The last line actions decide. -/
theorem LeavesLines.append {es es' : List Event} {ls : Bool × Bool} (h : LeavesLines b es' ls) :
    LeavesLines b (es ++ es') ls := by
  intro p
  rw [List.foldl_append, List.foldl_append]
  exact ⟨(h _).1, (h _).2⟩

theorem leavesLines_wbit (c : Config) (v : Bool) : LeavesLines b (wbitEvents b c.tHalf v) (true, !v) := by
  intro p
  cases v <;> simp [wbitEvents, pinAfter]

theorem leavesLines_rbit (c : Config) (v : Bool) : LeavesLines b (rbitEvents b c.tHalf v) (true, false) := by
  intro p
  simp [rbitEvents, pinAfter]

theorem leavesLines_start (c : Config) (idle : Bool) : LeavesLines b (startEvents b c.tHalf idle) (true, true) :=
  LeavesLines.append fun p => by simp [pinAfter]

theorem leavesLines_stop (c : Config) : LeavesLines b (stopEvents b c.tHalf c.tSettle) (false, false) := by
  intro p
  simp [stopEvents, pinAfter]

theorem leavesLines_xferOut (c : Config) (x : Byte) (a : Bool) :
    LeavesLines b (xferOutEvents b c.tHalf x a) (true, false) := (leavesLines_rbit c a).append

theorem leavesLines_write (c : Config) (x : Byte) (a : Bool) :
    LeavesLines b (writeEvents b c.tHalf x a) (true, false) := by
  intro p
  have h := leavesLines_xferOut (b := b) c x a p
  cases a with
  | true => simpa [writeEvents, pinAfter] using h
  | false => simpa [writeEvents] using h

theorem leavesLines_read (c : Config) (ss : List Bool) (last : Bool) :
    LeavesLines b (readEvents b c.tHalf ss last) (true, !last) := (leavesLines_wbit c last).append

/-- The sequence of each engine command is well-behaved (R241). -/
theorem engineBody_fine {c : Config} {p : Prog} {ls : Bool × Bool} (hb : bodyOf c i = some (b, p))
    (hi : exitLines i = some ls) : p.Fine b longest false false := by
  cases i <;> simp only [exitLines, reduceCtorEq] at hi <;>
    simp only [bodyOf, Option.some.injEq, Prod.mk.injEq] at hb <;> obtain ⟨rfl, rfl⟩ := hb
  case busInit => exact ⟨rfl, nofun, rfl, nofun, rfl, nofun, trivial⟩
  case busStart => exact (startSeq_fine (n := 0) fun _ => ret_fine).mono (by decide)
  case busWriteBit => exact (wbit_fine (n := 0) ret_fine).mono (by decide)
  case busReadBit => exact (rbit_fine (n := 0) fun _ => ret_fine).mono (by decide)
  case busWrite => exact (writeSeq_fine (n := 0) fun _ => ret_fine).mono (by decide)
  case busRead => exact (readSeq_fine (n := 0) fun _ => ret_fine).mono (by decide)
  case busStop => exact (stopSeq_fine (n := 0) ret_fine).mono (by decide)

/-- The course of each engine command leaves the phase and the lines of R145. -/
theorem engineBody_play {c : Config} {p : Prog} {ls : Bool × Bool} {ph : Phase} {look : Nat → Bool}
    (hb : bodyOf c i = some (b, p)) (hi : exitLines i = some ls) :
    (p.play ph look).phase = exitPhase ph i ∧ LeavesLines b (p.play ph look).events ls := by
  cases i <;> simp only [exitLines, Option.some.injEq, reduceCtorEq] at hi <;> subst hi <;>
    simp only [bodyOf, Option.some.injEq, Prod.mk.injEq] at hb <;> obtain ⟨rfl, rfl⟩ := hb
  case busInit b => exact ⟨rfl, fun p => by simp [busInitBody, Prog.play, Act.events, pinAfter]⟩
  case busStart b ha addr rw =>
    unfold busStartBody
    cases ha with
    | true =>
      rw [startSeq_play_addressed]
      exact ⟨rfl, by simpa [Prog.play] using (leavesLines_xferOut c _ _).append⟩
    | false =>
      rw [startSeq_play_bare]
      exact ⟨rfl, by simpa [Prog.play] using leavesLines_start c _⟩
  case busWriteBit b v =>
    unfold busWriteBitBody
    rw [wbit_play]
    exact ⟨rfl, by simpa [Prog.play] using leavesLines_wbit c v⟩
  case busReadBit b =>
    unfold busReadBitBody
    rw [rbit_play]
    exact ⟨rfl, by simpa [Prog.play] using leavesLines_rbit c _⟩
  case busWrite b x =>
    unfold busWriteBody
    rw [writeSeq_play]
    exact ⟨rfl, by simpa [Prog.play] using leavesLines_write c x _⟩
  case busRead b last =>
    unfold busReadBody
    rw [readSeq_play]
    exact ⟨rfl, by simpa [Prog.play] using leavesLines_read c _ last⟩
  case busStop b =>
    unfold busStopBody
    rw [stopSeq_play]
    exact ⟨rfl, by simpa [Prog.play] using leavesLines_stop c⟩

theorem Completed.lines {es : List Event} {ph : Phase} {r : Result} {ls : Bool × Bool} (h : Completed s t b es ph r)
    (hl : LeavesLines b es ls) : t.lines b = ls := by
  obtain ⟨-, -, -, -, hpin, -, hcfg, -⟩ := h
  have hdrive : ∀ l, t.drivesLow b l = ((es.foldl (pinAfter b l) (s.pin (pinOf s.cfg b l))).mode == .output) :=
    fun l => by rw [State.drivesLow, hcfg, hpin]
  exact Prod.ext ((hdrive .scl).trans (hl _).1) ((hdrive .sda).trans (hl _).2)

/-- An engine command's phase precondition is R138's alone. -/
theorem needOf_engine_met {ls : Bool × Bool} {ph : Phase} (hi : exitLines i = some ls)
    (hn : needsTransaction i = true → ph ≠ .idle) : (needOf i).met ph = true := by
  cases i <;> simp only [exitLines, reduceCtorEq] at hi
  case busInit => rfl
  case busStart => rfl
  all_goals exact bne_iff_ne.2 (hn rfl)

theorem wellFormed_of_exitLines {ls : Bool × Bool} (hi : exitLines i = some ls) : i.wellFormed = true := by
  cases i <;> simp only [exitLines, reduceCtorEq] at hi <;> rfl

/-- Settles O35: a ready engine command comes to the end of its course, whose phase and last line actions are R145's. -/
theorem engineCommandsLeaveTheirPhaseAndLines : Obligations.EngineCommandsLeaveTheirPhaseAndLines := by
  intro i s b ls hi ht hready hn
  obtain ⟨hsteady, -, hfree⟩ := hready
  obtain ⟨p, hp⟩ := bodyOf_of_touches (c := s.cfg) ht
  obtain ⟨look, -, hdone⟩ := busCommand_calm (i := i) (engineBody_fine hp hi).anyLines hsteady (fun _ => hfree)
    (needOf_engine_met hi hn)
  obtain ⟨hphase, hlines⟩ := engineBody_play (ph := s.phase.get b) (look := look) hp hi
  refine ⟨_, exec_bus hp (wellFormed_of_exitLines hi), hdone.lines hlines, ?_⟩
  obtain ⟨-, -, hph, -⟩ := hdone
  rw [hph, PerBus.get_set_self, hphase]

/-! ## Steps and reset -/

/-- Settles O4: with nothing in progress, the running context's host issues its next word. -/
theorem aStepRunsTheDecodedCommand : Obligations.AStepRunsTheDecodedCommand := by
  refine ⟨fun s w rest i hf hr hn hj ht hd => ?_, fun s w rest i hf hr hj ht hd => ?_⟩
  · rw [step_of_not_fires hf hr hn, mainStep_of_command (s := s.envMove) hj ht, issue_of_decode hd]
  · rw [step_of_handlerRunning hf hr, handlerStep_of_word (s := s.envMove) hj ht, issue_of_decode hd]

/-- Settles O7: with nothing to do, a step is HANDLER's end, the notification's entry or nothing at all. -/
theorem resetLeavesTheResetTable : Obligations.ResetLeavesTheResetTable := by
  refine ⟨⟨fun _ => rfl, fun b => by cases b <;> rfl, fun b => by cases b <;> rfl, rfl, rfl, rfl, rfl, rfl, rfl, rfl, rfl,
    rfl, rfl, fun _ _ => rfl⟩, fun s hf hm hh hmt hht ha => ?_⟩
  cases hr : s.handlerRunning with
  | true =>
    refine ⟨s.envMove.endHandler, ?_, rfl, rfl, rfl, rfl, rfl, hf, rfl, rfl, hm, hh, hmt, hht, ha⟩
    rw [step_of_handlerRunning hf hr, handlerStep_of_end (s := s.envMove) hh hht]
  | false =>
    cases hn : s.envMove.fires with
    | true =>
      exact ⟨s.envMove.startHandler, step_of_fires hf hr hn, rfl, rfl, rfl, rfl, rfl, hf, rfl, rfl, hm, hh, hmt,
        by simp [ha], by simp [ha]⟩
    | false =>
      refine ⟨s.envMove, ?_, rfl, rfl, rfl, rfl, rfl, hf, rfl, rfl, hm, hh, hmt, hht, ha⟩
      rw [step_of_not_fires hf hr hn, mainStep_of_nothing (s := s.envMove) hm hmt]

end Sys2Proof.Machine
end

section
/-! SUPPORT. The decoder against the encoder (30_encoding.md R70 to R75): each opcode selects one row, a row's word is
its opcode beside its named bits, and a row's operands are read from those bits. Then the statements about encoding. -/

namespace Sys2Proof

open Sys2Proof.Machine

variable {w : CmdWord} {i : Instr}

/-- The command of `i`'s row with its operands read from `w` (R71, R72). -/
def Instr.reread (w : CmdWord) : Instr → Instr
  | .pinValid _ => .pinValid (field w 0 8)
  | .pinSetMode .. => .pinSetMode (field w 0 8) (bitField w 8)
  | .pinWrite .. => .pinWrite (field w 0 8) (bitField w 8)
  | .pinRead _ => .pinRead (field w 0 8)
  | .lineDriveLow .. => .lineDriveLow (busField w) (lineField w)
  | .lineRelease .. => .lineRelease (busField w) (lineField w)
  | .lineRead .. => .lineRead (busField w) (lineField w)
  | .sclWaitHigh _ => .sclWaitHigh (busField w)
  | .halfDelay _ => .halfDelay (busField w)
  | .busInit _ => .busInit (busField w)
  | .busStart .. => .busStart (busField w) (bitField w 8) (field w 1 7) (bitField w 0)
  | .busWriteBit .. => .busWriteBit (busField w) (bitField w 0)
  | .busReadBit _ => .busReadBit (busField w)
  | .busWrite .. => .busWrite (busField w) (field w 0 8)
  | .busRead .. => .busRead (busField w) (bitField w 8)
  | .busStop _ => .busStop (busField w)
  | .bcdEncode _ => .bcdEncode (field w 0 8)
  | .bcdDecode _ => .bcdDecode (field w 0 8)
  | .yearEncode _ => .yearEncode (field w 0 16)
  | .yearDecode .. => .yearDecode (field w 0 8) (bitField w 8)
  | .tempDecode .. => .tempDecode (field w 0 8) (field w 8 8)
  | .rtcReadRegs .. => .rtcReadRegs (field w 0 8) (field w 8 3)
  | .rtcWriteRegs .. =>
    .rtcWriteRegs (field w 0 8) (field w 8 3) (field w 16 8) (field w 24 8) (field w 32 8) (field w 40 8)
  | .rtcReadTime => .rtcReadTime
  | .rtcWriteTime .. => .rtcWriteTime (field w 16 8) (field w 8 8) (field w 0 8)
  | .rtcReadDate => .rtcReadDate
  | .rtcWriteDate .. => .rtcWriteDate (field w 0 8) (field w 8 8) (field w 16 16)
  | .rtcReadTemp => .rtcReadTemp
  | .rtcInit => .rtcInit
  | .rtcArmAlarm => .rtcArmAlarm
  | .rtcAckAlarm => .rtcAckAlarm
  | .segDigit _ => .segDigit (field w 0 4)
  | .segSetDot .. => .segSetDot (field w 0 8) (field w 8 8) (field w 16 8) (field w 24 8) (field w 32 2)
  | .segNumber .. => .segNumber (field w 0 16) (bitField w 16) (field w 20 4)
  | .dispShowFrame .. =>
    .dispShowFrame (field w 0 8) (field w 8 8) (field w 16 8) (field w 24 8) (field w 32 3)

@[simp] theorem opcodeOf_reread (w : CmdWord) (i : Instr) : opcodeOf (i.reread w) = opcodeOf i := by
  cases i <;> rfl

/-! ## The decoder by opcode (R72, R75) -/

/-- A word with a row's opcode is that row's command with the word's operands, where no reserved bit is 1 (R74). -/
theorem decode_of_opcode (h : field w 56 8 = opcodeOf i) :
    decode w = unlessReserved (formatOf i) w (i.reread w) := by
  unfold decode
  rw [h]
  cases i <;> rfl

/-- One arm of the decoder is out of reach where no row has the word's opcode. -/
theorem unlessReserved_of_no_row {f : Format} (hno : ∀ i, opcodeOf i ≠ field w 56 8)
    (h : (field w 56 8).toNat = (opcodeOf i).toNat) : unlessReserved f w i = .error .illegalOpcode :=
  absurd (BitVec.eq_of_toNat_eq h).symm (hno i)

theorem decode_of_no_row (hno : ∀ i, opcodeOf i ≠ field w 56 8) : decode w = .error .illegalOpcode := by
  unfold decode
  split
  case h_36 => rfl
  all_goals exact unlessReserved_of_no_row hno (by assumption)

/-- No row has the opcodes 0x00 and 0xFF (R75). -/
theorem opcodeOf_ne_zero_and_ne_ones (i : Instr) : opcodeOf i ≠ 0x00#8 ∧ opcodeOf i ≠ 0xFF#8 := by
  cases i <;> simp [opcodeOf]

/-! ## Named and reserved bits (R70, R74) -/

theorem field_and (a b : CmdWord) (lo n : Nat) : field (a &&& b) lo n = field a lo n &&& field b lo n :=
  BitVec.extractLsb'_and

/-- No format names a bit of the opcode (R70). -/
theorem field_named (f : Format) : field f.named 56 8 = 0 := by
  cases f <;> decide

/-- Opcode, named bits and reserved bits are the whole word (R70). -/
theorem opcode_or_named_or_reserved (f : Format) : fieldMask 56 8 ||| f.named ||| f.reserved = BitVec.allOnes 64 := by
  cases f <;> decide

theorem named_and_reserved (f : Format) : f.named &&& f.reserved = 0 := by
  cases f <;> decide

theorem field_reserved (f : Format) : field f.reserved 56 8 = 0 := by
  cases f <;> decide

/-- A word without a reserved bit is its opcode beside its named bits. -/
theorem eq_opcode_or_named {f : Format} (h : w &&& f.reserved = 0) :
    w = placed (field w 56 8) 56 ||| (w &&& f.named) := by
  calc w = w &&& (fieldMask 56 8 ||| f.named ||| f.reserved) := by
        rw [opcode_or_named_or_reserved, BitVec.and_allOnes]
    _ = placed (field w 56 8) 56 ||| (w &&& f.named) := by
        rw [BitVec.and_or_distrib_left, BitVec.and_or_distrib_left, h, placed_field]
        exact BitVec.or_zero

/-! ## Operands (R71) -/

/-- The operands a row reads from a word are the word's named bits. -/
theorem operandsOf_reread (w : CmdWord) (i : Instr) : operandsOf (i.reread w) = w &&& (formatOf i).named := by
  cases i <;>
    simp only [Instr.reread, operandsOf, formatOf, Format.named, placed_field, placedBit_bitField, placedBus_busField,
      placedLine_lineField, BitVec.and_or_distrib_left]
  case busStart => ac_rfl
  all_goals exact BitVec.and_zero.symm

/-- The bit placed for a bus is read back as that bus. -/
theorem busOfBit_eq (b : Bus) : (bif b == .disp then Bus.disp else .rtc) = b := by
  cases b <;> rfl

/-- The bit placed for a line is read back as that line. -/
theorem lineOfBit_eq (l : Line) : (bif l == .sda then Line.sda else .scl) = l := by
  cases l <;> rfl

/-- A command's operands are read back from its word, whatever they are: each field reads the part placed there, and
zeros from every other part. -/
theorem reread_encode (i : Instr) : i.reread (encode i) = i := by
  have zeroOr {n : Nat} (v : BitVec n) : 0 ||| v = v := BitVec.zero_or
  have orZero {n : Nat} (v : BitVec n) : v ||| 0 = v := BitVec.or_zero
  cases i <;>
    simp (disch := decide) only [Instr.reread, encode, operandsOf, placedBus, placedLine, busField, lineField,
      field_or, field_placed_self, field_placed_disjoint, field_placedBit_disjoint, zeroOr, orZero,
      bitField_or, bitField_placedBit_self, bitField_placedBit_ne, bitField_placed_disjoint,
      Bool.false_or, Bool.or_false, busOfBit_eq, lineOfBit_eq]

/-- A command's operand bits are the bits its format names. -/
theorem operandsOf_eq (i : Instr) : operandsOf i = encode i &&& (formatOf i).named := by
  rw [← operandsOf_reread, reread_encode]

theorem field_encode (i : Instr) : field (encode i) 56 8 = opcodeOf i := by
  have hoperands : field (operandsOf i) 56 8 = 0 := by
    rw [operandsOf_eq, field_and, field_named]
    exact BitVec.and_zero
  rw [encode, field_or, field_placed_self _ _ (by decide), hoperands]
  exact BitVec.or_zero

/-- A command's word has no reserved bit of its format (R74). -/
theorem encode_and_reserved (i : Instr) : encode i &&& (formatOf i).reserved = 0 := by
  have hoperands : operandsOf i &&& (formatOf i).reserved = 0 := by
    rw [operandsOf_eq, BitVec.and_assoc, named_and_reserved]
    exact BitVec.and_zero
  rw [encode, BitVec.and_or_distrib_right, placed_and _ _ _ (field_reserved _), hoperands]
  exact BitVec.or_zero

/-- A word with a row's opcode and none of its reserved bits is the word of the command read from it. -/
theorem encode_reread (hop : field w 56 8 = opcodeOf i) (hr : w &&& (formatOf i).reserved = 0) :
    encode (i.reread w) = w := by
  rw [encode, opcodeOf_reread, operandsOf_reread, ← hop]
  exact (eq_opcode_or_named hr).symm

/-! ## Decoding (R74, R75) -/

theorem unlessReserved_of_and_eq_zero {f : Format} (h : w &&& f.reserved = 0) : unlessReserved f w i = .ok i :=
  if_pos h

theorem unlessReserved_of_and_ne_zero {f : Format} (h : w &&& f.reserved ≠ 0) :
    unlessReserved f w i = .error .reservedBits :=
  if_neg h

theorem decode_encode (i : Instr) : decode (encode i) = .ok i := by
  rw [decode_of_opcode (field_encode i), unlessReserved_of_and_eq_zero (encode_and_reserved i), reread_encode]

/-- All that the decoder can answer: the command read from the word, or the reason why there is none (R74, R75). -/
inductive Decoded (w : CmdWord) : Except RefuseReason Instr → Prop
  | row (i : Instr) (hop : field w 56 8 = opcodeOf i) (hr : w &&& (formatOf i).reserved = 0) :
      Decoded w (.ok (i.reread w))
  | reserved (i : Instr) (hop : field w 56 8 = opcodeOf i) (hr : w &&& (formatOf i).reserved ≠ 0) :
      Decoded w (.error .reservedBits)
  | noRow (hno : ∀ i, opcodeOf i ≠ field w 56 8) : Decoded w (.error .illegalOpcode)

theorem decoded (w : CmdWord) : Decoded w (decode w) := by
  by_cases h : ∃ i, opcodeOf i = field w 56 8
  · obtain ⟨i, hi⟩ := h
    rw [decode_of_opcode hi.symm]
    by_cases hr : w &&& (formatOf i).reserved = 0
    · rw [unlessReserved_of_and_eq_zero hr]
      exact .row i hi.symm hr
    · rw [unlessReserved_of_and_ne_zero hr]
      exact .reserved i hi.symm hr
  · have hno : ∀ i, opcodeOf i ≠ field w 56 8 := fun i hi => h ⟨i, hi⟩
    rw [decode_of_no_row hno]
    exact .noRow hno

theorem decoded_of {r : Except RefuseReason Instr} (h : decode w = r) : Decoded w r := h ▸ decoded w

/-- A word that decodes is its command's word. -/
theorem eq_encode_of_decode (h : decode w = .ok i) : w = encode i := by
  cases decoded_of h with
  | row j hop hr => exact (encode_reread hop hr).symm

/-- Settles O2: a command is read back from its word, and a word that decodes is its opcode beside the named bits. -/
theorem decodingAndEncodingAgree : Obligations.DecodingAndEncodingAgree :=
  fun _ i => ⟨eq_encode_of_decode, fun h => h ▸ decode_encode i⟩

/-- Settles O1: each word is the word of its command. -/
theorem specWordsDecodeToTheirCommands : Obligations.SpecWordsDecodeToTheirCommands := by
  refine ⟨?_, ?_, ?_, ?_, ?_, ?_, ?_, ?_, ?_⟩ <;> exact (decodingAndEncodingAgree _ _).2 (by decide)

/-! ## Rows of the opcode map (R72) -/

/-- The bits a row of format `f` fixes: the opcode and the format's reserved bits (R70, R72). -/
def Format.fixed (f : Format) : CmdWord := fieldMask 56 8 ||| f.reserved

theorem field_fixed (f : Format) : field f.fixed 56 8 = BitVec.allOnes 8 := by
  cases f <;> decide

theorem fixed_and_reserved (f : Format) : f.fixed &&& f.reserved = f.reserved := by
  cases f <;> decide

/-- A row fixes its opcode, and every reserved bit to 0. -/
theorem tableRow_eq (i : Instr) : tableRow i = (placed (opcodeOf i) 56, (formatOf i).fixed) := by
  cases i <;>
  · dsimp only [tableRow, opcodeOf, formatOf]
    decide

/-- A word selects a row exactly if it has the row's opcode and none of its reserved bits. -/
theorem selects_iff : w &&& (tableRow i).2 = (tableRow i).1 ↔
    field w 56 8 = opcodeOf i ∧ w &&& (formatOf i).reserved = 0 := by
  simp only [tableRow_eq]
  constructor
  · intro h
    constructor
    · calc field w 56 8 = field (w &&& (formatOf i).fixed) 56 8 := by
            rw [field_and, field_fixed, BitVec.and_allOnes]
        _ = opcodeOf i := by rw [h, field_placed_self _ _ (by decide)]
    · calc w &&& (formatOf i).reserved = w &&& (formatOf i).fixed &&& (formatOf i).reserved := by
            rw [BitVec.and_assoc, fixed_and_reserved]
        _ = 0 := by rw [h, placed_and _ _ _ (field_reserved _)]
  · rintro ⟨hop, hr⟩
    rw [Format.fixed, BitVec.and_or_distrib_left, ← placed_field, hop, hr]
    exact BitVec.or_zero

theorem decode_of_selects (h : w &&& (tableRow i).2 = (tableRow i).1) : decode w = .ok (i.reread w) := by
  obtain ⟨hop, hr⟩ := selects_iff.1 h
  rw [decode_of_opcode hop, unlessReserved_of_and_eq_zero hr]

/-- The decoder answers IllegalOpcode exactly if no row has the word's opcode (R75). -/
theorem decode_illegalOpcode_iff : decode w = .error .illegalOpcode ↔ ∀ i, opcodeOf i ≠ field w 56 8 := by
  refine ⟨fun h => ?_, decode_of_no_row⟩
  cases decoded_of h with
  | noRow hno => exact hno

/-- The decoder answers ReservedBits exactly if a row has the word's opcode and the word selects none (R74). -/
theorem decode_reservedBits_iff : decode w = .error .reservedBits ↔
    (∃ i, opcodeOf i = field w 56 8) ∧ ∀ i, w &&& (tableRow i).2 ≠ (tableRow i).1 := by
  constructor
  · intro h
    refine ⟨?_, fun j hj => by simp [decode_of_selects hj] at h⟩
    cases decoded_of h with
    | reserved i hop hr => exact ⟨i, hop.symm⟩
  · rintro ⟨⟨i, hi⟩, hnone⟩
    rw [decode_of_opcode hi.symm]
    exact unlessReserved_of_and_ne_zero fun hr => hnone i (selects_iff.2 ⟨hi.symm, hr⟩)

/-- Settles O3: the decoder's three answers, told apart by the word's opcode and the reserved bits of its row. -/
theorem everyWordSelectsOneRowOrIsRefused : Obligations.EveryWordSelectsOneRowOrIsRefused := by
  intro w
  refine ⟨fun i h => ?_, fun i j hi hj => ?_, decode_illegalOpcode_iff, decode_reservedBits_iff,
    fun h => ?_, fun h => ?_⟩
  · rw [eq_encode_of_decode h]
    exact selects_iff.2 ⟨field_encode i, encode_and_reserved i⟩
  · exact (selects_iff.1 hi).1.symm.trans (selects_iff.1 hj).1
  · refine decode_of_no_row fun i hi => ?_
    obtain ⟨hzero, hones⟩ := opcodeOf_ne_zero_and_ne_ones i
    exact h.elim (fun h => hzero (hi.trans h)) (fun h => hones (hi.trans h))
  · cases decoded_of h

end Sys2Proof
end

section
/-! SUPPORT. Refusals (30_encoding.md R77, R78): which commands are refused, and what a refused step leaves. -/

namespace Sys2Proof.Machine

variable {s : State} {i : Instr}

theorem wellFormed_bcdEncode {x : Byte} : (Instr.bcdEncode x).wellFormed = bcdDomain x := rfl

theorem wellFormed_yearEncode {y : BitVec 16} : (Instr.yearEncode y).wellFormed = yearDomain y := rfl

theorem wellFormed_segNumber {v : BitVec 16} {sup : Bool} {dots : BitVec 4} :
    (Instr.segNumber v sup dots).wellFormed = numberDomain v := rfl

/-- Inside its domain a command answers a next state (R77). -/
theorem exec_of_wellFormed (hw : i.wellFormed = true) : ∃ t, exec i s = .next t := by
  cases hb : bodyOf s.cfg i with
  | some e => exact ⟨_, exec_bus hb hw⟩
  | none =>
    cases i <;> simp only [bodyOf, reduceCtorEq] at hb
    case bcdEncode => exact ⟨_, by rw [exec, execBcdEncode, ← wellFormed_bcdEncode, hw, cond_true]⟩
    case yearEncode => exact ⟨_, by rw [exec, execYearEncode, ← wellFormed_yearEncode, hw, cond_true]⟩
    case segNumber v sup dots =>
      exact ⟨_, by rw [exec, execSegNumber, ← wellFormed_segNumber (sup := sup) (dots := dots), hw, cond_true]⟩
    all_goals exact ⟨_, rfl⟩

/-- Outside its domain a command is refused before anything else (R77). -/
theorem exec_of_not_wellFormed (hw : i.wellFormed = false) : exec i s = outOfDomain s := by
  cases i
  case bcdEncode => rw [exec, execBcdEncode, ← wellFormed_bcdEncode, hw, cond_false]
  case yearEncode => rw [exec, execYearEncode, ← wellFormed_yearEncode, hw, cond_false]
  case rtcReadRegs reg n => rw [exec, execRtcReadRegs, ← wellFormed_readDomain (reg := reg), hw, cond_false]
  case rtcWriteRegs reg n d0 d1 d2 d3 =>
    rw [exec, execRtcWriteRegs, ← wellFormed_writeDomain (reg := reg), hw, cond_false]
  case rtcWriteTime => rw [exec, execRtcWriteTime, ← wellFormed_writeTime, hw, cond_false]
  case rtcWriteDate => rw [exec, execRtcWriteDate, ← wellFormed_writeDate, hw, cond_false]
  case segNumber v sup dots =>
    rw [exec, execSegNumber, ← wellFormed_segNumber (sup := sup) (dots := dots), hw, cond_false]
  all_goals cases hw

/-- Settles O6: a command's own domain check is the well-formedness of its operands. -/
theorem commandsAreRefusedExactlyOutsideTheirDomain : Obligations.CommandsAreRefusedExactlyOutsideTheirDomain :=
  fun _ _ => ⟨exec_of_wellFormed, exec_of_not_wellFormed⟩

/-- A refused command marks the run it found (R77, R78). -/
theorem exec_refused {r : Refusal} (h : exec i s = .refused r) : ∃ e, r = .refuse e (s.mark e) := by
  cases hw : i.wellFormed with
  | true =>
    obtain ⟨t, ht⟩ := exec_of_wellFormed (s := s) hw
    rw [ht] at h
    cases h
  | false =>
    rw [exec_of_not_wellFormed hw] at h
    cases h
    exact ⟨_, rfl⟩

theorem issue_of_decode_error {w : CmdWord} {e : RefuseReason} (h : decode w = .error e) :
    issue w s = .refused (.refuse e (s.mark e)) := by
  simp [issue, h]

/-- A word is refused by the decoder or by its command, and either marks the run it found (R78). -/
theorem issue_refused {w : CmdWord} {r : Refusal} (h : issue w s = .refused r) : ∃ e, r = .refuse e (s.mark e) := by
  cases hd : decode w with
  | ok i =>
    rw [issue_of_decode hd] at h
    exact exec_refused h
  | error e =>
    rw [issue_of_decode_error hd] at h
    cases h
    exact ⟨_, rfl⟩

theorem handlerStep_refused {r : Refusal} (h : handlerStep s = .refused r) :
    ∃ ws e, r = .refuse e ({ s with handlerTodo := ws }.mark e) := by
  unfold handlerStep at h
  split at h
  next => cases h
  next =>
    split at h
    next w ws _ => exact ⟨ws, issue_refused h⟩
    next => cases h

theorem mainStep_refused {r : Refusal} (h : mainStep s = .refused r) :
    ∃ rest e, r = .refuse e ({ s with mainTodo := rest }.mark e) := by
  unfold mainStep at h
  split at h
  next => cases h
  next =>
    split at h
    next w rest _ => exact ⟨rest, issue_refused h⟩
    next => cases h
    next => cases h

/-- A refused step marks the run after the environment's move and takes the word off its host's list (R78, R242). -/
theorem step_refused {r : Refusal} (h : step s = .refused r) :
    ∃ e, (∃ ws, r = .refuse e ({ s.envMove with handlerTodo := ws }.mark e)) ∨
      ∃ rest, r = .refuse e ({ s.envMove with mainTodo := rest }.mark e) := by
  cases hf : s.fault with
  | some f => simp [step, hf] at h
  | none =>
    cases hr : s.handlerRunning with
    | true =>
      rw [step_of_handlerRunning hf hr] at h
      obtain ⟨ws, e, he⟩ := handlerStep_refused h
      exact ⟨e, .inl ⟨ws, he⟩⟩
    | false =>
      cases hn : s.envMove.fires with
      | true =>
        rw [step_of_fires hf hr hn] at h
        cases h
      | false =>
        rw [step_of_not_fires hf hr hn] at h
        obtain ⟨rest, e, he⟩ := mainStep_refused h
        exact ⟨e, .inr ⟨rest, he⟩⟩

/-- Settles O5: a refusal marks the run it found, which differs from the run before the step by the environment's move
and the word taken off its list. -/
theorem aRefusedCommandChangesNothing : Obligations.ARefusedCommandChangesNothing := by
  refine ⟨fun s run e h => ?_, fun s w rest e hf hr hn hj ht hd => ?_, fun s w rest e hf hr hj ht hd => ?_⟩
  · obtain ⟨e', ⟨ws, he⟩ | ⟨rest, he⟩⟩ := step_refused h <;>
    · cases he
      exact ⟨rfl, rfl, rfl, rfl, rfl, rfl, rfl, rfl, rfl, rfl, rfl, rfl, rfl⟩
  · rw [step_of_not_fires hf hr hn, mainStep_of_command (s := s.envMove) hj ht, issue_of_decode_error hd]
    exact ⟨_, rfl⟩
  · rw [step_of_handlerRunning hf hr, handlerStep_of_word (s := s.envMove) hj ht, issue_of_decode_error hd]
    exact ⟨_, rfl⟩

end Sys2Proof.Machine
end

section
/-! SUPPORT. The month byte (30_encoding.md R82, 43_codec.md R166) by its value. -/

namespace Sys2Proof.Machine

theorem bcdEncode_toNat {d : Nat} (h : d ≤ 99) : (bcdEncode d).toNat = 16 * (d / 10) + d % 10 := by
  have hor : (d / 10) <<< 4 ||| d % 10 = (d / 10) <<< 4 + d % 10 :=
    (Nat.shiftLeft_add_eq_or_of_lt (by omega) _).symm
  rw [bcdEncode, hor, Nat.shiftLeft_eq, BitVec.toNat_ofNat]
  omega

theorem bcdDecode_eq (b : Byte) : bcdDecode b = b.toNat / 16 * 10 + b.toNat % 16 := by
  rw [bcdDecode, Nat.shiftRight_eq_div_pow, Nat.and_two_pow_sub_one_eq_mod _ 4]

/-- Without the century flag the month byte is the BCD month (R82). -/
theorem monthByte_false (m : Nat) : monthByte m false = bcdEncode m := by
  simp [monthByte]

/-- Setting bit 7 of a byte keeps its low seven bits. -/
theorem toNat_or_bit7 (b : Byte) : (0x80#8 ||| b).toNat = b.toNat % 128 + 128 := by
  have hlow : (128 ||| b.toNat) % 128 = b.toNat % 128 := by
    rw [Nat.or_mod_two_pow (n := 7)]
    exact Nat.zero_or _
  have hhigh : 128 ≤ 128 ||| b.toNat := Nat.left_le_or
  have hlt : 128 ||| b.toNat < 256 := Nat.or_lt_two_pow (n := 8) (by decide) b.isLt
  rw [BitVec.toNat_or]
  show 128 ||| b.toNat = _
  omega

/-- The century flag is bit 7 of the month byte (R82). -/
theorem monthByte_true (m : Nat) : monthByte m true = 0x80#8 ||| bcdEncode m := rfl

theorem splitMonth_eq (mb : Byte) : splitMonth mb = bcdDecode (BitVec.ofNat 8 (mb.toNat % 128)) := by
  have hlow : mb &&& 0x7F#8 = BitVec.ofNat 8 (mb.toNat % 128) := by
    have hmask : mb.toNat &&& 127 = mb.toNat % 128 := Nat.and_two_pow_sub_one_eq_mod _ 7
    apply BitVec.eq_of_toNat_eq
    rw [BitVec.toNat_and, BitVec.toNat_ofNat (mb.toNat % 128)]
    show mb.toNat &&& 127 = _
    omega
  rw [splitMonth, hlow]

theorem splitCentury_iff (mb : Byte) : splitCentury mb = true ↔ 128 ≤ mb.toNat := by
  have hmsb : splitCentury mb = mb.msb := rfl
  rw [hmsb, BitVec.msb_eq_decide, decide_eq_true_eq]

/-- The low seven bits of the month byte hold a month up to 79 in BCD, whatever the century (R82). -/
theorem splitMonth_monthByte {m : Nat} (h : m ≤ 79) (cen : Bool) : splitMonth (monthByte m cen) = m := by
  have hm := bcdEncode_toNat (d := m) (by omega)
  have hlow : (monthByte m cen).toNat % 128 = 16 * (m / 10) + m % 10 := by
    cases cen with
    | false => rw [monthByte_false, hm]; omega
    | true => rw [monthByte_true, toNat_or_bit7, hm]; omega
  rw [splitMonth_eq, bcdDecode_eq, hlow, BitVec.toNat_ofNat]
  omega

/-- A month up to 79 leaves bit 7 to the century flag (R82). -/
theorem splitCentury_monthByte {m : Nat} (h : m ≤ 79) (cen : Bool) : splitCentury (monthByte m cen) = cen := by
  rw [Bool.eq_iff_iff, splitCentury_iff]
  cases cen with
  | false =>
    rw [monthByte_false, bcdEncode_toNat (by omega)]
    exact iff_of_false (by omega) Bool.false_ne_true
  | true =>
    rw [monthByte_true, toNat_or_bit7]
    exact iff_of_true (by omega) rfl

/-- Settles O44: the flag is bit 7, and a month up to 79 leaves it free. -/
theorem monthByteCarriesTheCentury : Obligations.MonthByteCarriesTheCentury :=
  ⟨fun _ cen h => ⟨splitMonth_monthByte h cen, splitCentury_monthByte h cen⟩,
    fun m _ => ⟨monthByte_true m ▸ toNat_or_bit7 _, monthByte_false m⟩,
    fun mb => ⟨splitMonth_eq mb, splitCentury_iff mb⟩⟩

end Sys2Proof.Machine
end

section
/-! SUPPORT. The pin abstraction (40_pin.md): the slot of a pin as a count of the valid ids below it (R101), what each
pin command answers in each of its cases (R100, R102 to R104), and the statements about pins. -/

namespace Sys2Proof.Machine

variable {c : Config} {s t : State} {p q : Byte} {v : Bool} {b : Bus} {l : Line}

/-! ## The slots (R101) -/

/-- The numbers that name no pin: 0 and the reserved ids (R100). -/
def unnamed (c : Config) : List Nat := 0 :: c.reservedPins.toList.map BitVec.toNat

theorem mem_unnamed : p.toNat ∈ unnamed c ↔ p.toNat = 0 ∨ p ∈ c.reservedPins.toList := by
  rw [unnamed, List.mem_cons, List.mem_map_of_injective fun _ _ => BitVec.eq_of_toNat_eq]

/-- An id is valid if it is not above `N_PINS`, not 0 and not reserved (R100). -/
theorem validPin_iff : validPin c p = true ↔ p.toNat ≤ c.nPins ∧ p.toNat ∉ unnamed c := by
  rw [mem_unnamed]
  simp only [validPin, Bool.and_eq_true, decide_eq_true_eq, Bool.not_eq_true', List.contains_eq_mem,
    decide_eq_false_iff_not, not_or, Nat.one_le_iff_ne_zero]
  tauto

theorem nodup_unnamed (h : configWf c = true) : (unnamed c).Nodup := by
  obtain ⟨-, hnodup, hres, -⟩ := configWf_iff.1 h
  refine List.nodup_cons.2 ⟨fun h0 => ?_, hnodup.map fun _ _ => BitVec.eq_of_toNat_eq⟩
  obtain ⟨r, hr, h0⟩ := List.mem_map.1 h0
  have := (hres r hr).1
  omega

theorem countP_lt_succ (xs : List Nat) (n : Nat) : xs.countP (· < n + 1) = xs.countP (· < n) + xs.count n := by
  induction xs with
  | nil => rfl
  | cons x xs ih =>
    simp only [List.countP_cons, List.count_cons, ih, decide_eq_true_eq, beq_iff_eq]
    split_ifs <;> omega

/-- Below `n` lie the numbers a list names and those it does not. -/
theorem count_notMem_add_countP {xs : List Nat} (h : xs.Nodup) (n : Nat) :
    Nat.count (· ∉ xs) n + xs.countP (· < n) = n := by
  induction n with
  | zero => simp
  | succ n ih =>
    rw [Nat.count_succ, countP_lt_succ, h.count]
    split_ifs <;> omega

/-- The slot of a pin is the number of ids below it that are neither 0 nor reserved (R101). -/
theorem pinSlot_eq_count (h : configWf c = true) (p : Byte) :
    pinSlot c p = Nat.count (· ∉ unnamed c) p.toNat := by
  have hcount := count_notMem_add_countP (nodup_unnamed h) p.toNat
  have hbelow : (unnamed c).countP (· < p.toNat) =
      (c.reservedPins.toList.countP fun r => r.toNat < p.toNat) + if 0 < p.toNat then 1 else 0 := by
    simp [unnamed, List.countP_cons, List.countP_map, Function.comp_def]
  rw [pinSlot, ← List.countP_eq_length_filter]
  split_ifs at hbelow <;> omega

/-- On a sound board `N_PINS - 4` ids are valid (R101, R263). -/
theorem count_unnamed_nPins (h : configWf c = true) :
    Nat.count (· ∉ unnamed c) (c.nPins + 1) = c.nPins - 4 := by
  have hcount := count_notMem_add_countP (nodup_unnamed h) (c.nPins + 1)
  obtain ⟨-, -, hres, -⟩ := configWf_iff.1 h
  have hall : (unnamed c).countP (· < c.nPins + 1) = (unnamed c).length := by
    rw [List.countP_eq_length]
    intro n hn
    obtain rfl | hn := List.mem_cons.1 hn
    · simp
    · obtain ⟨r, hr, rfl⟩ := List.mem_map.1 hn
      exact decide_eq_true (Nat.lt_succ_of_le (hres r hr).2)
  have hlen : (unnamed c).length = 5 := by simp [unnamed]
  omega

/-- A count takes every value below its last one where its predicate holds. -/
theorem exists_count_eq {P : Nat → Prop} [DecidablePred P] {k n : Nat} (h : k < Nat.count P n) :
    ∃ m < n, P m ∧ Nat.count P m = k := by
  have hcard : ∀ hf : (Set.ofPred P).Finite, k < hf.toFinset.card := fun hf => h.trans_le (Nat.count_le_card hf n)
  exact ⟨Nat.nth P k, Nat.nth_lt_of_lt_count h, Nat.nth_mem k hcard, Nat.count_nth hcard⟩

theorem pinSlot_injective (h : configWf c = true) (hp : validPin c p = true) (hq : validPin c q = true)
    (heq : pinSlot c p = pinSlot c q) : p = q := by
  rw [pinSlot_eq_count h, pinSlot_eq_count h] at heq
  exact BitVec.eq_of_toNat_eq (Nat.count_injective (validPin_iff.1 hp).2 (validPin_iff.1 hq).2 heq)

theorem pinSlot_lt (h : configWf c = true) (hp : validPin c p = true) : pinSlot c p < c.nPins - 4 := by
  obtain ⟨hle, hnamed⟩ := validPin_iff.1 hp
  rw [pinSlot_eq_count h, ← count_unnamed_nPins h]
  exact Nat.count_strict_mono hnamed (by omega)

theorem exists_pinSlot_eq {k : Nat} (h : configWf c = true) (hk : k < c.nPins - 4) :
    ∃ p, validPin c p = true ∧ pinSlot c p = k := by
  rw [← count_unnamed_nPins h] at hk
  obtain ⟨n, hn, hnamed, hcount⟩ := exists_count_eq hk
  have hmax : c.nPins ≤ 255 := (configWf_iff.1 h).1
  have hid : (BitVec.ofNat 8 n).toNat = n := by
    rw [BitVec.toNat_ofNat]
    omega
  refine ⟨BitVec.ofNat 8 n, validPin_iff.2 ?_, ?_⟩
  · rw [hid]
    exact ⟨by omega, hnamed⟩
  · rw [pinSlot_eq_count h, hid, hcount]

/-- Settles O17: port group and bit are quotient and remainder of the slot, and the slot counts the valid ids. -/
theorem pinMappingIsInjectiveWithNoGap : Obligations.PinMappingIsInjectiveWithNoGap := by
  refine fun c h => ⟨fun p => ⟨rfl, rfl, rfl⟩, fun p q hp hq hport hbit => pinSlot_injective h hp hq ?_, fun k => ?_⟩
  · calc pinSlot c p = c.pinsPerPort * pinPort c p + pinBit c p := (Nat.div_add_mod _ _).symm
      _ = c.pinsPerPort * pinPort c q + pinBit c q := by rw [hport, hbit]
      _ = pinSlot c q := Nat.div_add_mod _ _
  · constructor
    · rintro ⟨p, hp, rfl⟩
      exact pinSlot_lt h hp
    · exact exists_pinSlot_eq h

/-! ## The commands by their cases -/

theorem exec_pinValid : exec (.pinValid p) s = .next (s.give (.bit (validPin s.cfg p))) := rfl

theorem exec_pinRead : exec (.pinRead p) s = .next (s.give (.bit (s.readPin p))) := rfl

/-- A pin is a bus pin exactly if it carries a line (R23). -/
theorem lineOf_isSome : (lineOf c p).isSome = true ↔ ∃ b l, p = pinOf c b l := by
  rw [Option.isSome_iff_ne_none, Ne, lineOf_eq_none]
  push Not
  rfl

theorem exec_pinSetMode_of_invalid (hp : validPin s.cfg p = false) :
    exec (.pinSetMode p v) s = .next (s.give .nothing) := by
  rw [exec, execPinSetMode, hp]
  rfl

theorem exec_pinSetMode_of_outputHigh (hp : validPin s.cfg p = true) (hbus : ∃ b l, p = pinOf s.cfg b l)
    (hv : v = true) (hlatch : (s.pin p).latch = true) :
    exec (.pinSetMode p v) s = .next (s.raise (.outputHigh p)) := by
  rw [exec, execPinSetMode, hp, lineOf_isSome.2 hbus, hv, hlatch]
  rfl

theorem exec_pinSetMode_of_valid (hp : validPin s.cfg p = true)
    (hdrain : (∃ b l, p = pinOf s.cfg b l) → v = false ∨ (s.pin p).latch = false) :
    exec (.pinSetMode p v) s = .next ((s.setMode p v).give .nothing) := by
  have hguard : ((lineOf s.cfg p).isSome && v && (s.pin p).latch) = false := by
    cases hline : (lineOf s.cfg p).isSome with
    | false => rfl
    | true => rcases hdrain (lineOf_isSome.1 hline) with h | h <;> simp [h]
  rw [exec, execPinSetMode, hp, hguard]
  rfl

theorem exec_pinWrite_of_invalid (hp : validPin s.cfg p = false) :
    exec (.pinWrite p v) s = .next (s.give .nothing) := by
  rw [exec, execPinWrite, hp]
  rfl

theorem exec_pinWrite_of_outputHigh (hp : validPin s.cfg p = true) (hbus : ∃ b l, p = pinOf s.cfg b l)
    (hv : v = true) (hmode : (s.pin p).mode = .output) :
    exec (.pinWrite p v) s = .next (s.raise (.outputHigh p)) := by
  rw [exec, execPinWrite, hp, lineOf_isSome.2 hbus, hv, hmode]
  rfl

theorem exec_pinWrite_of_valid (hp : validPin s.cfg p = true)
    (hdrain : (∃ b l, p = pinOf s.cfg b l) → v = false ∨ (s.pin p).mode = .input) :
    exec (.pinWrite p v) s = .next ((s.setPin p { s.pin p with latch := v }).give .nothing) := by
  have hguard : ((lineOf s.cfg p).isSome && (s.pin p).mode == .output && v) = false := by
    cases hline : (lineOf s.cfg p).isSome with
    | false => rfl
    | true => rcases hdrain (lineOf_isSome.1 hline) with h | h <;> simp [h]
  rw [exec, execPinWrite, hp, hguard]
  rfl

theorem State.readPin_of_invalid (hp : validPin s.cfg p = false) : s.readPin p = false := by
  rw [State.readPin, hp]
  rfl

theorem State.readPin_of_output (hp : validPin s.cfg p = true) (hmode : (s.pin p).mode = .output) :
    s.readPin p = (s.pin p).latch := by
  rw [State.readPin, hp, hmode]
  rfl

theorem State.readPin_of_line (hp : validPin s.cfg p = true) (hmode : (s.pin p).mode = .input)
    (hline : lineOf s.cfg p = some (b, l)) : s.readPin p = s.level b l := by
  rw [State.readPin, hp, hmode, hline]
  rfl

theorem State.readPin_of_no_line (hp : validPin s.cfg p = true) (hmode : (s.pin p).mode = .input)
    (hline : lineOf s.cfg p = none) : s.readPin p = s.env.now.ext := by
  rw [State.readPin, hp, hmode, hline]
  rfl

/-- Settles O16: a valid id is in range, not 0 and not reserved. -/
theorem pinValidAnswersThePredicate : Obligations.PinValidAnswersThePredicate := by
  refine fun s p => ⟨validPin s.cfg p, exec_pinValid, ?_⟩
  rw [validPin_iff, mem_unnamed, not_or, Nat.one_le_iff_ne_zero]
  exact and_left_comm

/-- Settles O20: each case of the level that PIN_READ returns. -/
theorem pinReadAnswersTheLevel : Obligations.PinReadAnswersTheLevel := by
  refine fun s p h => ⟨s.readPin p, exec_pinRead, State.readPin_of_invalid, State.readPin_of_output, ?_, ?_⟩
  · rintro b l rfl hmode
    exact State.readPin_of_line (validPin_pinOf h b l) hmode (lineOf_pinOf h b l)
  · exact fun hp hbus hmode => State.readPin_of_no_line hp hmode (lineOf_eq_none.2 hbus)

/-- Settles O19: PIN_WRITE's three cases, of which one writes. -/
theorem pinWriteWritesTheLatch : Obligations.PinWriteWritesTheLatch := by
  refine fun s p v h hw => ⟨exec_pinWrite_of_invalid, fun hbus hv hmode => ?_, fun hp hdrain => ?_⟩
  · obtain ⟨b, l, rfl⟩ := hbus
    exact exec_pinWrite_of_outputHigh (validPin_pinOf h b l) ⟨b, l, rfl⟩ hv hmode
  · exact ⟨_, exec_pinWrite_of_valid hp hdrain, ⟨rfl, rfl, SameHost.refl s⟩, State.pin_setPin_self hw p _,
      fun _ hq => State.pin_setPin_ne _ hq, rfl, rfl, rfl⟩

/-! ## The new mode (R102) -/

theorem modeOf_eq_if : modeOf v = if v then .output else .input := by cases v <;> rfl

/-- A pin of no bus takes the mode and nothing more. -/
theorem State.setMode_of_no_line (hline : lineOf s.cfg p = none) :
    s.setMode p v = s.setPin p { s.pin p with mode := modeOf v } := by
  rw [State.setMode, hline]

/-- A bus pin that has the mode is left alone. -/
theorem State.setMode_of_same (hline : lineOf s.cfg p = some (b, l)) (hm : (s.pin p).mode = modeOf v) :
    s.setMode p v = s := by
  rw [State.setMode, hline]
  simp [hm]

/-- A bus pin that changes its mode records it, and the peer sees it. -/
theorem State.setMode_of_change (hline : lineOf s.cfg p = some (b, l)) (hm : (s.pin p).mode ≠ modeOf v) :
    s.setMode p v = ((s.setPin p { s.pin p with mode := modeOf v }).record (modeEvent b l v)).observe b := by
  rw [State.setMode, hline]
  simp [beq_false_of_ne hm]

/-- All that a pin's new mode can do. -/
theorem State.setMode_cases (p : Byte) (v : Bool) (s : State) :
    s.setMode p v = s.setPin p { s.pin p with mode := modeOf v } ∨
      s.setMode p v = s ∧ (s.pin p).mode = modeOf v ∨
      ∃ b l, s.setMode p v =
        ((s.setPin p { s.pin p with mode := modeOf v }).record (modeEvent b l v)).observe b := by
  cases hline : lineOf s.cfg p with
  | none => exact .inl (State.setMode_of_no_line hline)
  | some e =>
    by_cases hm : (s.pin p).mode = modeOf v
    · exact .inr (.inl ⟨State.setMode_of_same hline hm, hm⟩)
    · exact .inr (.inr ⟨e.1, e.2, State.setMode_of_change hline hm⟩)

/-- Whatever the pin, its mode is written in the pin file and nothing else is, or it has that mode. -/
theorem State.setMode_pins (p : Byte) (v : Bool) (s : State) :
    (s.setMode p v).pins = (s.setPin p { s.pin p with mode := modeOf v }).pins ∨
      (s.setMode p v).pins = s.pins ∧ (s.pin p).mode = modeOf v := by
  rcases State.setMode_cases p v s with h | ⟨h, hm⟩ | ⟨b, l, h⟩
  · exact .inl (by rw [h])
  · exact .inr ⟨by rw [h], hm⟩
  · exact .inl (by rw [h]; rfl)

theorem State.setMode_returned : (s.setMode p v).returned = s.returned := by
  rcases State.setMode_cases p v s with h | ⟨h, -⟩ | ⟨b, l, h⟩ <;> rw [h] <;> rfl

theorem State.setMode_ctx : (s.setMode p v).ctx = s.ctx := by
  obtain ⟨-, -, -, -, -, -, hrunning, -⟩ := State.sameBuses_setMode (s := s) p v
  rw [State.ctx, hrunning, State.ctx]

theorem State.setMode_cfg : (s.setMode p v).cfg = s.cfg := by
  obtain ⟨-, -, hcfg, -⟩ := State.sameBuses_setMode (s := s) p v
  exact hcfg

theorem State.pin_setMode_self (hw : s.pinsWf) (p : Byte) (v : Bool) :
    (s.setMode p v).pin p = { s.pin p with mode := modeOf v } := by
  rcases State.setMode_pins p v s with h | ⟨h, hm⟩
  · rw [State.pin_congr h, State.pin_setPin_self hw]
  · rw [State.pin_congr h, ← hm]

theorem State.pin_setMode_ne (v : Bool) (hq : q ≠ p) : (s.setMode p v).pin q = s.pin q := by
  rcases State.setMode_pins p v s with h | ⟨h, -⟩
  · rw [State.pin_congr h, State.pin_setPin_ne _ hq]
  · exact State.pin_congr h q

theorem State.pinsWf_setMode (hw : s.pinsWf) (hp : validPin s.cfg p = true) (v : Bool) : (s.setMode p v).pinsWf := by
  rcases State.setMode_pins p v s with h | ⟨h, -⟩
  · exact State.pinsWf_congr h State.setMode_cfg (State.pinsWf_setPin hw hp _)
  · exact State.pinsWf_congr h State.setMode_cfg hw

/-- A change of a bus pin's mode is recorded as the line driver would record it (R35, R102). -/
theorem State.trace_setMode (hline : lineOf s.cfg p = some (b, l)) (v : Bool) : (s.setMode p v).trace =
    s.trace ++ if { s.pin p with mode := modeOf v } = s.pin p then [] else if v then [.driveLow b l] else [.release b l]
    := by
  by_cases hm : (s.pin p).mode = modeOf v
  · rw [State.setMode_of_same hline hm, if_pos (by rw [← hm]), List.append_nil]
  · rw [State.setMode_of_change hline hm, if_neg fun he => hm (congrArg PinState.mode he).symm]
    cases v <;> exact List.reverse_cons

/-- Settles O18: PIN_SET_MODE's three cases, of which one writes. -/
theorem pinSetModeWritesTheMode : Obligations.PinSetModeWritesTheMode := by
  refine fun s p v h hw => ⟨exec_pinSetMode_of_invalid, fun hbus hv hlatch => ?_, fun hp hdrain => ?_⟩
  · obtain ⟨b, l, rfl⟩ := hbus
    exact exec_pinSetMode_of_outputHigh (validPin_pinOf h b l) ⟨b, l, rfl⟩ hv hlatch
  · have hpin : ((s.setMode p v).give .nothing).pin p = { s.pin p with mode := modeOf v } :=
      State.pin_setMode_self hw p v
    obtain ⟨hphase, howner, hhost⟩ := State.sameBuses_setMode (s := s) p v
    refine ⟨_, exec_pinSetMode_of_valid hp hdrain, ⟨hphase, howner, hhost⟩, ?_, fun _ => State.pin_setMode_ne v, ?_,
      fun hbus => ?_, ?_⟩
    · rw [hpin, modeOf_eq_if]
    · show ((s.setMode p v).ctx, _) :: (s.setMode p v).returned = _
      rw [State.setMode_ctx, State.setMode_returned]
    · rw [State.setMode_of_no_line (lineOf_eq_none.2 hbus)]
      exact ⟨rfl, rfl⟩
    · rintro b l rfl
      rw [hpin]
      exact State.trace_setMode (lineOf_pinOf h b l) v

/-! ## The guard law (R105) -/

/-- PIN_SET_MODE on a valid pin faults or writes the mode (R102). -/
theorem eq_setMode_of_exec (hp : validPin s.cfg p = true) (he : exec (.pinSetMode p v) s = .next t)
    (hf : t.fault = none) : t = (s.setMode p v).give .nothing := by
  by_cases hdrain : (∃ b l, p = pinOf s.cfg b l) → v = false ∨ (s.pin p).latch = false
  · exact Host.Outcome.next.inj (he.symm.trans (exec_pinSetMode_of_valid hp hdrain))
  · simp only [Classical.not_imp, not_or, Bool.not_eq_false] at hdrain
    obtain ⟨hbus, hv, hlatch⟩ := hdrain
    rw [exec_pinSetMode_of_outputHigh hp hbus hv hlatch] at he
    cases he
    cases hf

theorem mode_of_exec_pinSetMode (hw : s.pinsWf) (hp : validPin s.cfg p = true)
    (he : exec (.pinSetMode p v) s = .next t) (hf : t.fault = none) :
    t.cfg = s.cfg ∧ t.pinsWf ∧ (t.pin p).mode = modeOf v := by
  obtain rfl := eq_setMode_of_exec hp he hf
  exact ⟨State.setMode_cfg, State.pinsWf_setMode hw hp v, congrArg PinState.mode (State.pin_setMode_self hw p v)⟩

/-- An output pin reads as the latch just written to it (R103, R104). -/
theorem State.readPin_of_written (hw : s.pinsWf) (hp : validPin s.cfg p = true) (hmode : (s.pin p).mode = .output) :
    ((s.setPin p { s.pin p with latch := v }).give .nothing).readPin p = v := by
  have hpin : ((s.setPin p { s.pin p with latch := v }).give .nothing).pin p = { s.pin p with latch := v } :=
    State.pin_setPin_self hw p _
  rw [State.readPin_of_output (s := (s.setPin p { s.pin p with latch := v }).give .nothing) hp
    ((congrArg PinState.mode hpin).trans hmode), hpin]

/-- Settles O21: an invalid id is absorbed, and a pin made an output takes and shows what is written to it, but for a bus
pin and 1. -/
theorem pinGuardLaw : Obligations.PinGuardLaw := by
  refine ⟨fun s p v hp => ⟨exec_pinSetMode_of_invalid hp, exec_pinWrite_of_invalid hp, ?_⟩,
    fun s t p v h hw hp _ he hf => ?_⟩
  · rw [exec_pinRead, State.readPin_of_invalid hp]
    rfl
  · obtain ⟨hcfg, hwt, hmode⟩ := mode_of_exec_pinSetMode hw hp he hf
    rw [← hcfg] at hp ⊢
    refine ⟨fun hv => ⟨_, _, exec_pinWrite_of_valid hp fun ⟨b, l, hb⟩ => ?_, hf, exec_pinRead, ?_⟩,
      fun hbus hv => ⟨_, exec_pinWrite_of_outputHigh hp hbus hv hmode, rfl⟩⟩
    · exact .inl (hv.resolve_left fun hno => hno b l hb)
    · rw [State.readPin_of_written hwt hp hmode]
      rfl

end Sys2Proof.Machine
end

section
/-! SUPPORT. The line driver (41_line.md R110 to R114): what the block's own drive says of a level (R25), a bus command of
a context that may begin it, the micro-steps before a clock wait and how the wait itself can end (R113, R241), and the
statements about lines. -/

namespace Sys2Proof.Machine

variable {s t : State} {b : Bus} {l : Line} {i : Instr} {p rest : Prog} {trail : List Bool} {es : List Event} {ph : Phase}
  {r : Result}

/-! ## Levels -/

theorem State.level_of_drivesLow (h : s.drivesLow b l = true) : s.level b l = false := by
  simp [State.level, h]

theorem State.level_of_released (h : s.drivesLow b l = false) (hp : s.cfg.pullupsPresent = true) :
    s.level b l = !s.peerLow b l := by
  simp [State.level, h, hp]

/-! ## What a run leaves -/

theorem Moved.refl (hw : s.pinsWf) (b : Bus) : Moved s s b [] (s.phase.get b) :=
  ⟨rfl, (PerBus.set_get_self _ _).symm, fun _ => rfl, fun _ _ => rfl, hw, SameHost.refl s⟩

theorem Moved.trace_eq (h : Moved s t b es ph) : t.trace = s.trace ++ es := by
  simp [State.trace, h.trace]

theorem Moved.drivesLow (h : Moved s t b es ph) (l : Line) :
    t.drivesLow b l = ((es.foldl (pinAfter b l) (s.pin (pinOf s.cfg b l))).mode == .output) := by
  rw [State.drivesLow, h.host.1, h.busPin]

theorem Completed.pin_line (h : Completed s t b es ph r) (l : Line) :
    t.pin (pinOf s.cfg b l) = es.foldl (pinAfter b l) (s.pin (pinOf s.cfg b l)) := by
  obtain ⟨-, -, -, -, hpin, -⟩ := h
  exact hpin l

theorem Completed.cfg (h : Completed s t b es ph r) : t.cfg = s.cfg := by
  obtain ⟨-, -, -, -, -, -, hcfg, -⟩ := h
  exact hcfg

/-- A run of a context that owns the bus comes to `Completed`. -/
theorem Played.completed {o : Course} (h : Played s t b o) (ho : s.owner.get b = s.ctx.owner) :
    Completed s t b o.events o.phase o.result := by
  refine ⟨h.moved.trace_eq, h.returned, h.moved.phase, ?_, h.moved.busPin, h.moved.otherPin, h.moved.host⟩
  rw [h.owner]
  by_cases hi : o.phase = .idle <;> simp [hi, ← ho]

/-- Whose the bus was before the command claimed it does not show in what it leaves. -/
theorem Completed.of_setOwner {w : Owner} (h : Completed (s.setOwner b w) t b es ph r) : Completed s t b es ph r := by
  obtain ⟨htrace, hreturned, hphase, howner, hpin, hother, hhost⟩ := h
  exact ⟨htrace, hreturned, hphase, howner.trans (PerBus.set_set ..), hpin, hother, hhost⟩

/-- A command left in progress is its context's (R37). -/
theorem State.job_suspend (s : State) (j : Job) :
    (bif s.handlerRunning then (s.suspend j).handlerJob else (s.suspend j).mainJob) = some j := by
  cases h : s.handlerRunning <;> simp [h]

/-! ## Beginning a command -/

/-- A command that may use its bus and meets its phase precondition claims the bus and runs (R31, R138). -/
theorem exec_eq_run (hb : bodyOf s.cfg i = some (b, p)) (hi : i.wellFormed = true) (hs : s.steady b)
    (hneed : (needOf i).met (s.phase.get b) = true) :
    exec i s = .next (run i b p [] (s.setOwner b s.ctx.owner)) := by
  obtain ⟨-, -, hmay, -⟩ := hs
  have hown : s.ownedByOther b = false := by
    rcases hmay with h | h <;> simp [State.ownedByOther, h]
  rw [exec_bus hb hi]
  simp [busCommand, hown, hneed]

/-- Such a command comes to the end of its course where nothing stretches a clock it waits for. -/
theorem exec_calm {n : Nat} (hb : bodyOf s.cfg i = some (b, p)) (hi : i.wellFormed = true) (hs : s.steady b)
    (hneed : (needOf i).met (s.phase.get b) = true) (hp : p.Fine b n (!s.drivesLow b .scl) (!s.drivesLow b .sda))
    (hfree : p.Waits → ∀ k < n, s.sclFree b k = true) :
    ∃ t look, exec i s = .next t ∧ ((s.env.peers.get b).isDrawn = true → look = s.sdaFree b) ∧
      Completed s t b (p.play (s.phase.get b) look).events (p.play (s.phase.get b) look).phase
        (p.play (s.phase.get b) look).result := by
  obtain ⟨look, hdrawn, hdone⟩ := busCommand_calm (i := i) hp hs hfree hneed
  exact ⟨_, look, exec_bus hb hi, hdrawn, hdone⟩

/-- Claiming its bus leaves a command as free to run (R31). -/
theorem State.steady.setOwner (h : s.steady b) : (s.setOwner b s.ctx.owner).steady b := by
  obtain ⟨hc, hw, -, hu⟩ := h
  exact ⟨hc, hw, .inr (PerBus.get_set_self _ _ _), hu⟩

/-! ## Micro-steps that nothing preempts -/

/-- The end of a sequence is the end of its run (R31, R79). -/
theorem run_ret (hc : configWf s.cfg = true) (hw : s.pinsWf) (hu : s.unpreempted) :
    Played s (run i b (.ret r) trail s) b { events := [], phase := s.phase.get b, result := r } := by
  obtain ⟨look, -, h⟩ := run_calm (i := i) (p := .ret r) (n := 0) (c := false) (d := false) (trail := trail) trivial hc
    hw hu nofun nofun nofun
  exact h

/-- A sample is the level after the environment's move (R26, R112). -/
theorem run_sample {k : Bool → Prog} (hu : s.unpreempted) : run i b (.sample b l k) trail s =
    run i b (k (s.envMove.level b l)) (s.envMove.level b l :: trail)
      (s.envMove.record (.sample b l (s.envMove.level b l))) := by
  have hf : s.envMove.fires = false := State.fires_of_unpreempted (s := s.envMove) hu
  simp [run, hf]

theorem Moved.sample (hw : s.pinsWf) (b : Bus) (l : Line) :
    Moved s (s.envMove.record (.sample b l (s.envMove.level b l))) b [.sample b l (s.envMove.level b l)]
      (s.phase.get b) :=
  (Moved.envMove hw b).trans (Moved.record (s := s.envMove) hw b _ fun _ _ => rfl)

/-- A clock wait whose clock the block itself drives faults (R241). -/
theorem run_waitHigh_of_drivesLow (hu : s.unpreempted) (hd : s.drivesLow b .scl = true) :
    run i b (.act (.waitHigh b) rest) trail s = s.envMove.raise (.selfStall b) := by
  have hf : s.envMove.fires = false := State.fires_of_unpreempted (s := s.envMove) hu
  have hd' : s.envMove.drivesLow b .scl = true := hd
  simp [run, Act.effect, hf, hd']

/-- A clock wait whose clock the block releases and the environment does not is held (R113, R234). -/
theorem run_waitHigh_of_not_sclFree (hu : s.unpreempted) (hd : s.drivesLow b .scl = false)
    (hfree : s.sclFree b 0 = false) :
    run i b (.act (.waitHigh b) rest) trail s = s.envMove.suspend { instr := i, trail := trail.reverse } := by
  have hf : s.envMove.fires = false := State.fires_of_unpreempted (s := s.envMove) hu
  have hd' : s.envMove.drivesLow b .scl = false := hd
  have hlevel : s.envMove.level b .scl = false := by rw [State.level_scl_envMove, hfree, Bool.and_false]
  simp [run, Act.effect, hf, hd', hlevel]

/-- A micro-step that is no clock wait completes, and the environment is one move further. -/
theorem run_act {a : Act} (hc : configWf s.cfg = true) (hw : s.pinsWf) (hu : s.unpreempted) (hon : a.on b)
    (ha : a ≠ .waitHigh b) :
    ∃ t, run i b (.act a rest) trail s = run i b rest (true :: trail) t ∧
      Moved s t b a.events (a.phaseAfter (s.phase.get b)) ∧ t.owner = s.owner ∧ t.returned = s.returned ∧
      ∀ k, t.sclFree b k = s.sclFree b (k + 1) := by
  have hf : s.envMove.fires = false := State.fires_of_unpreempted (s := s.envMove) hu
  obtain ⟨t, heffect, hmoved, henv, howner, hreturned, -⟩ :=
    Act.effect_done (s := s.envMove) hc hw hon fun h => absurd h ha
  exact ⟨t, by simp [run, hf, heffect], (Moved.envMove hw b).trans hmoved, howner, hreturned,
    fun k => (henv.sclFree k).trans (State.sclFree_envMove b k)⟩

/-- A list of micro-steps that are no clock waits completes, and the position counts them (R37). -/
theorem run_acts {acts : List Act} (hc : configWf s.cfg = true) (hw : s.pinsWf) (hu : s.unpreempted)
    (hacts : ∀ a ∈ acts, a.on b ∧ a ≠ .waitHigh b) :
    ∃ t, run i b (acts.foldr Prog.act rest) trail s = run i b rest (List.replicate acts.length true ++ trail) t ∧
      Moved s t b (acts.flatMap Act.events) (acts.foldl Act.phaseAfter (s.phase.get b)) ∧ t.owner = s.owner ∧
      t.returned = s.returned ∧ ∀ k, t.sclFree b k = s.sclFree b (k + acts.length) := by
  induction acts generalizing s trail with
  | nil =>
    exact ⟨s, rfl, Moved.refl hw b, rfl, rfl, fun _ => rfl⟩
  | cons a acts ih =>
    obtain ⟨⟨hon, ha⟩, hacts⟩ := List.forall_mem_cons.1 hacts
    obtain ⟨t, hrun, hmoved, howner, hreturned, hfree⟩ :=
      run_act (i := i) (rest := acts.foldr Prog.act rest) (trail := trail) hc hw hu hon ha
    obtain ⟨u, hrun', hmoved', howner', hreturned', hfree'⟩ :=
      ih (trail := true :: trail) (by rw [hmoved.host.1]; exact hc) hmoved.wf (hmoved.host.unpreempted hu) hacts
    rw [hmoved.phase, PerBus.get_set_self] at hmoved'
    refine ⟨u, ?_, hmoved.trans hmoved', howner'.trans howner, hreturned'.trans hreturned, fun k => ?_⟩
    · rw [List.foldr_cons, hrun, hrun', List.length_cons, List.replicate_succ', List.append_assoc, List.singleton_append]
    · rw [hfree', hfree, List.length_cons, Nat.add_assoc]

/-! ## The line driver's commands -/

/-- Settles O22: the one micro-step completes, and a line the block drives reads 0 (R25). -/
theorem lineDriveLowDrivesTheLine : Obligations.LineDriveLowDrivesTheLine := by
  intro s b l hs
  obtain ⟨t, look, he, -, hdone⟩ := exec_calm (i := .lineDriveLow b l) (p := lineDriveLowBody b l) (n := 1) rfl rfl hs rfl
    ⟨rfl, nofun, trivial⟩ (by simp [lineDriveLowBody, Prog.Waits])
  have hpin : t.pin (pinOf s.cfg b l) = { mode := .output, latch := false } := by
    simp [hdone.pin_line, lineDriveLowBody, Prog.play, Act.events, pinAfter]
  refine ⟨t, he, hdone, hpin, fun e => State.level_of_drivesLow ?_⟩
  show t.drivesLow b l = true
  rw [State.drivesLow, hdone.cfg, hpin]
  rfl

/-- Settles O23: the one micro-step completes, and a line the block releases reads what the peer leaves (R25). -/
theorem lineReleaseReleasesTheLine : Obligations.LineReleaseReleasesTheLine := by
  intro s b l hs
  obtain ⟨t, look, he, -, hdone⟩ := exec_calm (i := .lineRelease b l) (p := lineReleaseBody b l) (n := 1) rfl rfl hs rfl
    ⟨rfl, nofun, trivial⟩ (by simp [lineReleaseBody, Prog.Waits])
  have hpin : t.pin (pinOf s.cfg b l) = { mode := .input, latch := (s.pin (pinOf s.cfg b l)).latch } := by
    simp [hdone.pin_line, lineReleaseBody, Prog.play, Act.events, pinAfter]
  refine ⟨t, he, hdone, hpin, fun hpull e => State.level_of_released ?_ (hdone.cfg ▸ hpull)⟩
  show t.drivesLow b l = false
  rw [State.drivesLow, hdone.cfg, hpin]
  rfl

/-- Settles O24: the sample is the level after the environment's move, and the command returns it. -/
theorem lineReadAnswersTheLevel : Obligations.LineReadAnswersTheLevel := by
  intro s b l hs
  have hrun := exec_eq_run (i := .lineRead b l) rfl rfl hs rfl
  obtain ⟨hc, hw, -, hu⟩ : (s.setOwner b s.ctx.owner).steady b := hs.setOwner
  rw [lineReadBody, run_sample hu] at hrun
  have hmoved := Moved.sample hw b l
  have hplayed := Played.of_moved hmoved rfl rfl
    (run_ret (i := .lineRead b l) (r := .bit (s.envMove.level b l)) (trail := [s.envMove.level b l]) hc hmoved.wf hu)
  exact ⟨_, _, hrun, (hplayed.completed (PerBus.get_set_self _ _ _)).of_setOwner, rfl,
    fun hd => State.level_of_drivesLow (s := s.envMove) hd⟩

/-- Settles O25: the wait faults, completes or is held by who keeps the clock low: the block, nobody, or the peer. -/
theorem sclWaitHighWaitsForTheClock : Obligations.SclWaitHighWaitsForTheClock := by
  intro s b hs
  have hrun := exec_eq_run (i := .sclWaitHigh b) rfl rfl hs rfl
  obtain ⟨-, -, -, hu⟩ : (s.setOwner b s.ctx.owner).steady b := hs.setOwner
  refine ⟨fun hd => ?_, fun hd hfree => ?_, fun hd hfree => ?_⟩
  · rw [sclWaitHighBody, run_waitHigh_of_drivesLow hu hd] at hrun
    exact ⟨_, hrun, rfl, rfl, rfl, rfl, rfl⟩
  · obtain ⟨t, look, he, -, hdone⟩ := exec_calm (i := .sclWaitHigh b) (p := sclWaitHighBody b) (n := 1) rfl rfl hs rfl
      ⟨rfl, fun _ => by rw [hd]; rfl, trivial⟩ fun _ k hk => by rwa [Nat.lt_one_iff.1 hk]
    exact ⟨t, he, hdone⟩
  · rw [sclWaitHighBody, run_waitHigh_of_not_sclFree hu hd hfree] at hrun
    exact ⟨_, hrun, rfl, rfl, rfl, rfl, rfl, rfl, State.job_suspend _ _⟩

/-- Settles O26: the one micro-step completes. -/
theorem halfDelayRecordsOneDelay : Obligations.HalfDelayRecordsOneDelay := by
  intro s b hs
  obtain ⟨t, look, he, -, hdone⟩ := exec_calm (i := .halfDelay b) (p := halfDelayBody s.cfg) (n := 1) rfl rfl hs rfl
    ⟨trivial, nofun, trivial⟩ (by simp [halfDelayBody, dly, Prog.Waits])
  exact ⟨t, he, hdone⟩

/-! ## A held stop (R113, R234) -/

/-- What BUS_STOP does before its clock wait (R136). -/
def stopHead (c : Config) (b : Bus) : List Act := [.driveLow b .sda, dly c, .release b .scl]

/-- What BUS_STOP does after its clock wait (R136). -/
def stopTail (c : Config) (b : Bus) : Prog :=
  .act (dly c) <| .act (.release b .sda) <| .act (.delay c.tSettle) <| .act (.phase b .idle) (.ret .nothing)

theorem busStopBody_eq (c : Config) (b : Bus) :
    busStopBody c b = (stopHead c b).foldr Prog.act (.act (.waitHigh b) (stopTail c b)) := rfl

theorem resume_busStop (s : State) (b : Bus) : resume { instr := .busStop b, trail := [true, true, true] } s =
    run (.busStop b) b (.act (.waitHigh b) (stopTail s.cfg b)) [true, true, true] s.clearJob := rfl

theorem stopTail_fine {c : Config} {d : Bool} : (Prog.act (.waitHigh b) (stopTail c b)).Fine b 5 true d :=
  ⟨rfl, fun _ => rfl, trivial, nofun, rfl, nofun, trivial, nofun, rfl, nofun, trivial⟩

/-- Settles O39: the head runs up to the clock wait, which is held; the position it leaves goes on with the wait. -/
theorem aHeldStopGoesOnWhereItStood : Obligations.AHeldStopGoesOnWhereItStood := by
  refine ⟨fun s b hs hph hheld => ?_, fun s b hready hown hscl => ?_⟩
  · have hrun := exec_eq_run (i := .busStop b) rfl rfl hs (bne_iff_ne.2 hph)
    obtain ⟨hc, hw, -, hu⟩ : (s.setOwner b s.ctx.owner).steady b := hs.setOwner
    obtain ⟨m, hhead, hmoved, howner, hreturned, hfree⟩ := run_acts (i := .busStop b) (b := b)
      (rest := .act (.waitHigh b) (stopTail s.cfg b)) (trail := []) (acts := stopHead s.cfg b) hc hw hu
      (by simp [stopHead, dly, Act.on])
    have hscl : m.drivesLow b .scl = false := by
      simp [hmoved.drivesLow, stopHead, dly, Act.events, pinAfter]
    rw [busStopBody_eq, hhead, run_waitHigh_of_not_sclFree (hmoved.host.unpreempted hu) hscl ((hfree 0).trans hheld)]
      at hrun
    obtain ⟨-, hfault, -, -, hrunning, -⟩ : SameHost s m := hmoved.host
    refine ⟨_, hrun, hmoved.trace_eq, hmoved.phase.trans (PerBus.set_get_self _ _), howner, hreturned, hfault, ?_⟩
    rw [← hrunning]
    exact State.job_suspend m.envMove _
  · obtain ⟨⟨hc, hw, -, hu⟩, -, hfree⟩ := hready
    obtain ⟨look, -, hplayed⟩ := run_calm (i := .busStop b) (s := s.clearJob) (trail := [true, true, true])
      (stopTail_fine (c := s.cfg) (d := false)) hc hw hu (fun _ k hk => hfree k (hk.trans (by decide))) (fun _ => hscl) nofun
    rw [resume_busStop]
    exact hplayed.completed hown

end Sys2Proof.Machine
end

section
/-! SUPPORT. The engine's commands (42_engine.md R130 to R136): the course of each one's sequence, that a ready engine
command comes to the end of it, and what its events say of SDA while SCL is released (R140), of the bits in the clock's
high periods (R142) and of how many there are (R276). Then the statements about the engine. -/

namespace Sys2Proof.Machine

variable {c : Config} {s t : State} {b : Bus} {i : Instr} {p : Prog} {ph : Phase} {look : Nat → Bool}
  {es : List Event} {r : Result} {x : Byte} {v last : Bool}

/-! ## The course of each command's sequence -/

theorem after_play_ret : ((Prog.ret r).play ph look).after es = { events := es, phase := ph, result := r } := by
  simp [Prog.play, Course.after]

/-- The address byte is the address with the read flag below it (R80). -/
theorem addressByte_eq_append (addr : BitVec 7) (rw : Bool) : addressByte addr rw = addr ++ BitVec.ofBool rw := by
  refine BitVec.eq_of_getLsbD_eq fun j hj => Eq.trans ?_ BitVec.getLsbD_append.symm
  cases j with
  | zero => simp [addressByte]
  | succ j => simp [addressByte, hj]

theorem busInitBody_play : (busInitBody b).play ph look =
    { events := [.release b .sda, .release b .scl], phase := .idle, result := .nothing } := rfl

theorem busStartBody_play_bare (addr : BitVec 7) (rw : Bool) : (busStartBody c b false addr rw).play ph look =
    { events := startEvents b c.tHalf (ph == .idle), phase := .started, result := .bit true } := by
  rw [busStartBody, startSeq_play_bare, after_play_ret]

theorem busStartBody_play_addressed (addr : BitVec 7) (rw : Bool) : (busStartBody c b true addr rw).play ph look =
    { events := startEvents b c.tHalf (ph == .idle) ++
        xferOutEvents b c.tHalf (addressByte addr rw) (look (startLength ph + 54))
      phase := .addrSent
      result := .bit (acked (look (startLength ph + 54))) } := by
  rw [busStartBody, startSeq_play_addressed, after_play_ret]

theorem busWriteBitBody_play : (busWriteBitBody c b v).play ph look =
    { events := wbitEvents b c.tHalf v, phase := ph, result := .nothing } := by
  rw [busWriteBitBody, wbit_play, after_play_ret]

theorem busReadBitBody_play : (busReadBitBody c b).play ph look =
    { events := rbitEvents b c.tHalf (look 5), phase := ph, result := .bit (look 5) } := by
  rw [busReadBitBody, rbit_play, after_play_ret]

theorem busWriteBody_play : (busWriteBody c b x).play ph look =
    { events := writeEvents b c.tHalf x (look 53), phase := .transfer, result := .bit (acked (look 53)) } := by
  rw [busWriteBody, writeSeq_play, after_play_ret]

theorem busReadBody_play : (busReadBody c b last).play ph look =
    { events := readEvents b c.tHalf (readBits look) last
      phase := .transfer
      result := .byte (assemble (Config.order b) (readBits look)) } := by
  rw [busReadBody, readSeq_play, after_play_ret]

theorem busStopBody_play : (busStopBody c b).play ph look =
    { events := stopEvents b c.tHalf c.tSettle, phase := .idle, result := .nothing } := by
  rw [busStopBody, stopSeq_play, after_play_ret]

/-- A ready engine command comes to the end of its course. -/
theorem exec_ready {ls : Bool × Bool} {o : (Nat → Bool) → Course} (hi : exitLines i = some ls)
    (hb : bodyOf s.cfg i = some (b, p)) (hready : s.ready b)
    (hn : needsTransaction i = true → s.phase.get b ≠ .idle) (hplay : ∀ look, p.play (s.phase.get b) look = o look) :
    ∃ t look, exec i s = .next t ∧ ((s.env.peers.get b).isDrawn = true → look = s.sdaFree b) ∧
      Completed s t b (o look).events (o look).phase (o look).result := by
  obtain ⟨hsteady, -, hfree⟩ := hready
  obtain ⟨t, look, he, hdrawn, hdone⟩ := exec_calm hb (wellFormed_of_exitLines hi) hsteady (needOf_engine_met hi hn)
    (engineBody_fine hb hi).anyLines fun _ => hfree
  rw [hplay] at hdone
  exact ⟨t, look, he, hdrawn, hdone⟩

theorem Completed.trace_eq (h : Completed s t b es ph r) : t.trace = s.trace ++ es := h.1

theorem Completed.returned_eq (h : Completed s t b es ph r) : t.returned = (s.ctx, r) :: s.returned := h.2.1

theorem exec_busWriteBit_ready (hready : s.ready b) (hph : s.phase.get b ≠ .idle) (v : Bool) :
    ∃ t, exec (.busWriteBit b v) s = .next t ∧
      Completed s t b (wbitEvents b s.cfg.tHalf v) (s.phase.get b) .nothing := by
  obtain ⟨t, look, he, -, hdone⟩ := exec_ready (i := .busWriteBit b v) rfl rfl hready (fun _ => hph)
    fun _ => busWriteBitBody_play
  exact ⟨t, he, hdone⟩

theorem exec_busWrite_ready (hready : s.ready b) (hph : s.phase.get b ≠ .idle) (x : Byte) :
    ∃ t a, exec (.busWrite b x) s = .next t ∧
      Completed s t b (writeEvents b s.cfg.tHalf x a) .transfer (.bit (!a)) := by
  obtain ⟨t, look, he, -, hdone⟩ := exec_ready (i := .busWrite b x) rfl rfl hready (fun _ => hph)
    fun _ => busWriteBody_play
  exact ⟨t, look 53, he, hdone⟩

theorem exec_busRead_ready (hready : s.ready b) (hph : s.phase.get b ≠ .idle) (last : Bool) :
    ∃ t look, exec (.busRead b last) s = .next t ∧ ((s.env.peers.get b).isDrawn = true → look = s.sdaFree b) ∧
      Completed s t b (readEvents b s.cfg.tHalf (readBits look) last) .transfer
        (.byte (assemble (Config.order b) (readBits look))) :=
  exec_ready (i := .busRead b last) rfl rfl hready (fun _ => hph) fun _ => busReadBody_play

/-! ## One command each -/

/-- Settles O27: none of the three micro-steps waits, so a steady bus is enough. -/
theorem busInitReleasesBothLines : Obligations.BusInitReleasesBothLines := by
  intro s b hs
  obtain ⟨t, look, he, -, hdone⟩ := exec_calm (i := .busInit b) (p := busInitBody b) (n := 3) rfl rfl hs rfl
    ⟨rfl, nofun, rfl, nofun, rfl, nofun, trivial⟩ (by simp [busInitBody, Prog.Waits])
  exact ⟨t, he, hdone⟩

/-- Settles O28: the start condition is all of the command's events. -/
theorem busStartWithoutAddress : Obligations.BusStartWithoutAddress := by
  intro s b addr rw hready
  obtain ⟨t, look, he, -, hdone⟩ := exec_ready (i := .busStart b false addr rw) rfl rfl hready nofun
    fun _ => busStartBody_play_bare addr rw
  exact ⟨t, he, hdone⟩

/-- Settles O29: the address byte follows the start condition, and the answer is its acknowledgment sample negated. -/
theorem busStartWithAddress : Obligations.BusStartWithAddress := by
  intro s b addr rw hready
  obtain ⟨t, look, he, -, hdone⟩ := exec_ready (i := .busStart b true addr rw) rfl rfl hready nofun
    fun _ => busStartBody_play_addressed addr rw
  rw [addressByte_eq_append] at hdone
  exact ⟨t, _, he, hdone⟩

/-- Settles O30: the command is one `wbit`. -/
theorem busWriteBitClocksOneBitOut : Obligations.BusWriteBitClocksOneBitOut := by
  intro s b v hready hph
  obtain ⟨t, he, hdone⟩ := exec_busWriteBit_ready hready hph v
  rw [wbitEvents, cond_eq_ite] at hdone
  exact ⟨t, he, hdone⟩

/-- Settles O31: the command is one `rbit`, whose sample is its sixth micro-step. -/
theorem busReadBitClocksOneBitIn : Obligations.BusReadBitClocksOneBitIn := by
  intro s b hready hph
  obtain ⟨t, look, he, hdrawn, hdone⟩ := exec_ready (i := .busReadBit b) rfl rfl hready (fun _ => hph)
    fun _ => busReadBitBody_play
  exact ⟨t, look 5, he, hdone, fun hd => by rw [hdrawn hd]⟩

/-- Settles O32: the command is `xfer_out` and the log of a NACK. -/
theorem busWriteSendsTheByte : Obligations.BusWriteSendsTheByte := by
  intro s b x hready hph
  obtain ⟨t, a, he, hdone⟩ := exec_busWrite_ready hready hph x
  rw [writeEvents, cond_eq_ite] at hdone
  exact ⟨t, a, he, hdone⟩

/-- Settles O33: the command is `xfer_in`, whose eight samples make the byte. -/
theorem busReadReceivesTheByte : Obligations.BusReadReceivesTheByte := by
  intro s b last hready hph
  obtain ⟨t, look, he, -, hdone⟩ := exec_busRead_ready hready hph last
  exact ⟨t, readBits look, he, readBits_length look, hdone⟩

/-- Settles O34: the course ends in IDLE, so the end of the command leaves the bus unowned (R31). -/
theorem busStopClosesTheTransaction : Obligations.BusStopClosesTheTransaction := by
  intro s b hready hph
  obtain ⟨t, look, he, -, hdone⟩ := exec_ready (i := .busStop b) rfl rfl hready (fun _ => hph)
    fun _ => busStopBody_play
  refine ⟨t, he, hdone, ?_⟩
  obtain ⟨-, -, -, howner, -⟩ := hdone
  rw [howner]
  exact PerBus.get_set_self ..

/-! ## SDA while SCL is released (R140) -/

/-- From SCL driven low, `es` changes SDA only while the block drives SCL low, and ends with SCL driven low. -/
def SdaStable (b : Bus) (es : List Event) : Prop :=
  ∀ rest, openSda b true (es ++ rest) = openSda b true rest

theorem SdaStable.append {es es' : List Event} (h : SdaStable b es) (h' : SdaStable b es') :
    SdaStable b (es ++ es') := by
  intro rest
  rw [List.append_assoc, h, h']

theorem SdaStable.flatMap {f : Bool → List Event} (h : ∀ v, SdaStable b (f v)) (vs : List Bool) :
    SdaStable b (vs.flatMap f) := by
  induction vs with
  | nil => exact fun _ => rfl
  | cons v vs ih => exact (h v).append ih

theorem SdaStable.openSda_eq_nil (h : SdaStable b es) : openSda b true es = [] := by
  rw [← List.append_nil es, h, openSda]

theorem sdaStable_wbit (t : Nat) (v : Bool) : SdaStable b (wbitEvents b t v) := by
  intro rest
  cases v <;> simp [wbitEvents, openSda]

theorem sdaStable_rbit (t : Nat) (v : Bool) : SdaStable b (rbitEvents b t v) := by
  intro rest
  simp [rbitEvents, openSda]

theorem sdaStable_xferOut (t : Nat) (x : Byte) (a : Bool) : SdaStable b (xferOutEvents b t x a) :=
  (SdaStable.flatMap (sdaStable_wbit t) _).append (sdaStable_rbit t a)

theorem sdaStable_write (t : Nat) (x : Byte) (a : Bool) : SdaStable b (writeEvents b t x a) := by
  refine (sdaStable_xferOut t x a).append fun rest => ?_
  cases a <;> rfl

theorem sdaStable_read (t : Nat) (ss : List Bool) (last : Bool) : SdaStable b (readEvents b t ss last) :=
  (SdaStable.flatMap (sdaStable_rbit t) ss).append (sdaStable_wbit t last)

/-- A start condition changes SDA once with SCL released: a repeated one releases SDA first, with SCL
still low (R131). -/
theorem openSda_start (t : Nat) (idle : Bool) (rest : List Event) :
    openSda b (!idle) (startEvents b t idle ++ rest) = .driveLow b .sda :: openSda b true rest := by
  cases idle <;> simp [startEvents, openSda]

theorem openSda_stop (t settle : Nat) : openSda b true (stopEvents b t settle) = [.release b .sda] := by
  simp [stopEvents, openSda]

/-- BUS_START's only change of SDA with SCL released is its start condition (R131, R140). -/
theorem openSda_busStart (ha : Bool) (addr : BitVec 7) (rw : Bool) :
    openSda b (ph != .idle) ((busStartBody c b ha addr rw).play ph look).events = [.driveLow b .sda] := by
  cases ha with
  | true =>
    rw [busStartBody_play_addressed]
    exact (openSda_start _ _ _).trans (congrArg _ (sdaStable_xferOut _ _ _).openSda_eq_nil)
  | false =>
    rw [busStartBody_play_bare]
    have hstart := openSda_start (b := b) c.tHalf (ph == .idle) []
    rwa [List.append_nil] at hstart

/-- What an engine command begun with SCL driven low does to SDA with SCL released: BUS_START makes its start condition,
BUS_STOP its stop condition, and the others nothing (R140). -/
theorem openSda_engineBody {ls : Bool × Bool} (hph : ph ≠ .idle) :
    exitLines i = some ls → bodyOf c i = some (b, p) → openSda b true (p.play ph look).events =
      match i with
      | .busStart .. => [.driveLow b .sda]
      | .busStop _ => [.release b .sda]
      | _ => [] := by
  intro hi hb
  cases i <;> simp only [exitLines, reduceCtorEq] at hi <;>
    simp only [bodyOf, Option.some.injEq, Prod.mk.injEq] at hb <;> obtain ⟨rfl, rfl⟩ := hb
  case busInit b => simp [busInitBody_play, openSda]
  case busStart b ha addr rw =>
    rw [← bne_iff_ne.2 hph]
    exact openSda_busStart ha addr rw
  case busWriteBit b v => rw [busWriteBitBody_play]; exact (sdaStable_wbit _ v).openSda_eq_nil
  case busReadBit b => rw [busReadBitBody_play]; exact (sdaStable_rbit _ _).openSda_eq_nil
  case busWrite b x => rw [busWriteBody_play]; exact (sdaStable_write _ x _).openSda_eq_nil
  case busRead b last => rw [busReadBody_play]; exact (sdaStable_read _ _ last).openSda_eq_nil
  case busStop b => rw [busStopBody_play]; exact openSda_stop _ _

/-- Settles O36: every bit is clocked with SDA set before SCL is released and left until SCL is low again. -/
theorem sdaIsStableWhileTheClockIsReleased : Obligations.SdaIsStableWhileTheClockIsReleased := by
  refine ⟨fun i s b hi ht hready hph _ => ?_, fun s b ha addr rw hready hph _ => ?_⟩
  · obtain ⟨ls, hi⟩ := Option.isSome_iff_exists.1 hi
    obtain ⟨p, hb⟩ := bodyOf_of_touches (c := s.cfg) ht
    obtain ⟨t, look, he, -, hdone⟩ := exec_ready hi hb hready (fun _ => hph) fun _ => rfl
    exact ⟨t, _, he, hdone.trace_eq, openSda_engineBody hph hi hb⟩
  · obtain ⟨t, look, he, -, hdone⟩ := exec_ready (i := .busStart b ha addr rw) rfl rfl hready nofun fun _ => rfl
    refine ⟨t, _, he, hdone.trace_eq, ?_⟩
    have hstart := openSda_busStart (c := s.cfg) (b := b) (ph := s.phase.get b) (look := look) ha addr rw
    rwa [hph] at hstart ⊢

/-! ## The bits in the clock's high periods (R142) -/

/-- A bit clocked out is read in its high period, whatever SDA was before. -/
theorem highPeriodBits_wbit (t : Nat) (v sda : Bool) (rest : List Event) :
    highPeriodBits b sda (wbitEvents b t v ++ rest) = v :: highPeriodBits b v rest := by
  cases v <;> simp [wbitEvents, highPeriodBits]

/-- Bits clocked out are read one in each high period. -/
theorem highPeriodBits_wbits (t : Nat) (vs : List Bool) (sda : Bool) (rest : List Event) :
    (highPeriodBits b sda (vs.flatMap (wbitEvents b t) ++ rest)).take vs.length = vs := by
  induction vs generalizing sda with
  | nil => rfl
  | cons v vs ih =>
    rw [List.flatMap_cons, List.append_assoc, highPeriodBits_wbit, List.length_cons, List.take_succ_cons, ih]

theorem wireBits_length (o : BitOrder) (x : Byte) : (wireBits o x).length = 8 := by simp [wireBits]

theorem highPeriodBits_write (t : Nat) (x : Byte) (a sda : Bool) :
    (highPeriodBits b sda (writeEvents b t x a)).take 8 = wireBits (Config.order b) x := by
  rw [writeEvents, xferOutEvents, List.append_assoc]
  simpa only [wireBits_length] using highPeriodBits_wbits t (wireBits (Config.order b) x) sda _

/-- Samples that read the wire bits of a byte are its wire bits. -/
theorem readBits_eq_wireBits {o : BitOrder} (h : ∀ j < 8, look (7 * j + 5) = bitAt o x j) :
    readBits look = wireBits o x :=
  List.map_congr_left fun j hj => h j (List.mem_range.1 hj)

/-- Settles O37: the byte's wire bits are what BUS_WRITE shows in its high periods and what BUS_READ's samples read. -/
theorem bytesAreReconstructedBitForBit : Obligations.BytesAreReconstructedBitForBit := by
  refine ⟨assemble_wireBits, fun s b x sda hready hph => ?_, fun s b last x hready hph hd hbits => ?_⟩
  · obtain ⟨t, a, he, hdone⟩ := exec_busWrite_ready hready hph x
    exact ⟨t, _, he, hdone.trace_eq, highPeriodBits_write _ x a sda⟩
  · obtain ⟨t, look, he, hdrawn, hdone⟩ := exec_busRead_ready hready hph last
    have hreturned := hdone.returned_eq
    rw [hdrawn hd, readBits_eq_wireBits hbits, assemble_wireBits] at hreturned
    exact ⟨t, he, hreturned⟩

/-! ## How many events and delays (R276) -/

/-- Among `es` there are `n` events, `d` of them delays. -/
def Counts (es : List Event) (n d : Nat) : Prop := es.length = n ∧ delays es = d

theorem Counts.append {es es' : List Event} {n n' d d' : Nat} (h : Counts es n d) (h' : Counts es' n' d') :
    Counts (es ++ es') (n + n') (d + d') :=
  ⟨by rw [List.length_append, h.1, h'.1], by rw [delays, List.countP_append]; exact congrArg₂ _ h.2 h'.2⟩

theorem Counts.flatMap {f : Bool → List Event} {n d : Nat} (h : ∀ v, Counts (f v) n d) (vs : List Bool) :
    Counts (vs.flatMap f) (vs.length * n) (vs.length * d) := by
  induction vs with
  | nil => simp [Counts, delays]
  | cons v vs ih =>
    rw [List.length_cons, Nat.succ_mul, Nat.succ_mul, Nat.add_comm _ n, Nat.add_comm _ d]
    exact (h v).append ih

theorem counts_wbit (t : Nat) (v : Bool) : Counts (wbitEvents b t v) 6 2 := by cases v <;> exact ⟨rfl, rfl⟩

theorem counts_rbit (t : Nat) (v : Bool) : Counts (rbitEvents b t v) 7 2 := ⟨rfl, rfl⟩

theorem counts_start (t : Nat) (ph : Phase) : Counts (startEvents b t (ph == .idle)) (if ph = .idle then 3 else 8)
    (if ph = .idle then 1 else 3) := by
  cases ph <;> exact ⟨rfl, rfl⟩

theorem counts_stop (t settle : Nat) : Counts (stopEvents b t settle) 7 3 := ⟨rfl, rfl⟩

theorem counts_xferOut (t : Nat) (x : Byte) (a : Bool) : Counts (xferOutEvents b t x a) 55 18 := by
  have hbits := Counts.flatMap (counts_wbit (b := b) t) (wireBits (Config.order b) x)
  rw [wireBits_length] at hbits
  exact hbits.append (counts_rbit t a)

/-- A NACK's log is one event more (R134). -/
theorem counts_write (t : Nat) (x : Byte) (a : Bool) : Counts (writeEvents b t x a) (55 + if a then 1 else 0) 18 := by
  have hlog : Counts (bif a then [.ackFail b x] else []) (if a then 1 else 0) 0 := by cases a <;> exact ⟨rfl, rfl⟩
  exact (counts_xferOut t x a).append hlog

theorem counts_read (t : Nat) (last : Bool) : Counts (readEvents b t (readBits look) last) 62 18 := by
  have hbits := Counts.flatMap (counts_rbit (b := b) t) (readBits look)
  rw [readBits_length] at hbits
  exact hbits.append (counts_wbit t last)

/-- What a completed command has added to the trace. -/
theorem Completed.counts {n d : Nat} (h : Completed s t b es ph r) (hes : Counts es n d) :
    t.trace.length = s.trace.length + n ∧ delays t.trace = delays s.trace + d := by
  have htrace : Counts (s.trace ++ es) (s.trace.length + n) (delays s.trace + d) := Counts.append ⟨rfl, rfl⟩ hes
  rw [h.trace_eq]
  exact htrace

theorem busStart_counts (hready : s.ready b) (ha : Bool) (addr : BitVec 7) (rw : Bool) :
    ∃ t, exec (.busStart b ha addr rw) s = .next t ∧
      t.trace.length = s.trace.length + (if s.phase.get b = .idle then 3 else 8) + (if ha then 55 else 0) ∧
      delays t.trace = delays s.trace + (if s.phase.get b = .idle then 1 else 3) + (if ha then 18 else 0) := by
  have hstart := counts_start (b := b) s.cfg.tHalf (s.phase.get b)
  simp only [Nat.add_assoc]
  cases ha with
  | true =>
    obtain ⟨t, a, he, hdone⟩ := busStartWithAddress s b addr rw hready
    exact ⟨t, he, hdone.counts (hstart.append (counts_xferOut _ _ a))⟩
  | false =>
    obtain ⟨t, he, hdone⟩ := busStartWithoutAddress s b addr rw hready
    exact ⟨t, he, hdone.counts hstart⟩

/-- Settles O38: each command's events are those of its bits and conditions, and those are counted one by one. -/
theorem engineCommandsRecordTheirEventCounts : Obligations.EngineCommandsRecordTheirEventCounts := by
  intro s b hready
  refine ⟨?_, busStart_counts hready, fun hph => ⟨fun v => ?_, ?_, fun x => ?_, fun last => ?_, ?_⟩⟩
  · obtain ⟨t, he, hdone⟩ := busInitReleasesBothLines s b hready.1
    exact ⟨t, he, hdone.counts (n := 2) (d := 0) ⟨rfl, rfl⟩⟩
  · obtain ⟨t, he, hdone⟩ := exec_busWriteBit_ready hready hph v
    exact ⟨t, he, hdone.counts (counts_wbit _ v)⟩
  · obtain ⟨t, v, he, hdone, -⟩ := busReadBitClocksOneBitIn s b hready hph
    exact ⟨t, he, hdone.counts (counts_rbit _ v)⟩
  · obtain ⟨t, a, he, hdone⟩ := exec_busWrite_ready hready hph x
    exact ⟨t, a, he, hdone.returned_eq, by rw [Nat.add_assoc]; exact hdone.counts (counts_write _ x a)⟩
  · obtain ⟨t, look, he, -, hdone⟩ := exec_busRead_ready hready hph last
    exact ⟨t, he, hdone.counts (counts_read _ last)⟩
  · obtain ⟨t, he, hdone, -⟩ := busStopClosesTheTransaction s b hready hph
    exact ⟨t, he, hdone.counts (counts_stop _ _)⟩

end Sys2Proof.Machine
end

section
/-! SUPPORT. The BCD, year and temperature codec (43_codec.md R160 to R165): each function by its value, the round trips,
and what each command answers. -/

namespace Sys2Proof.Machine

variable {s : State} {x b : Byte} {d e : Nat} {year : BitVec 16} {cen : Bool}

/-! ## The BCD bytes (R160 to R162) -/

theorem bcdDecode_bcdEncode (h : d ≤ 99) : bcdDecode (bcdEncode d) = d := by
  rw [bcdDecode_eq, bcdEncode_toNat h]
  omega

/-- The bound is met by 0xFF, which is not BCD but decodes (R161). -/
theorem bcdDecode_le (b : Byte) : bcdDecode b ≤ 165 := by
  rw [bcdDecode_eq]
  omega

/-- A byte of two decimal digits stands for a number up to 99 (R160). -/
theorem bcdDecode_le_of_digits (hhi : b.toNat / 16 ≤ 9) (hlo : b.toNat % 16 ≤ 9) : bcdDecode b ≤ 99 := by
  rw [bcdDecode_eq]
  omega

theorem bcdEncode_bcdDecode (hhi : b.toNat / 16 ≤ 9) (hlo : b.toNat % 16 ≤ 9) : bcdEncode (bcdDecode b) = b := by
  apply BitVec.eq_of_toNat_eq
  rw [bcdEncode_toNat (bcdDecode_le_of_digits hhi hlo), bcdDecode_eq]
  omega

theorem bcdEncode_inj (hd : d ≤ 99) (he : e ≤ 99) (h : bcdEncode d = bcdEncode e) : d = e := by
  rw [← bcdDecode_bcdEncode hd, h, bcdDecode_bcdEncode he]

/-- The encoded bytes are those of two decimal digits (R160). -/
theorem exists_bcdEncode_eq_iff : (∃ d ≤ 99, bcdEncode d = b) ↔ b.toNat / 16 ≤ 9 ∧ b.toNat % 16 ≤ 9 := by
  constructor
  · rintro ⟨d, hd, rfl⟩
    rw [bcdEncode_toNat hd]
    omega
  · rintro ⟨hhi, hlo⟩
    exact ⟨bcdDecode b, bcdDecode_le_of_digits hhi hlo, bcdEncode_bcdDecode hhi hlo⟩

theorem bcdDomain_iff : bcdDomain x = true ↔ x.toNat ≤ 99 := decide_eq_true_iff

theorem exec_bcdEncode (h : x.toNat ≤ 99) : exec (.bcdEncode x) s = .next (s.give (.byte (bcdEncode x.toNat))) := by
  rw [exec, execBcdEncode, bcdDomain_iff.2 h, cond_true]

theorem exec_bcdEncode_of_ge (h : 100 ≤ x.toNat) : exec (.bcdEncode x) s = outOfDomain s := by
  apply exec_of_not_wellFormed
  rw [wellFormed_bcdEncode, Bool.eq_false_iff, ne_eq, bcdDomain_iff]
  omega

/-- Settles O40: the value of the encoded byte gives its digits, and `bcdDecode` is its inverse on two decimal digits. -/
theorem bcdEncodeGivesTensAndUnits : Obligations.BcdEncodeGivesTensAndUnits :=
  ⟨fun _ x h => ⟨bcdEncode x.toNat, exec_bcdEncode h, bcdEncode_toNat h⟩, fun _ _ => exec_bcdEncode_of_ge,
    fun _ _ => bcdEncode_inj, fun _ => exists_bcdEncode_eq_iff⟩

/-- Settles O42: `bcdEncode` and `bcdDecode` are inverse between 0..99 and the bytes of two decimal digits. -/
theorem bcdRoundTripLaw : Obligations.BcdRoundTripLaw :=
  ⟨fun _ => bcdDecode_bcdEncode, fun _ => bcdEncode_bcdDecode⟩

/-! ## The temperature (R165) -/

theorem tempInt_eq (msb : Byte) :
    tempInt msb = if msb.toNat < 128 then (msb.toNat : Int) else (msb.toNat : Int) - 256 := by
  rw [tempInt, BitVec.toInt_eq_toNat_cond]
  split <;> split <;> omega

theorem tempFrac_eq (lsb : Byte) : tempFrac lsb = lsb.toNat / 64 * 25 := by
  rw [tempFrac, Nat.shiftRight_eq_div_pow, Config.tempFracScale]

/-- Settles O41: both commands answer their formula, and two nibbles make at most 165. -/
theorem bcdAndTempDecodeAreTotal : Obligations.BcdAndTempDecodeAreTotal :=
  ⟨fun _ x => ⟨bcdDecode x, rfl, bcdDecode_eq x, bcdDecode_le x⟩,
    fun _ msb lsb => ⟨tempInt msb, tempFrac lsb, rfl, tempInt_eq msb, tempFrac_eq lsb⟩⟩

/-! ## The year (R163, R164) -/

theorem yearDomain_iff : yearDomain year = true ↔ 2000 ≤ year.toNat ∧ year.toNat ≤ 2199 := by
  rw [yearDomain, Bool.and_eq_true, decide_eq_true_iff, decide_eq_true_iff, Config.yearMin, Config.yearMax]

theorem exec_yearEncode (hmin : 2000 ≤ year.toNat) (hmax : year.toNat ≤ 2199) : exec (.yearEncode year) s =
    .next (s.give (.yearCode (yearByte year.toNat) (centuryFlag year.toNat))) := by
  rw [exec, execYearEncode, yearDomain_iff.2 ⟨hmin, hmax⟩, cond_true]

theorem exec_yearDecode (yb : Byte) : exec (.yearDecode yb cen) s = .next (s.give (.number (yearDecode yb cen))) := rfl

/-- The year byte holds the year's last two digits (R163). -/
theorem yearByte_eq {y : Nat} (h : 1900 ≤ y) : yearByte y = bcdEncode (y % 100) := by
  have hdigits : (y - 1900) % 100 = y % 100 := by omega
  rw [yearByte, hdigits]

theorem yearByte_toNat {y : Nat} (h : 1900 ≤ y) : (yearByte y).toNat = 16 * (y % 100 / 10) + y % 10 := by
  rw [yearByte_eq h, bcdEncode_toNat (by omega)]
  omega

theorem centuryFlag_iff {y : Nat} : centuryFlag y = true ↔ 2100 ≤ y := decide_eq_true_iff

theorem yearDecode_eq (yb : Byte) (cen : Bool) :
    yearDecode yb cen = 2000 + (if cen then 100 else 0) + (yb.toNat / 16 * 10 + yb.toNat % 16) := by
  rw [yearDecode, bcdDecode_eq]
  cases cen <;> rfl

/-- The last two digits and the century flag tell the years 2000..2199 apart (R164). -/
theorem yearDecode_yearByte {y : Nat} (hmin : 2000 ≤ y) (hmax : y ≤ 2199) :
    yearDecode (yearByte y) (centuryFlag y) = y := by
  rw [yearDecode_eq, yearByte_toNat (by omega)]
  simp only [centuryFlag_iff]
  split <;> omega

/-- Settles O43: the year byte holds the last two digits, the flag the century, and together they give the year. -/
theorem yearCodecFollowsTheCenturyFlag : Obligations.YearCodecFollowsTheCenturyFlag := by
  refine ⟨fun s y hmin hmax => ⟨yearByte y.toNat, centuryFlag y.toNat, exec_yearEncode hmin hmax,
    yearByte_toNat (by omega), centuryFlag_iff, ?_⟩, fun s yb cen => ?_⟩
  · rw [exec_yearDecode, yearDecode_yearByte hmin hmax, State.give]
  · rw [exec_yearDecode, yearDecode_eq, State.give]

end Sys2Proof.Machine
end

section
/-! SUPPORT. The RTC adapter (44_rtc.md R180 to R191): that a ready adapter operation comes to the end of its course, the
runs of an operation made of several transactions, and its course where the address is not acknowledged or SDA is held low
throughout. Then the statements about the RTC. -/

namespace Sys2Proof.Machine

variable {c : Config} {s : State} {b : Bus} {i : Instr} {p : Prog} {ph : Phase} {look : Nat → Bool} {evs : List Event}

/-! ## Beginning an adapter operation -/

/-- The sequence of each adapter operation is well-behaved (R241). -/
theorem adapterBody_fine (hn : needsIdle i = true) (hb : bodyOf c i = some (b, p)) : p.Fine b longest false false := by
  cases i <;> cases hn <;> simp only [bodyOf, Option.some.injEq, Prod.mk.injEq] at hb <;> obtain ⟨rfl, rfl⟩ := hb
  case rtcReadRegs => exact readRegs_ret_fine (by omega)
  case rtcWriteRegs => exact writeRegs_ret_fine (by simp [writeData])
  case rtcReadTime => exact readRegs_ret_fine (by omega)
  case rtcWriteTime => exact writeRegs_ret_fine (by simp)
  case rtcReadDate => exact readRegs_ret_fine (by omega)
  case rtcWriteDate => exact writeRegs_ret_fine (by simp)
  case rtcReadTemp => exact readRegs_ret_fine (by omega)
  case rtcInit => exact writeRegs_ret_fine (by simp)
  case rtcArmAlarm => exact armAlarm_fine
  case rtcAckAlarm => exact ackAlarm_fine.mono (by decide)
  case dispShowFrame => exact dispShowFrame_fine

/-- An adapter operation's phase precondition is an idle bus (R182, R214). -/
theorem needOf_adapter_met (hn : needsIdle i = true) (hph : ph = .idle) : (needOf i).met ph = true := by
  subst hph
  cases i <;> cases hn <;> rfl

/-- A ready adapter operation comes to the end of its course. -/
theorem exec_adapter (hn : needsIdle i = true) (hb : bodyOf s.cfg i = some (b, p)) (hi : i.wellFormed = true)
    (hready : s.ready b) (hph : s.phase.get b = .idle) :
    ∃ t look, exec i s = .next t ∧ ((s.env.peers.get b).isDrawn = true → look = s.sdaFree b) ∧
      Completed s t b (p.play .idle look).events (p.play .idle look).phase (p.play .idle look).result := by
  obtain ⟨hsteady, -, hfree⟩ := hready
  rw [← hph]
  exact exec_calm hb hi hsteady (needOf_adapter_met hn hph) (adapterBody_fine hn hb).anyLines fun _ => hfree

/-! ## Reads (R180, R182, R184, R186, R188) -/

theorem ReadRegsRun.length_eq {reg : Byte} {n : Nat} {d : List Byte} (h : ReadRegsRun c reg n evs ph (some d)) :
    d.length = n := by
  obtain ⟨-, -, hd⟩ | ⟨_, -, -, hd⟩ | ⟨_, sss, hlength, -, -, -, hd⟩ := h
  · cases hd
  · cases hd
  · cases hd
    rw [List.length_map, hlength]

/-- A read that answers bytes has closed its transaction. -/
theorem ReadRegsRun.phase_eq {reg : Byte} {n : Nat} {d : List Byte} (h : ReadRegsRun c reg n evs ph (some d)) :
    ph = .idle := by
  obtain ⟨-, -, hd⟩ | ⟨_, -, -, hd⟩ | ⟨_, _, -, -, -, hph, -⟩ := h
  · cases hd
  · cases hd
  · exact hph

/-- What a read operation answers to what its burst answered (R182). -/
def readAnswer (f : List Byte → Result) : Option (List Byte) → Result
  | none => .ok false
  | some d => f d

theorem readResult_eq (f : List Byte → Result) (d : Option (List Byte)) : readResult f d = .ret (readAnswer f d) := by
  cases d <;> rfl

/-- An operation that is one read comes to one of that read's runs. -/
theorem exec_readRegs {reg : Byte} {n : Nat} {f : List Byte → Result} (hn : needsIdle i = true)
    (hb : bodyOf s.cfg i = some (.rtc, readRegs s.cfg reg n (readResult f))) (hi : i.wellFormed = true)
    (hready : s.ready .rtc) (hph : s.phase.get .rtc = .idle) :
    ∃ t evs ph d, exec i s = .next t ∧ ReadRegsRun s.cfg reg n evs ph d ∧ Completed s t .rtc evs ph (readAnswer f d) := by
  obtain ⟨t, look, he, -, hdone⟩ := exec_adapter hn hb hi hready hph
  obtain ⟨evs, ph, d, look', hrun, hplay⟩ := readRegs_play (c := s.cfg) reg n (readResult f) look
  rw [hplay, readResult_eq, after_play_ret] at hdone
  exact ⟨t, evs, ph, d, he, hrun, hdone⟩

/-- Settles O45: the operation is one read, which answers the burst's bytes. -/
theorem rtcReadRegsReadsABurst : Obligations.RtcReadRegsReadsABurst := by
  intro s reg n hready hph hn
  have hi : (Instr.rtcReadRegs reg n).wellFormed = true :=
    Bool.and_eq_true_iff.2 ⟨decide_eq_true hn, decide_eq_true (by omega)⟩
  obtain ⟨t, evs, ph, d, he, hrun, hdone⟩ := exec_readRegs (i := .rtcReadRegs reg n) rfl rfl hi hready hph
  refine ⟨t, evs, ph, d, he, hrun, ?_⟩
  cases d with
  | none => exact hdone
  | some d => exact hdone

theorem yearDecode_splitCentury (yb mb : Byte) :
    yearDecode yb (splitCentury mb) = 2000 + (if mb.getLsbD 7 then 100 else 0) + bcdDecode yb := by
  show 2000 + 100 * (mb.getLsbD 7).toNat + bcdDecode yb = _
  cases mb.getLsbD 7 <;> rfl

/-- Settles O47: each operation is one read, and a burst of known length is decoded byte by byte. -/
theorem rtcReadOperationsDecodeOneBurst : Obligations.RtcReadOperationsDecodeOneBurst := by
  intro s hready hph
  refine ⟨?time, ?date, ?temp⟩
  case time =>
    obtain ⟨t, evs, ph, d, he, hrun, hdone⟩ := exec_readRegs (i := .rtcReadTime) rfl rfl rfl hready hph
    refine ⟨t, evs, ph, d, he, hrun, ?_⟩
    cases d with
    | none => exact .inl ⟨rfl, hdone⟩
    | some d =>
      obtain ⟨ss, mm, hh, rfl⟩ := List.length_eq_three.1 hrun.length_eq
      exact .inr ⟨ss, mm, hh, rfl, hdone⟩
  case date =>
    obtain ⟨t, evs, ph, d, he, hrun, hdone⟩ := exec_readRegs (i := .rtcReadDate) rfl rfl rfl hready hph
    refine ⟨t, evs, ph, d, he, hrun, ?_⟩
    cases d with
    | none => exact .inl ⟨rfl, hdone⟩
    | some d =>
      obtain ⟨dd, mb, yb, rfl⟩ := List.length_eq_three.1 hrun.length_eq
      refine .inr ⟨dd, mb, yb, rfl, ?_⟩
      rw [← yearDecode_splitCentury]
      exact hdone
  case temp =>
    obtain ⟨t, evs, ph, d, he, hrun, hdone⟩ := exec_readRegs (i := .rtcReadTemp) rfl rfl rfl hready hph
    refine ⟨t, evs, ph, d, he, hrun, ?_⟩
    cases d with
    | none => exact .inl ⟨rfl, hdone⟩
    | some d =>
      obtain ⟨msb, lsb, rfl⟩ := List.length_eq_two.1 hrun.length_eq
      refine .inr ⟨msb, lsb, rfl, ?_⟩
      rw [← tempFrac_eq]
      exact hdone

/-! ## Operations that answer `ok` alone (R181, R185, R187, R189 to R191) -/

/-- From an idle bus the sequence answers an `ok`, and its events, last phase and `ok` are a run of `R`. -/
def Prog.Answers (p : Prog) (R : List Event → Phase → Bool → Prop) : Prop :=
  ∀ look, ∃ evs ph ok, p.play .idle look = { events := evs, phase := ph, result := .ok ok } ∧ R evs ph ok

/-- A write, and if it is acknowledged a run of `R` (R190). -/
def WriteThen (c : Config) (reg : Byte) (data : List Byte) (R : List Event → Phase → Bool → Prop) (evs : List Event)
    (ph : Phase) (ok : Bool) : Prop :=
  (ok = false ∧ WriteRegsRun c reg data evs ph false) ∨
    ∃ e1 e2, evs = e1 ++ e2 ∧ WriteRegsRun c reg data e1 .idle true ∧ R e2 ph ok

/-- A read of one register, and if it is acknowledged a run of `R` at its value (R190, R191). -/
def ReadThen (c : Config) (reg : Byte) (R : Byte → List Event → Phase → Bool → Prop) (evs : List Event) (ph : Phase)
    (ok : Bool) : Prop :=
  (ok = false ∧ ReadRegsRun c reg 1 evs ph none) ∨
    ∃ (v : Byte) (e1 e2 : List Event), evs = e1 ++ e2 ∧ ReadRegsRun c reg 1 e1 .idle (some [v]) ∧ R v e2 ph ok

/-- A write that answers 1 has closed its transaction. -/
theorem WriteRegsRun.phase_eq {reg : Byte} {data : List Byte} (h : WriteRegsRun c reg data evs ph true) :
    ph = .idle := by
  obtain ⟨-, -, hok⟩ | ⟨_, -, -, hph, -⟩ := h
  · cases hok
  · exact hph

theorem writeRegs_answers {reg : Byte} {data : List Byte} :
    (writeRegs c reg data fun ok => .ret (.ok ok)).Answers (WriteRegsRun c reg data) := by
  intro look
  obtain ⟨evs, ph, ok, look', hrun, hplay⟩ := writeRegs_play (c := c) reg data (fun ok => .ret (.ok ok)) look
  exact ⟨evs, ph, ok, hplay.trans after_play_ret, hrun⟩

theorem writeRegs_answers_then {reg : Byte} {data : List Byte} {k : Bool → Prog} {R : List Event → Phase → Bool → Prop}
    (hfalse : k false = .ret (.ok false)) (htrue : (k true).Answers R) :
    (writeRegs c reg data k).Answers (WriteThen c reg data R) := by
  intro look
  obtain ⟨e1, ph, ok, look', hrun, hplay⟩ := writeRegs_play (c := c) reg data k look
  cases ok with
  | false =>
    rw [hfalse] at hplay
    exact ⟨e1, ph, false, hplay.trans after_play_ret, .inl ⟨rfl, hrun⟩⟩
  | true =>
    obtain rfl := hrun.phase_eq
    obtain ⟨e2, ph, ok, hplay', hrun'⟩ := htrue look'
    rw [hplay'] at hplay
    exact ⟨e1 ++ e2, ph, ok, hplay, .inr ⟨e1, e2, rfl, hrun, hrun'⟩⟩

theorem readRegs_answers_then {reg : Byte} {k : Option (List Byte) → Prog}
    {R : Byte → List Event → Phase → Bool → Prop} (hnone : k none = .ret (.ok false))
    (hsome : ∀ v, (k (some [v])).Answers (R v)) : (readRegs c reg 1 k).Answers (ReadThen c reg R) := by
  intro look
  obtain ⟨e1, ph, d, look', hrun, hplay⟩ := readRegs_play (c := c) reg 1 k look
  cases d with
  | none =>
    rw [hnone] at hplay
    exact ⟨e1, ph, false, hplay.trans after_play_ret, .inl ⟨rfl, hrun⟩⟩
  | some d =>
    obtain ⟨v, rfl⟩ := List.length_eq_one_iff.1 hrun.length_eq
    obtain rfl := hrun.phase_eq
    obtain ⟨e2, ph, ok, hplay', hrun'⟩ := hsome v look'
    rw [hplay'] at hplay
    exact ⟨e1 ++ e2, ph, ok, hplay, .inr ⟨v, e1, e2, rfl, hrun, hrun'⟩⟩

/-- An operation whose sequence answers an `ok` comes to one of its runs. -/
theorem exec_answers {R : List Event → Phase → Bool → Prop} (hp : p.Answers R) (hn : needsIdle i = true)
    (hb : bodyOf s.cfg i = some (b, p)) (hi : i.wellFormed = true) (hready : s.ready b) (hph : s.phase.get b = .idle) :
    ∃ t evs ph ok, exec i s = .next t ∧ R evs ph ok ∧ Completed s t b evs ph (.ok ok) := by
  obtain ⟨t, look, he, -, hdone⟩ := exec_adapter hn hb hi hready hph
  obtain ⟨evs, ph, ok, hplay, hrun⟩ := hp look
  rw [hplay] at hdone
  exact ⟨t, evs, ph, ok, he, hrun, hdone⟩

/-- Settles O46: the operation is one write. -/
theorem rtcWriteRegsWritesABurst : Obligations.RtcWriteRegsWritesABurst :=
  fun _ reg n d0 d1 d2 d3 hi hready hph =>
    exec_answers (i := .rtcWriteRegs reg n d0 d1 d2 d3) writeRegs_answers rfl rfl hi hready hph

/-- The month byte of a year carries its century (R82, R163). -/
theorem monthByte_centuryFlag (m y : Nat) :
    monthByte m (centuryFlag y) = (if 2100 ≤ y then 0x80#8 else 0x00#8) ||| bcdEncode m := by
  by_cases h : 2100 ≤ y
  · rw [centuryFlag_iff.2 h, monthByte_true, if_pos h]
  · rw [Bool.eq_false_iff.2 (mt centuryFlag_iff.1 h), monthByte_false, if_neg h]
    exact BitVec.zero_or.symm

/-- Settles O48: each operation is one write of its encoded bytes. -/
theorem rtcWriteOperationsWriteTheirBytes : Obligations.RtcWriteOperationsWriteTheirBytes := by
  intro s hready hph
  refine ⟨fun hour min sec hhour hmin hsec => ?time, fun day month year hday hmonth hyear hyear' => ?date, ?init⟩
  case time =>
    have hi : (Instr.rtcWriteTime hour min sec).wellFormed = true := by
      rw [wellFormed_writeTime, bcdDomain_iff.2 hhour, bcdDomain_iff.2 hmin, bcdDomain_iff.2 hsec]
      rfl
    exact exec_answers writeRegs_answers rfl rfl hi hready hph
  case date =>
    have hi : (Instr.rtcWriteDate day month year).wellFormed = true := by
      rw [wellFormed_writeDate, bcdDomain_iff.2 hday, bcdDomain_iff.2 hmonth, yearDomain_iff.2 ⟨hyear, hyear'⟩]
      rfl
    rw [← monthByte_centuryFlag, ← yearByte_eq (by omega)]
    exact exec_answers writeRegs_answers rfl rfl hi hready hph
  case init => exact exec_answers (i := .rtcInit) writeRegs_answers rfl rfl rfl hready hph

/-! ## The alarm (R190, R191) -/

theorem updateReg_answers {reg : Byte} {f : Byte → Byte} {k : Bool → Prog} {R : Byte → List Event → Phase → Bool → Prop}
    (hfalse : k false = .ret (.ok false)) (hwrite : ∀ v, (writeRegs c reg [f v] k).Answers (R v)) :
    (updateReg c reg f k).Answers (ReadThen c reg R) := by
  rw [updateReg]
  exact readRegs_answers_then hfalse hwrite

theorem ackAlarm_answers : (ackAlarmSeq c).Answers
    (ReadThen c c.regStatus fun v => WriteRegsRun c c.regStatus [clearFlag v c.a1fBit]) := by
  rw [ackAlarmSeq]
  exact updateReg_answers rfl fun _ => writeRegs_answers

theorem armAlarm_answers : (rtcArmAlarmBody c).Answers
    (WriteThen c c.regAlarm1 (alarmBytes c) <| ReadThen c c.regControl fun v =>
      WriteThen c c.regControl [setFlag v c.a1ieBit] <|
        ReadThen c c.regStatus fun v => WriteRegsRun c c.regStatus [clearFlag v c.a1fBit]) := by
  rw [rtcArmAlarmBody]
  refine writeRegs_answers_then rfl ?_
  rw [Bool.not_true, cond_false]
  exact updateReg_answers rfl fun _ => writeRegs_answers_then rfl ackAlarm_answers

theorem flagMask_getLsbD (a : Fin 8) (k : Nat) : (flagMask a).getLsbD k = decide (k = a.val) := by
  rw [flagMask, BitVec.getLsbD_shiftLeft, BitVec.getLsbD_one, Bool.eq_iff_iff]
  simp only [Bool.and_eq_true, Bool.not_eq_true', decide_eq_true_eq, decide_eq_false_iff_not]
  omega

/-- Clearing a flag leaves every other bit (R191). -/
theorem clearFlag_getLsbD (v : Byte) (a : Fin 8) (k : Nat) :
    (clearFlag v a).getLsbD k = (v.getLsbD k && decide (k ≠ a.val)) := by
  rw [clearFlag, BitVec.getLsbD_and, BitVec.getLsbD_not, flagMask_getLsbD, decide_not]
  by_cases hk : k < 8
  · rw [decide_eq_true hk, Bool.true_and]
  · rw [BitVec.getLsbD_of_ge v k (Nat.le_of_not_lt hk), Bool.false_and, Bool.false_and]

/-- Settles O49: a read of the status register, and a write of its value with the alarm's flag cleared. -/
theorem rtcAckAlarmClearsOneStatusBit : Obligations.RtcAckAlarmClearsOneStatusBit := by
  intro s hready hph
  obtain ⟨t, evs, ph, ok, he, hrun, hdone⟩ := exec_answers (i := .rtcAckAlarm) ackAlarm_answers rfl rfl rfl hready hph
  refine ⟨t, evs, ph, ok, he, hdone, ?_⟩
  obtain ⟨hok, hread⟩ | ⟨v, e1, e2, hevs, hread, hwrite⟩ := hrun
  · exact .inl ⟨hok, hread⟩
  · exact .inr ⟨v, clearFlag v s.cfg.a1fBit, e1, e2, hread, hwrite, hevs, clearFlag_getLsbD v _⟩

/-- Settles O50: the five transactions follow each other, each only after the one before it was acknowledged. -/
theorem rtcArmAlarmRunsFiveTransactions : Obligations.RtcArmAlarmRunsFiveTransactions := by
  intro s hready hph
  obtain ⟨t, evs, ph, ok, he, hrun, hdone⟩ := exec_answers (i := .rtcArmAlarm) armAlarm_answers rfl rfl rfl hready hph
  exact ⟨t, evs, ph, ok, he, hdone, hrun⟩

/-! ## An address that is not acknowledged (R182, R231) -/

theorem adapterStart_play (rw : Bool) (k : Bool → Prog) : (adapterStart c .rtc rw k).play ph look =
    ((k (acked (look (startLength ph + 54)))).play .addrSent (later (startLength ph + 56) look)).after
      (addressedStartEvents .rtc c (ph == .idle) rw (look (startLength ph + 54))) :=
  startSeq_play_addressed c.rtcAddr rw k

/-- Every RTC operation begins with an address for writing, whose NACK ends it with `ok = 0` (R180 to R191). -/
theorem rtcBody_eq_adapterStart (hn : needsIdle i = true) (hb : bodyOf c i = some (.rtc, p)) :
    ∃ rest, p = adapterStart c .rtc false fun ok => bif !ok then rtcAbort c (.ret (.ok false)) else rest := by
  cases i <;> cases hn <;>
    simp only [bodyOf, Option.some.injEq, Prod.mk.injEq, reduceCtorEq, false_and] at hb <;> obtain ⟨-, rfl⟩ := hb <;>
    exact ⟨_, rfl⟩

theorem rtcBody_play_nack (hn : needsIdle i = true) (hb : bodyOf c i = some (.rtc, p)) (hlook : ∀ k, look k = true) :
    p.play .idle look = { events := addressedStartEvents .rtc c true false true ++ abortEvents c
                          phase := abortPhase c
                          result := .ok false } := by
  obtain ⟨rest, rfl⟩ := rtcBody_eq_adapterStart hn hb
  obtain ⟨look', habort⟩ := rtcAbort_play (c := c) (look := later (startLength .idle + 56) look) (.ret (.ok false))
  rw [adapterStart_play, hlook]
  exact (congrArg _ habort).trans ((Course.after_after ..).trans after_play_ret)

/-- Nothing pulls SDA of a bus without a device low (R25, R26). -/
theorem State.sdaFree_of_absent (h : s.env.peers.get b = .absent) (hp : s.cfg.pullupsPresent = true) (k : Nat) :
    s.sdaFree b k = true := by
  rw [State.sdaFree, h, hp]
  rfl

/-! ## SDA held low throughout (R180, R181) -/

/-- Samples of a line that is low throughout. -/
def allLow : Nat → Bool := fun _ => false

theorem later_allLow (n : Nat) : later n allLow = allLow := rfl

/-- The last phase and the result of a sequence that samples 0 throughout. -/
def Prog.lowOutcome (p : Prog) (ph : Phase) : Phase × Result := ((p.play ph allLow).phase, (p.play ph allLow).result)

theorem lowOutcome_eq_of_play {q : Prog} {ph' : Phase} (h : p.play ph allLow = (q.play ph' allLow).after evs) :
    p.lowOutcome ph = q.lowOutcome ph' := by
  rw [Prog.lowOutcome, h]
  rfl

theorem lowOutcome_adapterStart (rw : Bool) (k : Bool → Prog) :
    (adapterStart c .rtc rw k).lowOutcome ph = (k true).lowOutcome .addrSent :=
  lowOutcome_eq_of_play (adapterStart_play rw k)

theorem lowOutcome_writeSeq (x : Byte) (k : Bool → Prog) :
    (writeSeq c .rtc x k).lowOutcome ph = (k true).lowOutcome .transfer :=
  lowOutcome_eq_of_play (writeSeq_play x k)

/-- Eight samples of 0 make the byte 0. -/
theorem assemble_readBits_allLow : assemble (Config.order .rtc) (readBits allLow) = 0 := by decide

theorem lowOutcome_readSeq (last : Bool) (k : Byte → Prog) :
    (readSeq c .rtc last k).lowOutcome ph = (k 0).lowOutcome .transfer :=
  lowOutcome_eq_of_play ((readSeq_play last k).trans (by rw [assemble_readBits_allLow, later_allLow]))

theorem lowOutcome_stopSeq (k : Prog) : (stopSeq c .rtc k).lowOutcome ph = k.lowOutcome .idle :=
  lowOutcome_eq_of_play (stopSeq_play k)

theorem lowOutcome_readBurst (n : Nat) (done : List Byte) (k : List Byte → Prog) :
    (readBurst c n done fun d => stopSeq c .rtc (k d)).lowOutcome ph =
      (k (done.reverse ++ List.replicate n 0)).lowOutcome .idle := by
  induction n generalizing done ph with
  | zero => rw [readBurst, lowOutcome_stopSeq, List.replicate_zero, List.append_nil]
  | succ n ih =>
    rw [readBurst, lowOutcome_readSeq, ih, List.reverse_cons, List.append_assoc, List.singleton_append,
      List.replicate_succ]

theorem lowOutcome_writeBurst (xs : List Byte) (k : Prog) :
    (writeBurst c xs (stopSeq c .rtc k)).lowOutcome ph = k.lowOutcome .idle := by
  induction xs generalizing ph with
  | nil => exact lowOutcome_stopSeq k
  | cons x xs ih => rw [writeBurst, lowOutcome_writeSeq, ih]

theorem lowOutcome_readRegs (reg : Byte) (n : Nat) (k : Option (List Byte) → Prog) :
    (readRegs c reg n k).lowOutcome ph = (k (some (List.replicate n 0))).lowOutcome .idle := by
  rw [readRegs, lowOutcome_adapterStart, Bool.not_true, cond_false, lowOutcome_writeSeq, lowOutcome_adapterStart,
    Bool.not_true, cond_false, lowOutcome_readBurst n [] fun d => k (some d)]
  rfl

theorem lowOutcome_writeRegs (reg : Byte) (data : List Byte) (k : Bool → Prog) :
    (writeRegs c reg data k).lowOutcome ph = (k true).lowOutcome .idle := by
  rw [writeRegs, lowOutcome_adapterStart, Bool.not_true, cond_false, lowOutcome_writeBurst]

theorem lowOutcome_updateReg (reg : Byte) (f : Byte → Byte) (k : Bool → Prog) :
    (updateReg c reg f k).lowOutcome ph = (k true).lowOutcome .idle := by
  rw [updateReg, lowOutcome_readRegs]
  exact lowOutcome_writeRegs ..

/-- To samples of 0 every RTC operation answers what it makes of acknowledgments and zero bytes. -/
theorem rtcBody_lowOutcome (hn : needsIdle i = true) (hb : bodyOf c i = some (.rtc, p)) :
    p.lowOutcome .idle = (.idle, zeroResult i) := by
  cases i <;> cases hn <;>
    simp only [bodyOf, Option.some.injEq, Prod.mk.injEq, reduceCtorEq, false_and] at hb <;> obtain ⟨-, rfl⟩ := hb
  case rtcReadRegs => exact lowOutcome_readRegs ..
  case rtcReadTime => exact lowOutcome_readRegs ..
  case rtcReadDate => exact lowOutcome_readRegs ..
  case rtcReadTemp => exact lowOutcome_readRegs ..
  case rtcWriteRegs => exact lowOutcome_writeRegs ..
  case rtcWriteTime => exact lowOutcome_writeRegs ..
  case rtcWriteDate => exact lowOutcome_writeRegs ..
  case rtcInit => exact lowOutcome_writeRegs ..
  case rtcAckAlarm => exact lowOutcome_updateReg ..
  case rtcArmAlarm =>
    rw [rtcArmAlarmBody, lowOutcome_writeRegs, Bool.not_true, cond_false, lowOutcome_updateReg, Bool.not_true, cond_false]
    exact lowOutcome_updateReg ..

/-- Settles O51: without a device the first address byte is not acknowledged, and with SDA held low every sample is 0. -/
theorem addressAcknowledgmentsDecideEveryRtcOperation : Obligations.AddressAcknowledgmentsDecideEveryRtcOperation := by
  intro i s ht hn hi hready hph
  obtain ⟨p, hb⟩ := bodyOf_of_touches (c := s.cfg) ht
  obtain ⟨t, look, he, hdrawn, hdone⟩ := exec_adapter hn hb hi hready hph
  refine ⟨fun habsent hpull => ⟨t, he, ?_⟩, fun hd hlow => ⟨t, (p.play .idle allLow).events, he, ?_⟩⟩
  · have hpeer : s.env.peers.get .rtc = .absent := habsent
    have hlook := hdrawn (by rw [hpeer]; rfl)
    rw [rtcBody_play_nack hn hb fun k => hlook ▸ State.sdaFree_of_absent hpeer hpull k] at hdone
    rw [abortEvents, abortPhase, cond_eq_ite, cond_eq_ite] at hdone
    exact hdone
  · have hplay : p.play .idle look = p.play .idle allLow :=
      Prog.play_congr (adapterBody_fine hn hb) .idle fun k hk => hdrawn hd ▸ hlow k hk
    obtain ⟨hphase, hresult⟩ := Prod.mk.inj (rtcBody_lowOutcome hn hb)
    rw [hplay, hphase, hresult] at hdone
    exact hdone

end Sys2Proof.Machine
end

section
/-! SUPPORT. The display adapter (45_display.md R210 to R214): segment bytes and their dots, the segments of a number by
its value, and the course of a display refresh. Then the statements about the display. -/

namespace Sys2Proof.Machine

variable {c : Config} {s : State} {m : Byte} {v : Nat} {sup b : Bool} {dots : BitVec 4} {k : Fin 4}

/-! ## Segment bytes (R210 to R212) -/

theorem getElem?_segTable (d : BitVec 4) : c.segTable.toList[d.toNat]? = some (segDigit c d) := by
  rw [Vector.getElem?_toList]
  exact Vector.getElem?_eq_getElem d.isLt

/-- A sound board's table holds no dot (R210). -/
theorem segDigit_getLsbD_seven (h : configWf c = true) (d : BitVec 4) : (segDigit c d).getLsbD 7 = false := by
  obtain ⟨-, -, -, -, -, -, -, -, -, -, -, htable, -⟩ := configWf_iff.1 h
  exact htable _ (List.mem_of_getElem? (getElem?_segTable d))

theorem exec_segDigit (d : BitVec 4) : exec (.segDigit d) s = .next (s.give (.byte (segDigit s.cfg d))) := rfl

theorem exec_segSetDot (s0 s1 s2 s3 : Byte) (pos : BitVec 2) :
    exec (.segSetDot s0 s1 s2 s3 pos) s = .next (s.give (.frame (setDot #v[s0, s1, s2, s3] pos))) := rfl

/-- A dot sets bit 7 of its position and nothing else (R212). -/
theorem setDot_getLsbD (f : Frame) (pos : BitVec 2) (k : Fin 4) (j : Nat) :
    (setDot f pos)[k].getLsbD j = (f[k].getLsbD j || (decide (k.val = pos.toNat) && decide (j = 7))) := by
  have hbit : (0x80#8).getLsbD j = decide (j = 7) := flagMask_getLsbD 7 j
  by_cases hk : k.val = pos.toNat
  · obtain rfl : k = pos.toFin := Fin.ext hk
    have hset : (setDot f pos)[pos.toFin] = f[pos.toFin] ||| 0x80#8 := Vector.getElem_set_self ..
    rw [hset, BitVec.getLsbD_or, hbit, decide_eq_true hk, Bool.true_and]
  · have hset : (setDot f pos)[k] = f[k] := Vector.getElem_set_ne _ _ (Ne.symm hk)
    rw [hset, decide_eq_false hk, Bool.false_and, Bool.or_false]

/-- Settles O53: the answer is an entry of a sound board's table, and the given frame with one bit set. -/
theorem segmentCommandsBuildFrames : Obligations.SegmentCommandsBuildFrames :=
  ⟨fun s d h => ⟨segDigit s.cfg d, exec_segDigit d, getElem?_segTable d, segDigit_getLsbD_seven h d⟩,
    fun _ s0 s1 s2 s3 pos => ⟨setDot #v[s0, s1, s2, s3] pos, exec_segSetDot s0 s1 s2 s3 pos,
      fun k j _ => setDot_getLsbD _ pos k j⟩⟩

/-! ## The segments of a number (R213, R216) -/

/-- The dot of a position, as SEG_NUMBER puts it (R213). -/
def dotMask (b : Bool) : Byte := (BitVec.ofBool b).setWidth 8 <<< 7

theorem dotMask_getLsbD (b : Bool) (j : Nat) : (dotMask b).getLsbD j = (b && decide (j = 7)) := by
  cases b with
  | false => exact BitVec.getLsbD_zero
  | true => exact (flagMask_getLsbD 7 j).trans (Bool.true_and _).symm

theorem or_dotMask_getLsbD_seven (h : m.getLsbD 7 = false) : (m ||| dotMask b).getLsbD 7 = b := by
  rw [BitVec.getLsbD_or, h, Bool.false_or, dotMask_getLsbD, decide_eq_true rfl, Bool.and_true]

/-- Below the dot stand the segments (R210). -/
theorem or_dotMask_and (h : m.getLsbD 7 = false) : (m ||| dotMask b) &&& 0x7F#8 = m := by
  have hmask (x : Byte) : x &&& 0x7F#8 = clearFlag x 7 := rfl
  refine BitVec.eq_of_getLsbD_eq fun j hj => ?_
  rw [hmask, clearFlag_getLsbD, BitVec.getLsbD_or, dotMask_getLsbD]
  by_cases h7 : j = 7
  · rw [h7, h]
    exact Bool.and_false _
  · simp [h7]

/-- Erasing a digit's segments leaves its dot (R213). -/
theorem or_dotMask_and_not (h : m.getLsbD 7 = false) : (m ||| dotMask b) &&& ~~~m = dotMask b := by
  refine BitVec.eq_of_getLsbD_eq fun j hj => ?_
  rw [BitVec.getLsbD_and, BitVec.getLsbD_or, BitVec.getLsbD_not, dotMask_getLsbD, decide_eq_true hj, Bool.true_and]
  by_cases h7 : j = 7
  · rw [h7, h, Bool.false_or]
    exact Bool.and_true _
  · simp [h7]

theorem digitsOf_getElem (h : v ≤ 9999) (k : Fin 4) : (digitsOf v)[k] = v / 10 ^ (3 - k.val) % 10 := by
  match k with
  | 0 =>
    show v / 1000 = v / 1000 % 10
    omega
  | 1 => rfl
  | 2 => rfl
  | 3 =>
    show v % 10 = v / 1 % 10
    rw [Nat.div_one]

theorem leadingZeros_digitsOf :
    leadingZeros (digitsOf v) = if 1000 ≤ v then 0 else if 100 ≤ v then 1 else if 10 ≤ v then 2 else 3 := by
  show (if v / 1000 ≠ 0 then 0 else if v / 100 % 10 ≠ 0 then 1 else if v / 10 % 10 ≠ 0 then 2 else 3) = _
  split_ifs <;> omega

/-- A leading zero is a digit before the units digit that the number is too small to reach (R213). -/
theorem lt_leadingZeros_iff (k : Fin 4) : k.val < leadingZeros (digitsOf v) ↔ k.val < 3 ∧ v < 10 ^ (3 - k.val) := by
  rw [leadingZeros_digitsOf]
  match k with
  | 0 | 1 | 2 | 3 => split_ifs <;> simp <;> omega

theorem numberFrame_getElem (k : Fin 4) : (numberFrame c v sup dots)[k] = numberSegment c (digitsOf v) sup dots k := by
  match k with
  | 0 | 1 | 2 | 3 => rfl

theorem segDigit_ofNat {d : Nat} (h : d < 10) : segDigit c (BitVec.ofNat 4 d) = c.segTable[d]! := by
  have hd : (BitVec.ofNat 4 d).toNat = d := Nat.mod_eq_of_lt (by omega)
  have hget := getElem?_segTable (c := c) (BitVec.ofNat 4 d)
  rw [hd, Vector.getElem?_toList] at hget
  rw [getElem!_def, hget]

/-- The segments of position `k` of the number `v`, its dot apart: blank where a leading zero is suppressed, else its
decimal digit's (R213). -/
def shownSegments (c : Config) (v : Nat) (sup : Bool) (k : Fin 4) : Byte :=
  if sup = true ∧ k.val < 3 ∧ v < 10 ^ (3 - k.val) then 0#8 else c.segTable[v / 10 ^ (3 - k.val) % 10]!

theorem shownSegments_getLsbD_seven (h : configWf c = true) : (shownSegments c v sup k).getLsbD 7 = false := by
  rw [shownSegments]
  split
  · rfl
  · rw [← segDigit_ofNat (Nat.mod_lt _ (by decide))]
    exact segDigit_getLsbD_seven h _

theorem numberSegment_of_kept {dg : Vector Nat 4} (h : (sup && decide (k.val < leadingZeros dg)) = false) :
    numberSegment c dg sup dots k = segDigit c (BitVec.ofNat 4 dg[k]) ||| dotMask (dots.getLsbD k.val) := by
  rw [numberSegment, h]
  rfl

theorem numberSegment_of_erased {dg : Vector Nat 4} (hwf : configWf c = true)
    (h : (sup && decide (k.val < leadingZeros dg)) = true) (hzero : dg[k] = 0) :
    numberSegment c dg sup dots k = dotMask (dots.getLsbD k.val) := by
  rw [numberSegment, h, hzero]
  exact or_dotMask_and_not (segDigit_getLsbD_seven hwf 0)

/-- A position of a number is what it shows and its dot (R213, R216). -/
theorem numberSegment_eq (hwf : configWf c = true) (hv : v ≤ 9999) :
    numberSegment c (digitsOf v) sup dots k = shownSegments c v sup k ||| dotMask (dots.getLsbD k.val) := by
  have herase : (sup && decide (k.val < leadingZeros (digitsOf v))) = true ↔
      sup = true ∧ k.val < 3 ∧ v < 10 ^ (3 - k.val) := by
    rw [Bool.and_eq_true_iff, decide_eq_true_iff, lt_leadingZeros_iff]
  rw [shownSegments]
  split
  case isTrue hsup =>
    have hzero : (digitsOf v)[k] = 0 := by
      obtain ⟨-, -, hsmall⟩ := hsup
      rw [digitsOf_getElem hv, Nat.div_eq_of_lt hsmall]
    rw [numberSegment_of_erased hwf (herase.2 hsup) hzero, BitVec.zero_or]
  case isFalse hsup =>
    rw [numberSegment_of_kept (Bool.eq_false_iff.2 (mt herase.1 hsup)), digitsOf_getElem hv,
      segDigit_ofNat (Nat.mod_lt _ (by decide))]

theorem exec_segNumber {value : BitVec 16} (hv : value.toNat ≤ 9999) : exec (.segNumber value sup dots) s =
    .next (s.give (.frame (numberFrame s.cfg value.toNat sup dots))) := by
  have hdomain : numberDomain value = true := decide_eq_true hv
  rw [exec, execSegNumber, hdomain, cond_true]

/-- Settles O54: each position is its shown segments, whose bit 7 is clear, and its dot. -/
theorem segNumberSuppressesLeadingZeros : Obligations.SegNumberSuppressesLeadingZeros := by
  intro s v sup dots h hv
  refine ⟨numberFrame s.cfg v.toNat sup dots, exec_segNumber hv, fun k => ?_⟩
  have hdot := shownSegments_getLsbD_seven (v := v.toNat) (sup := sup) (k := k) h
  rw [numberFrame_getElem, numberSegment_eq h hv]
  exact ⟨or_dotMask_getLsbD_seven hdot, or_dotMask_and hdot⟩

/-! ## A display refresh (R86, R214) -/

/-- The brightness stands in the low bits of the control command (R86). -/
theorem dispControl_eq (br : BitVec 3) : dispControl br = BitVec.ofNat 8 (0x88 + br.toNat) := by
  decide +revert

/-- The events of one display transaction, with its acknowledgment samples (R214). -/
def dispEvents (c : Config) (xs : List (Byte × Bool)) : List Event :=
  startEvents .disp c.tHalf true ++ burstEvents .disp c.tHalf xs ++ stopEvents .disp c.tHalf c.tSettle

/-- A refresh comes to three transactions, whatever is acknowledged. -/
theorem dispShowFrameBody_play (s0 s1 s2 s3 : Byte) (br : BitVec 3) (look : Nat → Bool) :
    ∃ a1 a2 a3 : List Bool, a1.length = 1 ∧ a2.length = 5 ∧ a3.length = 1 ∧
      (dispShowFrameBody c s0 s1 s2 s3 br).play .idle look =
        { events := dispEvents c ([Config.dispCmdAutoInc].zip a1) ++
            dispEvents c ([Config.dispCmdAddr0, s0, s1, s2, s3].zip a2) ++ dispEvents c ([dispControl br].zip a3)
          phase := .idle
          result := .nothing } := by
  obtain ⟨a1, look1, h1, hplay1⟩ := dispTransaction_play (c := c) [Config.dispCmdAutoInc]
    (dispTransaction c [Config.dispCmdAddr0, s0, s1, s2, s3] <| dispTransaction c [dispControl br] (.ret .nothing)) look
  obtain ⟨a2, look2, h2, hplay2⟩ := dispTransaction_play (c := c) [Config.dispCmdAddr0, s0, s1, s2, s3]
    (dispTransaction c [dispControl br] (.ret .nothing)) look1
  obtain ⟨a3, look3, h3, hplay3⟩ := dispTransaction_play (c := c) [dispControl br] (.ret .nothing) look2
  refine ⟨a1, a2, a3, h1, h2, h3, ?_⟩
  rw [dispShowFrameBody, hplay1, hplay2, hplay3, Course.after_after, Course.after_after, after_play_ret]
  rfl

/-- Settles O55: a ready refresh comes to the end of its course, which leaves the bus IDLE and so unowned. -/
theorem dispShowFrameSendsThreeTransactions : Obligations.DispShowFrameSendsThreeTransactions := by
  intro s s0 s1 s2 s3 br hready hph
  obtain ⟨t, look, he, -, hdone⟩ := exec_adapter (i := .dispShowFrame s0 s1 s2 s3 br) rfl rfl rfl hready hph
  obtain ⟨a1, a2, a3, h1, h2, h3, hplay⟩ := dispShowFrameBody_play (c := s.cfg) s0 s1 s2 s3 br look
  rw [hplay, dispControl_eq] at hdone
  exact ⟨t, a1, a2, a3, he, h1, h2, h3, hdone⟩

end Sys2Proof.Machine
end

section
/-! SUPPORT. How a run can stop (`run_end`): it returns, is held, is preempted, or stalls on its own clock; and what
beginning a command can do before its first micro-step: Overlap, ProtocolMisuse or the run (R31, R237, R239). Then the
statements about faults (60_exceptions.md section 2). -/

namespace Sys2Proof.Machine

variable {s t m : State} {b : Bus} {i : Instr} {p : Prog} {trail : List Bool}

/-! ## What a run has done when it stops -/

/-- From `s` to `m` a run has recorded events and left the host's side, the owners, the results and a raised
notification as they were (R35, R79, R244). -/
structure Ran (s m : State) : Prop where
  host : SameHost s m
  owner : m.owner = s.owner
  returned : m.returned = s.returned
  trace : ∃ es, m.trace = s.trace ++ es
  raised : s.raised → m.raised

theorem Ran.refl (s : State) : Ran s s := ⟨SameHost.refl s, rfl, rfl, ⟨[], (List.append_nil _).symm⟩, id⟩

theorem Ran.trans (h : Ran s m) (h' : Ran m t) : Ran s t := by
  obtain ⟨es, hes⟩ := h.trace
  obtain ⟨es', hes'⟩ := h'.trace
  exact ⟨h.host.trans h'.host, h'.owner.trans h.owner, h'.returned.trans h.returned,
    ⟨es ++ es', by rw [hes', hes, List.append_assoc]⟩, fun hs => h'.raised (h.raised hs)⟩

theorem Ran.envMove (s : State) : Ran s s.envMove :=
  ⟨SameHost.refl s, rfl, rfl, ⟨[], (List.append_nil _).symm⟩, State.raised_envMove⟩

theorem Ran.record (s : State) (e : Event) : Ran s (s.record e) :=
  ⟨SameHost.refl s, rfl, rfl, ⟨[e], List.reverse_cons⟩, State.raised_congr rfl⟩

/-- A micro-step that completes records its events and returns nothing (R35, R79). -/
theorem Act.effect_records {a : Act} (he : a.effect s = .done t) :
    t.traceRev = a.events.reverse ++ s.traceRev ∧ t.returned = s.returned := by
  cases a with
  | waitHigh b' =>
    simp only [Act.effect] at he
    split_ifs at he
    cases he
    exact ⟨rfl, rfl⟩
  | driveLow | release | delay | phase | ackFail => cases he; exact ⟨rfl, rfl⟩

theorem Ran.effect {a : Act} (hon : a.on b) (he : a.effect s = .done t) : Ran s t := by
  obtain ⟨-, hhost, howner⟩ := OutsideBus.of_effect hon he
  obtain ⟨htrace, hreturned⟩ := Act.effect_records he
  exact ⟨hhost, howner, hreturned, ⟨a.events, by simp [State.trace, htrace]⟩, fun h => Act.raised_effect h he⟩

/-! ## How a run stops -/

/-- How a run of command `i` on bus `b` that has come to the state `m` stops there without a fault: it returns, its
clock wait is held, or the notification preempts it (R113, R234, R245). -/
inductive RunEnd (i : Instr) (b : Bus) (m : State) : State → Prop
  | returned (r : Result) : RunEnd i b m ((m.acknowledge i r).finish b r)
  | held (trail : List Bool) : RunEnd i b m (m.suspend { instr := i, trail := trail })
  | preempted (trail : List Bool) (hf : m.fires = true) :
      RunEnd i b m (m.suspend { instr := i, trail := trail }).startHandler

theorem RunEnd.fault_eq (h : RunEnd i b m t) : t.fault = m.fault := by cases h <;> rfl

/-- The one fault of a micro-step: a wait for a clock that the block itself drives (R241). -/
theorem Act.effect_fault {a : Act} {f : Fault} (he : a.effect s = .fault f) :
    ∃ b, a = .waitHigh b ∧ s.drivesLow b .scl = true ∧ f = .selfStall b := by
  cases a with
  | waitHigh b =>
    simp only [Act.effect] at he
    split_ifs at he with hd
    cases he
    exact ⟨b, rfl, hd, rfl⟩
  | driveLow | release | delay | phase | ackFail => cases he

/-- A run goes on, keeping `P` of the rest of its sequence and its state, until it stops without a fault or at a wait
for a clock that the block itself drives. -/
theorem run_end {P : Prog → State → Prop} (henv : ∀ q m, P q m → P q m.envMove)
    (hact : ∀ a rest m t, P (.act a rest) m → a.effect m = .done t → P rest t)
    (hsample : ∀ b' l k m, P (.sample b' l k) m → P (k (m.level b' l)) (m.record (.sample b' l (m.level b' l))))
    (hidle : ∀ b' k m, P (.ifIdle b' k) m → P (k (m.phase.get b' == .idle)) m) (h : P p s) :
    ∃ q m, P q m ∧ (RunEnd i b m (run i b p trail s) ∨ ∃ b' rest, q = .act (.waitHigh b') rest ∧
      m.drivesLow b' .scl = true ∧ run i b p trail s = m.raise (.selfStall b')) := by
  induction p generalizing trail s with
  | ret r => exact ⟨_, s, h, .inl (.returned r)⟩
  | act a rest ih =>
    have hm := henv _ _ h
    simp only [run]
    cases hf : s.envMove.fires with
    | true => exact ⟨_, _, hm, .inl (.preempted _ hf)⟩
    | false =>
      cases he : a.effect s.envMove with
      | done t => exact ih (hact a rest _ t hm he)
      | hold => exact ⟨_, _, hm, .inl (.held _)⟩
      | fault f =>
        obtain ⟨b', rfl, hd, rfl⟩ := Act.effect_fault he
        exact ⟨_, _, hm, .inr ⟨b', rest, rfl, hd, rfl⟩⟩
  | sample b' l k ih =>
    have hm := henv _ _ h
    simp only [run]
    cases hf : s.envMove.fires with
    | true => exact ⟨_, _, hm, .inl (.preempted _ hf)⟩
    | false => exact ih _ (hsample b' l k _ hm)
  | ifIdle b' k ih => exact ih _ (hidle b' k s h)

/-- A run on bus `b` stops without a fault or raises SelfStall on bus `b`. -/
theorem run_ran (hp : p.On b) : ∃ m, Ran s m ∧ (RunEnd i b m (run i b p trail s) ∨
    m.drivesLow b .scl = true ∧ run i b p trail s = m.raise (.selfStall b)) := by
  obtain ⟨q, m, ⟨hq, hran⟩, hend⟩ := run_end (i := i) (b := b) (trail := trail) (P := fun q m => q.On b ∧ Ran s m)
    (fun _ m h => ⟨h.1, h.2.trans (.envMove m)⟩) (fun _ _ _ _ h he => ⟨h.1.2, h.2.trans (.effect h.1.1 he)⟩)
    (fun _ _ _ m h => ⟨h.1.2 _, h.2.trans (.record m _)⟩) (fun _ _ _ h => ⟨h.1.2 _, h.2⟩) ⟨hp, .refl s⟩
  refine ⟨m, hran, hend.imp_right ?_⟩
  rintro ⟨b', rest, rfl, hd, hrun⟩
  obtain rfl : b' = b := hq.1
  exact ⟨hd, hrun⟩

/-- The only fault of a run is SelfStall on its bus, where the block drives its clock. -/
theorem run_fault (hp : p.On b) : (run i b p trail s).fault = s.fault ∨
    (run i b p trail s).fault = some (.selfStall b) ∧ (run i b p trail s).drivesLow b .scl = true := by
  obtain ⟨m, hran, hend | ⟨hd, hrun⟩⟩ := run_ran (i := i) (s := s) (trail := trail) hp
  · obtain ⟨-, hfault, -⟩ := hran.host
    exact .inl (hend.fault_eq.trans hfault)
  · rw [hrun]
    exact .inr ⟨rfl, hd⟩

/-! ## Runs that wait only for a clock they release -/

/-- A sequence that waits for SCL of bus `b` only while the block releases it; `free` says whether it does so at
the start. -/
def Prog.Clocked (b : Bus) : Prog → Bool → Prop
  | .ret _, _ => True
  | .act a rest, free => (a = .waitHigh b → free = true) ∧ rest.Clocked b (a.freeAfter .scl free)
  | .sample _ _ k, free => ∀ v, (k v).Clocked b free
  | .ifIdle _ k, free => ∀ v, (k v).Clocked b free

theorem Prog.Fine.clocked {n : Nat} {c d : Bool} (h : p.Fine b n c d) : p.Clocked b c := by
  induction p generalizing n c d with
  | ret => trivial
  | act a rest ih =>
    cases n with
    | zero => exact h.elim
    | succ n => exact ⟨h.2.1, ih h.2.2⟩
  | sample b' l k ih =>
    cases n with
    | zero => exact h.elim
    | succ n => exact fun v => ih v (h.2.2.2 v)
  | ifIdle b' k ih => exact fun v => ih v (h.2 v)

/-- Every command waits only for a clock it has released itself, but SCL_WAIT_HIGH, which waits at once (R113, R241). -/
theorem bodyOf_clocked {c : Config} {free : Bool} (hb : bodyOf c i = some (b, p))
    (hi : i = .sclWaitHigh b → free = true) : p.Clocked b free := by
  cases hn : needsIdle i with
  | true => exact ((adapterBody_fine hn hb).anyLines (y := false)).clocked
  | false =>
    cases hl : exitLines i with
    | some ls => exact ((engineBody_fine hb hl).anyLines (y := false)).clocked
    | none =>
      cases i <;> obtain ⟨⟩ := hl <;> obtain ⟨⟩ := hn <;> obtain ⟨⟩ := hb
      case sclWaitHigh => exact ⟨fun _ => hi rfl, trivial⟩
      case lineRead => exact fun _ => trivial
      all_goals exact ⟨nofun, trivial⟩

/-- A micro-step that completes keeps the pin file's form and leaves SCL driven or released as its rule says (R24). -/
theorem Act.effect_scl {a : Act} (hc : configWf s.cfg = true) (hw : s.pinsWf) (hon : a.on b)
    (he : a.effect s = .done t) : t.pinsWf ∧ t.drivesLow b .scl = !a.freeAfter .scl (!s.drivesLow b .scl) := by
  obtain ⟨u, hu, hmoved, -, -, -, hdrive⟩ := Act.effect_done hc hw hon fun ha => by
    subst ha
    simp only [Act.effect] at he
    split_ifs at he with hd hl
    exact ⟨Bool.eq_false_of_not_eq_true hd, hl⟩
  obtain rfl : u = t := Effect.done.inj (hu.symm.trans he)
  exact ⟨hmoved.wf, hdrive .scl⟩

/-- A sequence that waits only for a clock it releases stops without a fault. -/
theorem run_clocked (hc : configWf s.cfg = true) (hw : s.pinsWf) (hp : p.On b)
    (hclk : p.Clocked b (!s.drivesLow b .scl)) : ∃ m, Ran s m ∧ RunEnd i b m (run i b p trail s) := by
  obtain ⟨q, m, ⟨hq, hclk, -, hran⟩, hend⟩ := run_end (i := i) (b := b) (trail := trail)
    (P := fun q m => q.On b ∧ q.Clocked b (!m.drivesLow b .scl) ∧ m.pinsWf ∧ Ran s m)
    (fun _ m ⟨hq, hclk, hw, h⟩ => ⟨hq, hclk, hw, h.trans (.envMove m)⟩)
    (fun a rest m t ⟨hq, hclk, hw, h⟩ he => by
      obtain ⟨hcfg, -⟩ := h.host
      obtain ⟨hw', hd⟩ := Act.effect_scl (hcfg ▸ hc) hw hq.1 he
      refine ⟨hq.2, ?_, hw', h.trans (.effect hq.1 he)⟩
      rw [hd, Bool.not_not]
      exact hclk.2)
    (fun _ _ _ m ⟨hq, hclk, hw, h⟩ => ⟨hq.2 _, hclk _, hw, h.trans (.record m _)⟩)
    (fun _ _ _ ⟨hq, hclk, hw, h⟩ => ⟨hq.2 _, hclk _, hw, h⟩) ⟨hp, hclk, hw, .refl s⟩
  refine ⟨m, hran, hend.resolve_right ?_⟩
  rintro ⟨b', rest, rfl, hd, -⟩
  obtain rfl : b' = b := hq.1
  simp [hd] at hclk
  exact absurd (hclk.1 rfl) (by decide)

/-! ## Beginning a command (R31, R237, R239) -/

theorem State.not_mayUse : ¬ s.mayUse b ↔ s.owner.get b ≠ .none ∧ s.owner.get b ≠ s.ctx.owner := not_or

theorem busCommand_of_not_mayUse {need : Need} (h : ¬ s.mayUse b) :
    busCommand i b need p s = s.raise (.overlap b s.ctx (s.owner.get b)) := by
  obtain ⟨hnone, hother⟩ := State.not_mayUse.1 h
  have hown : s.ownedByOther b = true := Bool.and_eq_true_iff.2 ⟨bne_iff_ne.2 hnone, bne_iff_ne.2 hother⟩
  simp [busCommand, hown]

theorem State.ownedByOther_of_mayUse (h : s.mayUse b) : s.ownedByOther b = false := by
  rcases h with h | h <;> simp [State.ownedByOther, h]

theorem busCommand_of_unmet {need : Need} (h : s.mayUse b) (hn : need.met (s.phase.get b) = false) :
    busCommand i b need p s = (s.setOwner b s.ctx.owner).raise (.protocolMisuse b) := by
  simp [busCommand, State.ownedByOther_of_mayUse h, hn]

theorem busCommand_of_met {need : Need} (h : s.mayUse b) (hn : need.met (s.phase.get b) = true) :
    busCommand i b need p s = run i b p [] (s.setOwner b s.ctx.owner) := by
  simp [busCommand, State.ownedByOther_of_mayUse h, hn]

/-- No command needs both an open transaction and an idle bus. -/
theorem needsIdle_of_needsTransaction (h : needsTransaction i = true) : needsIdle i = false := by
  cases i <;> first | rfl | cases h

/-- A command's phase precondition fails only outside a transaction it needs or inside one it excludes (R138, R182). -/
theorem needOf_unmet {ph : Phase} : (needOf i).met ph = false ↔
    needsTransaction i = true ∧ ph = .idle ∨ needsIdle i = true ∧ ph ≠ .idle := by
  unfold needOf
  cases ht : needsTransaction i with
  | true => simp [Need.met, needsIdle_of_needsTransaction ht]
  | false => cases hi : needsIdle i <;> simp [Need.met]

theorem needOf_met {ph : Phase} (ht : needsTransaction i = true → ph ≠ .idle) (hi : needsIdle i = true → ph = .idle) :
    (needOf i).met ph = true := by
  refine Bool.eq_true_of_not_eq_false fun h => ?_
  rcases needOf_unmet.1 h with ⟨hn, hph⟩ | ⟨hn, hph⟩
  · exact ht hn hph
  · exact hph (hi hn)

/-- A command without a sequence touches no bus (R31). -/
theorem touches_eq_none {c : Config} (h : bodyOf c i = none) : touches i = none := by
  cases ht : touches i with
  | none => rfl
  | some b =>
    obtain ⟨p, hp⟩ := bodyOf_of_touches (c := c) ht
    cases h.symm.trans hp

/-! ## Commands of no bus (R102, R103, R238) -/

/-- Command `i` would make bus pin `p` output-high (R238). -/
def WouldDriveHigh (i : Instr) (s : State) (p : Byte) : Prop :=
  (∃ b l, p = pinOf s.cfg b l) ∧
    (i = .pinSetMode p true ∧ (s.pin p).latch = true ∨ i = .pinWrite p true ∧ (s.pin p).mode = .output)

/-- PIN_SET_MODE faults only where a bus pin would become output-high (R102). -/
theorem exec_pinSetMode_fault {p : Byte} {v : Bool} (he : exec (.pinSetMode p v) s = .next t) :
    t.fault = s.fault ∨ ∃ q, t.fault = some (.outputHigh q) ∧ WouldDriveHigh (.pinSetMode p v) s q := by
  cases hp : validPin s.cfg p with
  | false =>
    rw [exec_pinSetMode_of_invalid hp] at he
    cases he
    exact .inl rfl
  | true =>
    by_cases hdrain : (∃ b l, p = pinOf s.cfg b l) → v = false ∨ (s.pin p).latch = false
    · rw [exec_pinSetMode_of_valid hp hdrain] at he
      cases he
      obtain ⟨-, -, -, hfault, -⟩ := State.sameBuses_setMode (s := s) p v
      exact .inl hfault
    · simp only [Classical.not_imp, not_or, Bool.not_eq_false] at hdrain
      obtain ⟨hbus, rfl, hlatch⟩ := hdrain
      rw [exec_pinSetMode_of_outputHigh hp hbus rfl hlatch] at he
      cases he
      exact .inr ⟨p, rfl, hbus, .inl ⟨rfl, hlatch⟩⟩

/-- PIN_WRITE faults only where a bus pin would become output-high (R103). -/
theorem exec_pinWrite_fault {p : Byte} {v : Bool} (he : exec (.pinWrite p v) s = .next t) :
    t.fault = s.fault ∨ ∃ q, t.fault = some (.outputHigh q) ∧ WouldDriveHigh (.pinWrite p v) s q := by
  cases hp : validPin s.cfg p with
  | false =>
    rw [exec_pinWrite_of_invalid hp] at he
    cases he
    exact .inl rfl
  | true =>
    by_cases hdrain : (∃ b l, p = pinOf s.cfg b l) → v = false ∨ (s.pin p).mode = .input
    · rw [exec_pinWrite_of_valid hp hdrain] at he
      cases he
      exact .inl rfl
    · simp only [Classical.not_imp, not_or, Bool.not_eq_false] at hdrain
      obtain ⟨hbus, rfl, hmode⟩ := hdrain
      have hout : (s.pin p).mode = .output := by
        cases hm : (s.pin p).mode with
        | input => exact absurd hm hmode
        | output => rfl
      rw [exec_pinWrite_of_outputHigh hp hbus rfl hout] at he
      cases he
      exact .inr ⟨p, rfl, hbus, .inr ⟨rfl, hout⟩⟩

/-- The one fault of the commands that touch no bus: a bus pin would become output-high (R236, R238). -/
theorem exec_fault_of_no_bus (hi : touches i = none) (he : exec i s = .next t) :
    t.fault = s.fault ∨ ∃ p, t.fault = some (.outputHigh p) ∧ WouldDriveHigh i s p := by
  cases i <;> obtain ⟨⟩ := hi
  case pinSetMode => exact exec_pinSetMode_fault he
  case pinWrite => exact exec_pinWrite_fault he
  case bcdEncode => rw [next_of_domain he]; exact .inl rfl
  case yearEncode => rw [next_of_domain he]; exact .inl rfl
  case segNumber => rw [next_of_domain he]; exact .inl rfl
  all_goals cases he; exact .inl rfl

/-! ## The statements -/

/-- Settles O11: the first step of a faulted run is its fault, whatever number of steps is asked for (R236). -/
theorem aFaultedRunIsQuiescent : Obligations.AFaultedRunIsQuiescent := by
  intro s f hf n
  have hstep : Sys2Proof.core.step s = .fault f := by
    show step s = .fault f
    simp [step, hf]
  simp only [Host.Core.run, hstep]

/-- Settles O12: the ownership check comes first, and the commands of no bus have a fault of another kind. -/
theorem overlapIsRaisedBeforeAnyLineAction : Obligations.OverlapIsRaisedBeforeAnyLineAction := by
  refine ⟨fun i s b hi hw hnone hother => ?_, fun i s t b c o hi he hf => ?_⟩
  · obtain ⟨p, hp⟩ := bodyOf_of_touches (c := s.cfg) hi
    rw [exec_bus hp hw, busCommand_of_not_mayUse (State.not_mayUse.2 ⟨hnone, hother⟩)]
    rfl
  · rcases exec_fault_of_no_bus hi he with h | ⟨p, h, -⟩
    · exact h.symm.trans hf
    · cases h.symm.trans hf

/-- A command legal in every phase never raises ProtocolMisuse (R239). -/
theorem exec_not_protocolMisuse {b' : Bus} (hi : touches i = some b) (hn : needOf i = .anyPhase)
    (he : exec i s = .next t) (hf : t.fault = some (.protocolMisuse b')) : s.fault = some (.protocolMisuse b') := by
  rcases exec_next he with ⟨b, p, hp, rfl⟩ | ⟨hnone, -⟩
  · by_cases hmay : s.mayUse b
    · rw [busCommand_of_met hmay (by rw [hn]; rfl)] at hf
      rcases run_fault (i := i) (s := s.setOwner b s.ctx.owner) (trail := []) (bodyOf_on hp) with h | ⟨h, -⟩
      · exact h.symm.trans hf
      · cases h.symm.trans hf
    · rw [busCommand_of_not_mayUse hmay] at hf
      cases hf
  · cases hi.symm.trans (touches_eq_none hnone)

/-- Settles O13: the phase precondition is tested after the ownership check and before the first micro-step. -/
theorem protocolMisuseIsRaisedBeforeAnyLineAction : Obligations.ProtocolMisuseIsRaisedBeforeAnyLineAction := by
  refine ⟨fun i s b hi hw hmay hunmet => ?_, fun i s t b b' hi he hf => ?_⟩
  · obtain ⟨p, hp⟩ := bodyOf_of_touches (c := s.cfg) hi
    rw [exec_bus hp hw, busCommand_of_unmet hmay (needOf_unmet.2 hunmet)]
    exact ⟨_, rfl, rfl, rfl, rfl, rfl, rfl, rfl, rfl, rfl⟩
  · rcases hi with rfl | ⟨ha, addr, rw, rfl⟩
    · exact exec_not_protocolMisuse rfl rfl he hf
    · exact exec_not_protocolMisuse rfl rfl he hf

/-- A command that has claimed its bus runs without a fault, unless it is a wait for a clock that the block drives. -/
theorem run_begun (hc : configWf s.cfg = true) (hw : s.pinsWf) (hp : bodyOf s.cfg i = some (b, p))
    (hi : i = .sclWaitHigh b → s.drivesLow b .scl = false) :
    ∃ m, Ran (s.setOwner b s.ctx.owner) m ∧ RunEnd i b m (run i b p [] (s.setOwner b s.ctx.owner)) :=
  run_clocked (s := s.setOwner b s.ctx.owner) hc hw (bodyOf_on hp)
    (bodyOf_clocked hp fun h => (Bool.not_eq_true' _).mpr (hi h))

/-- A bus command that begins raises Overlap, ProtocolMisuse or, where it waits for a clock the block drives,
SelfStall. -/
theorem busCommand_fault (hc : configWf s.cfg = true) (hw : s.pinsWf) (hp : bodyOf s.cfg i = some (b, p)) :
    (busCommand i b (needOf i) p s).fault = s.fault ∨
      (busCommand i b (needOf i) p s).fault = some (.overlap b s.ctx (s.owner.get b)) ∧ ¬ s.mayUse b ∨
      (busCommand i b (needOf i) p s).fault = some (.protocolMisuse b) ∧ (needOf i).met (s.phase.get b) = false ∨
      (busCommand i b (needOf i) p s).fault = some (.selfStall b) ∧ i = .sclWaitHigh b ∧ s.drivesLow b .scl = true := by
  by_cases hmay : s.mayUse b
  · cases hn : (needOf i).met (s.phase.get b) with
    | false =>
      rw [busCommand_of_unmet hmay hn]
      exact .inr (.inr (.inl ⟨rfl, rfl⟩))
    | true =>
      rw [busCommand_of_met hmay hn]
      by_cases hstall : i = .sclWaitHigh b ∧ s.drivesLow b .scl = true
      · exact (run_fault (bodyOf_on hp)).imp_right fun ⟨h, _⟩ => .inr (.inr ⟨h, hstall⟩)
      · obtain ⟨m, hran, hend⟩ := run_begun hc hw hp fun hi => by simpa [hi] using hstall
        obtain ⟨-, hfault, -⟩ := hran.host
        exact .inl (hend.fault_eq.trans hfault)
  · rw [busCommand_of_not_mayUse hmay]
    exact .inr (.inl ⟨rfl, hmay⟩)

/-- Settles O14: a command of no bus has the fault of its pin, a bus command those of its checks and its clock wait, and
what is left of a command only the last. -/
theorem faultsAriseOnlyAsTheirRulesSay : Obligations.FaultsAriseOnlyAsTheirRulesSay := by
  refine ⟨fun i s t f hc hw hfs he hf => ?_, fun j s f hfs hf => ?_⟩
  · rcases exec_next he with ⟨b, p, hp, rfl⟩ | ⟨hnone, -⟩
    · have hi := touches_of_bodyOf hp
      rcases busCommand_fault hc hw hp with h | ⟨h, hmay⟩ | ⟨h, hn⟩ | ⟨h, hstall⟩
      · cases hfs.symm.trans (h.symm.trans hf)
      · cases h.symm.trans hf
        obtain ⟨hown, hother⟩ := State.not_mayUse.1 hmay
        exact .inr (.inl ⟨b, rfl, hi, hown, hother⟩)
      · cases h.symm.trans hf
        exact .inr (.inr (.inl ⟨b, rfl, hi, needOf_unmet.1 hn⟩))
      · cases h.symm.trans hf
        exact .inr (.inr (.inr ⟨b, rfl, hstall⟩))
    · rcases exec_fault_of_no_bus (touches_eq_none hnone) he with h | ⟨p, h, hpin⟩
      · cases hfs.symm.trans (h.symm.trans hf)
      · cases h.symm.trans hf
        exact .inl ⟨p, rfl, hpin⟩
  · rcases resume_cases j s with ⟨b, p, hp, h⟩ | ⟨-, h⟩
    · rw [h] at hf ⊢
      rcases run_fault (i := j.instr) (s := s.clearJob) (trail := j.trail.reverse) ((bodyOf_on hp).after j.trail) with
        h | ⟨h, hd⟩
      · cases hfs.symm.trans (h.symm.trans hf)
      · cases h.symm.trans hf
        exact ⟨b, rfl, touches_of_bodyOf hp, hd⟩
    · rw [h] at hf
      cases hfs.symm.trans hf

/-- A bus that a context holds at a command's end stays its own exactly if its transaction is open (R31). -/
theorem State.owner_finish (h : s.owner.get b = s.ctx.owner) (r : Result) :
    (s.finish b r).owner.get b = .none ↔ (s.finish b r).phase.get b = .idle := by
  rw [State.finish_owner, State.finish_phase]
  by_cases hph : s.phase.get b = .idle
  · simp [hph]
  · simp [beq_false_of_ne hph, hph, h, Ctx.owner_ne_none]

/-- Settles O15: such a command runs, its run raises no fault, and nothing preempts it: so it returns or is held. -/
theorem aBegunCommandReturnsOrIsHeld : Obligations.ABegunCommandReturnsOrIsHeld := by
  intro i s t b hi hwf ⟨hc, hw, hmay, hu⟩ ht hidle hstall he
  obtain ⟨p, hp⟩ := bodyOf_of_touches (c := s.cfg) hi
  rw [exec_bus hp hwf, busCommand_of_met hmay (needOf_met ht hidle)] at he
  cases he
  obtain ⟨m, hran, hend⟩ := run_begun hc hw hp hstall
  have howner : m.owner.get b = m.ctx.owner := by
    rw [hran.owner, hran.host.ctx]
    exact PerBus.get_set_self ..
  have hreturned : m.returned = s.returned := hran.returned
  have hctx : m.ctx = s.ctx := hran.host.ctx
  have hm : m.unpreempted := hran.host.unpreempted hu
  obtain ⟨-, hfault, hrefusal, -, hrunning, hmain, hhandler, -⟩ := hran.host
  obtain ⟨es, hes⟩ := hran.trace
  generalize run i b p [] (s.setOwner b s.ctx.owner) = t at hend
  cases hend with
  | returned r =>
    exact ⟨hfault, hrefusal, es, hes, .inl ⟨r, congrArg₂ (fun c rs => (c, r) :: rs) hctx hreturned, hmain, hhandler,
      State.owner_finish (s := m.acknowledge i r) howner r⟩⟩
  | held trail =>
    refine ⟨hfault, hrefusal, es, hes, .inr ⟨trail, hreturned, hctx ▸ howner, ?_⟩⟩
    have hrunning : m.handlerRunning = s.handlerRunning := hrunning
    rw [← hrunning]
    exact State.job_suspend m _
  | preempted trail hf =>
    rw [State.fires_of_unpreempted hm] at hf
    cases hf

end Sys2Proof.Machine
end

section
/-! SUPPORT. The notification (60_exceptions.md section 3): while HANDLER runs MAIN's side stands still, HANDLER starts
only where the notification fires, and a raised notification ceases only with an acknowledgment that returns 1 (R244,
R245). -/

namespace Sys2Proof.Machine

variable {s t u m : State} {b : Bus} {i : Instr} {p : Prog} {trail : List Bool}

/-! ## While HANDLER runs (R30, R245) -/

/-- HANDLER runs on, and MAIN's side and the later activations stand in `t` as in `s`. -/
structure MainStands (s t : State) : Prop where
  running : t.handlerRunning = true
  mainJob : t.mainJob = s.mainJob
  mainTodo : t.mainTodo = s.mainTodo
  activations : t.activations = s.activations
  masked : t.masked = s.masked

theorem MainStands.of_sameHost (h : SameHost s t) (hr : s.handlerRunning = true) : MainStands s t := by
  obtain ⟨-, -, -, hmasked, hrunning, hmain, -, htodo, -, hactivations⟩ := h
  exact ⟨hrunning.trans hr, hmain, htodo, hactivations, hmasked⟩

theorem MainStands.trans (h : MainStands s t) (h' : MainStands t u) : MainStands s u :=
  ⟨h'.running, h'.mainJob.trans h.mainJob, h'.mainTodo.trans h.mainTodo, h'.activations.trans h.activations,
    h'.masked.trans h.masked⟩

/-- HANDLER's command is HANDLER's own where it stops, and nothing preempts it. -/
theorem RunEnd.mainStands (h : RunEnd i b m t) (hr : m.handlerRunning = true) : MainStands m t := by
  cases h with
  | returned r => exact ⟨hr, rfl, rfl, rfl, rfl⟩
  | held trail => exact ⟨hr, by simp [hr], rfl, rfl, rfl⟩
  | preempted trail hf =>
    rw [State.fires_of_unpreempted (.inr hr)] at hf
    cases hf

theorem run_mainStands (hp : p.On b) (hr : s.handlerRunning = true) : MainStands s (run i b p trail s) := by
  obtain ⟨m, hran, hend⟩ := run_ran (i := i) (s := s) (trail := trail) hp
  have hm := MainStands.of_sameHost hran.host hr
  rcases hend with hend | ⟨-, hrun⟩
  · exact hm.trans (hend.mainStands hm.running)
  · rw [hrun]
    exact hm.trans ⟨hm.running, rfl, rfl, rfl, rfl⟩

theorem exec_mainStands (hr : s.handlerRunning = true) (he : exec i s = .next t) : MainStands s t := by
  rcases exec_next he with ⟨b, p, hp, rfl⟩ | ⟨-, hl⟩
  · rcases busCommand_cases i b (needOf i) p s with ⟨f, h⟩ | ⟨-, h | ⟨f, h⟩⟩ <;> rw [h]
    · exact ⟨hr, rfl, rfl, rfl, rfl⟩
    · exact MainStands.trans (t := s.setOwner b s.ctx.owner) ⟨hr, rfl, rfl, rfl, rfl⟩ (run_mainStands (bodyOf_on hp) hr)
    · exact ⟨hr, rfl, rfl, rfl, rfl⟩
  · rcases hl.sameBuses with ⟨-, -, h⟩ | ⟨f, rfl⟩
    · exact .of_sameHost h hr
    · exact ⟨hr, rfl, rfl, rfl, rfl⟩

theorem resume_mainStands (j : Job) (hr : s.handlerRunning = true) : MainStands s (resume j s) := by
  have hclear : MainStands s s.clearJob := ⟨hr, by simp [hr], rfl, rfl, rfl⟩
  rcases resume_cases j s with ⟨b, p, hp, h⟩ | ⟨-, h⟩ <;> rw [h]
  · exact hclear.trans (run_mainStands ((bodyOf_on hp).after j.trail) hr)
  · exact hclear

/-- HANDLER's step goes on with a command or issues one, and HANDLER runs on, or is HANDLER's end. -/
theorem step_handler (hr : s.handlerRunning = true) (hstep : step s = .next t) :
    MainStands s t ∧ ¬ (s.handlerJob = none ∧ s.handlerTodo = []) ∨
      (s.handlerJob = none ∧ s.handlerTodo = []) ∧ t = s.envMove.endHandler := by
  obtain ⟨-, ⟨-, hnext⟩ | ⟨hno, -⟩ | ⟨hno, -⟩⟩ := step_next hstep
  · cases hnext with
    | job j hj =>
      refine .inl ⟨MainStands.trans (t := s.envMove) ⟨hr, rfl, rfl, rfl, rfl⟩ (resume_mainStands j hr),
        fun ⟨hnone, _⟩ => ?_⟩
      cases hnone.symm.trans hj
    | command w ws i _ _ ht _ he =>
      refine .inl ⟨MainStands.trans (t := { s.envMove with handlerTodo := ws }) ⟨hr, rfl, rfl, rfl, rfl⟩
        (exec_mainStands hr he), fun ⟨_, hnil⟩ => ?_⟩
      cases hnil.symm.trans ht
    | done hj ht => exact .inr ⟨⟨hj, ht⟩, rfl⟩
  · cases hno.symm.trans hr
  · cases hno.symm.trans hr

/-- Settles O58: either MAIN's side stands still and HANDLER runs on, or HANDLER has nothing left and ends. -/
theorem handlerRunsToItsEndAndMainStandsStill : Obligations.HandlerRunsToItsEndAndMainStandsStill := by
  intro s t hr hstep
  rcases step_handler hr hstep with ⟨h, hmore⟩ | ⟨hdone, rfl⟩
  · refine ⟨h.mainJob, h.mainTodo, h.activations, h.masked, fun hstop => ?_, fun hdone => absurd hdone hmore⟩
    cases h.running.symm.trans hstop
  · exact ⟨rfl, rfl, rfl, rfl, fun _ => hdone, fun _ => rfl⟩

/-! ## Where HANDLER starts (R244, R245) -/

theorem State.fires_iff : s.fires = true ↔
    s.masked = false ∧ s.handlerRunning = false ∧ s.pending = true ∧ s.env.now.fire = true := by
  simp [State.fires, and_assoc]

theorem State.not_handlerRunning_of_fires (h : s.envMove.fires = true) : s.handlerRunning = false := by
  obtain ⟨-, hr, -⟩ := State.fires_iff.1 h
  exact hr

/-- From `s` to `t` HANDLER has started: the notification was pending and not masked, and HANDLER has its commands. -/
structure HandlerStarted (s t : State) : Prop where
  unmasked : s.masked = false
  masked : t.masked = false
  pending : t.pending = true
  todo : t.handlerTodo = s.activations.headD []
  activations : t.activations = s.activations.tail
  returned : t.returned = s.returned

/-- HANDLER starts where the notification fires. -/
theorem HandlerStarted.of_fires (hf : s.fires = true) : HandlerStarted s s.startHandler := by
  obtain ⟨hmasked, -, hpending, -⟩ := State.fires_iff.1 hf
  exact ⟨hmasked, hmasked, hpending, rfl, rfl, rfl⟩

/-- Of the state HANDLER starts from, the mask, the later activations and the results alone matter. -/
theorem HandlerStarted.congr (h : HandlerStarted m t) (hm : m.masked = s.masked) (ha : m.activations = s.activations)
    (hr : m.returned = s.returned) : HandlerStarted s t :=
  ⟨hm ▸ h.unmasked, h.masked, h.pending, ha ▸ h.todo, ha ▸ h.activations, hr ▸ h.returned⟩

/-- A run of MAIN's command after which HANDLER runs was preempted. -/
theorem run_handlerStarted (hp : p.On b) (hr : s.handlerRunning = false)
    (ht : (run i b p trail s).handlerRunning = true) : HandlerStarted s (run i b p trail s) := by
  obtain ⟨m, hran, hend⟩ := run_ran (i := i) (s := s) (trail := trail) hp
  have hreturned := hran.returned
  obtain ⟨-, -, -, hmasked, hrunning, -, -, -, -, hactivations⟩ := hran.host
  have hm : m.handlerRunning = false := hrunning.trans hr
  rcases hend with hend | ⟨-, hrun⟩
  · generalize run i b p trail s = t at hend ht
    cases hend with
    | returned r => cases hm.symm.trans ht
    | held trail => cases hm.symm.trans ht
    | preempted trail hf =>
      exact (HandlerStarted.of_fires (s := m.suspend { instr := i, trail := trail }) hf).congr hmasked hactivations
        hreturned
  · rw [hrun] at ht
    cases hm.symm.trans ht

theorem exec_handlerStarted (hr : s.handlerRunning = false) (he : exec i s = .next t) (ht : t.handlerRunning = true) :
    HandlerStarted s t := by
  rcases exec_next he with ⟨b, p, hp, rfl⟩ | ⟨-, hl⟩
  · rcases busCommand_cases i b (needOf i) p s with ⟨f, h⟩ | ⟨-, h | ⟨f, h⟩⟩ <;> rw [h] at ht ⊢
    · cases hr.symm.trans ht
    · exact (run_handlerStarted (s := s.setOwner b s.ctx.owner) (bodyOf_on hp) hr ht).congr rfl rfl rfl
    · cases hr.symm.trans ht
  · rcases hl.sameBuses with ⟨-, -, -, -, -, -, hrunning, -⟩ | ⟨f, rfl⟩
    · cases (hrunning.trans hr).symm.trans ht
    · cases hr.symm.trans ht

theorem resume_handlerStarted {j : Job} (hr : s.handlerRunning = false) (ht : (resume j s).handlerRunning = true) :
    HandlerStarted s (resume j s) := by
  rcases resume_cases j s with ⟨b, p, hp, h⟩ | ⟨-, h⟩ <;> rw [h] at ht ⊢
  · exact (run_handlerStarted (s := s.clearJob) ((bodyOf_on hp).after j.trail) hr ht).congr rfl rfl rfl
  · cases hr.symm.trans ht

/-- A step that starts HANDLER is the notification's entry between two commands of MAIN or within one (R245). -/
theorem step_handlerStarted (hstep : step s = .next t) (hr : s.handlerRunning = false) (ht : t.handlerRunning = true) :
    HandlerStarted s t := by
  obtain ⟨-, ⟨hno, -⟩ | ⟨-, hf, rfl⟩ | ⟨-, -, hnext⟩⟩ := step_next hstep
  · cases hr.symm.trans hno
  · exact (HandlerStarted.of_fires hf).congr rfl rfl rfl
  · cases hnext with
    | job j hj => exact (resume_handlerStarted (s := s.envMove) hr ht).congr rfl rfl rfl
    | command w rest i _ _ _ _ he =>
      exact (exec_handlerStarted (s := { s.envMove with mainTodo := rest }) hr he ht).congr rfl rfl rfl
    | mask v rest => cases hr.symm.trans ht
    | nothing => cases hr.symm.trans ht

/-! ## When a raised notification ceases (R190, R191, R240, R245) -/

/-- From `s` to `t` command `i`, which acknowledges the notification, has returned 1. -/
def Acknowledged (i : Instr) (s t : State) : Prop :=
  (i = .rtcAckAlarm ∨ i = .rtcArmAlarm) ∧ t.returned = (s.ctx, .ok true) :: s.returned

theorem clearsPending_eq_true {r : Result} (h : clearsPending i r = true) :
    (i = .rtcAckAlarm ∨ i = .rtcArmAlarm) ∧ r = .ok true := by
  unfold clearsPending at h
  split at h
  · exact ⟨.inl rfl, rfl⟩
  · exact ⟨.inr rfl, rfl⟩
  · cases h

theorem State.raised_finish (h : s.raised) {r : Result} (hr : clearsPending i r = false) :
    ((s.acknowledge i r).finish b r).raised := by
  rw [State.raised_iff] at *
  refine ⟨h.1, ?_⟩
  rw [State.finish_env, State.acknowledge_pending, hr, h.2]
  rfl

/-- A run leaves a raised notification raised or has acknowledged it. -/
theorem run_raised_or_acknowledged (hp : p.On b) (h : s.raised) :
    (run i b p trail s).raised ∨ Acknowledged i s (run i b p trail s) := by
  obtain ⟨m, hran, hend⟩ := run_ran (i := i) (s := s) (trail := trail) hp
  have hm := hran.raised h
  rcases hend with hend | ⟨-, hrun⟩
  · generalize run i b p trail s = t at hend
    cases hend with
    | returned r =>
      cases hr : clearsPending i r with
      | false => exact .inl (State.raised_finish hm hr)
      | true =>
        obtain ⟨hi, rfl⟩ := clearsPending_eq_true hr
        exact .inr ⟨hi, congrArg₂ (fun c rs => (c, Result.ok true) :: rs) hran.host.ctx hran.returned⟩
    | held trail => exact .inl (State.raised_congr rfl hm)
    | preempted trail hf => exact .inl (State.raised_congr rfl hm)
  · rw [hrun]
    exact .inl (State.raised_congr rfl hm)

theorem State.raised_setMode (h : s.raised) (p : Byte) (v : Bool) : (s.setMode p v).raised := by
  rcases State.setMode_cases p v s with hs | ⟨hs, -⟩ | ⟨b, l, hs⟩ <;> rw [hs]
  · exact State.raised_congr rfl h
  · exact h
  · exact State.raised_observe (s := (s.setPin p { s.pin p with mode := modeOf v }).record (modeEvent b l v))
      (State.raised_congr rfl h) b

theorem exec_raised_or_acknowledged (h : s.raised) (he : exec i s = .next t) : t.raised ∨ Acknowledged i s t := by
  rcases exec_next he with ⟨b, p, hp, rfl⟩ | ⟨-, hl⟩
  · rcases busCommand_cases i b (needOf i) p s with ⟨f, hc⟩ | ⟨-, hc | ⟨f, hc⟩⟩ <;> rw [hc]
    · exact .inl (State.raised_congr rfl h)
    · exact run_raised_or_acknowledged (s := s.setOwner b s.ctx.owner) (bodyOf_on hp) (State.raised_congr rfl h)
    · exact .inl (State.raised_congr rfl h)
  · refine .inl ?_
    cases hl with
    | setMode p v => exact State.raised_congr rfl (State.raised_setMode h p v)
    | give | raise | write => exact State.raised_congr rfl h

theorem resume_raised_or_acknowledged (j : Job) (h : s.raised) :
    (resume j s).raised ∨ Acknowledged j.instr s (resume j s) := by
  rcases resume_cases j s with ⟨b, p, hp, hr⟩ | ⟨-, hr⟩ <;> rw [hr]
  · exact run_raised_or_acknowledged (s := s.clearJob) ((bodyOf_on hp).after j.trail) (State.raised_congr rfl h)
  · exact .inl (State.raised_congr rfl h)

/-- A step leaves a raised notification raised or ends in a command that has acknowledged it. -/
theorem step_raised_or_acknowledged (h : s.raised) (hstep : step s = .next t) : t.raised ∨ ∃ i, Acknowledged i s t := by
  have hm := State.raised_envMove h
  obtain ⟨-, ⟨-, hnext⟩ | ⟨-, -, rfl⟩ | ⟨-, -, hnext⟩⟩ := step_next hstep
  · cases hnext with
    | job j _ => exact (resume_raised_or_acknowledged j hm).imp_right fun h => ⟨j.instr, h⟩
    | command w ws i _ _ _ _ he =>
      exact (exec_raised_or_acknowledged (s := { s.envMove with handlerTodo := ws }) (State.raised_congr rfl hm) he).imp
        id fun h => ⟨i, h⟩
    | done => exact .inl (State.raised_congr rfl hm)
  · exact .inl (State.raised_congr rfl hm)
  · cases hnext with
    | job j _ => exact (resume_raised_or_acknowledged j hm).imp_right fun h => ⟨j.instr, h⟩
    | command w rest i _ _ _ _ he =>
      exact (exec_raised_or_acknowledged (s := { s.envMove with mainTodo := rest }) (State.raised_congr rfl hm) he).imp
        id fun h => ⟨i, h⟩
    | mask => exact .inl (State.raised_congr rfl hm)
    | nothing => exact .inl hm

/-- Settles O56: HANDLER starts where the notification fires, and a raised notification outlasts all but an
acknowledgment that returns 1. -/
theorem theNotificationFiresOnlyWhenAllowed : Obligations.TheNotificationFiresOnlyWhenAllowed := by
  refine ⟨fun s t hstep hr ht => ?_, fun i s t hrtc hp hack harm he => ?_, fun j s hrtc hp hack harm => ?_,
    fun s t hrtc hp hstep ht => ?_⟩
  · have h := step_handlerStarted hstep hr ht
    exact ⟨h.unmasked, h.masked, h.pending, h.todo, h.activations, h.returned⟩
  · obtain ⟨-, h⟩ | ⟨hi, -⟩ := exec_raised_or_acknowledged ⟨hrtc, hp⟩ he
    · exact h
    · exact absurd hi (not_or.2 ⟨hack, harm⟩)
  · obtain ⟨-, h⟩ | ⟨hi, -⟩ := resume_raised_or_acknowledged j ⟨hrtc, hp⟩
    · exact h
    · exact absurd hi (not_or.2 ⟨hack, harm⟩)
  · obtain ⟨-, h⟩ | ⟨i, -, h⟩ := step_raised_or_acknowledged ⟨hrtc, hp⟩ hstep
    · cases ht.symm.trans h
    · exact h

end Sys2Proof.Machine
end

section
/-! SUPPORT. A preempted command (10_state.md R37, 60_exceptions.md R245): one that the notification preempts before its
first micro-step stands at its start, one in progress goes on with the rest of its sequence, and BUS_STOP, whose
sequence is a list of micro-steps, has done those before its position and goes on with the others. -/

namespace Sys2Proof.Machine

variable {s : State} {b : Bus} {i : Instr} {p : Prog} {trail : List Bool} {c : Config} {acts : List Act} {k : Nat}

/-! ## Before the first micro-step -/

/-- The sequence opens with a micro-step. -/
def Prog.opens : Prog → Bool
  | .act .. | .sample .. => true
  | .ret _ | .ifIdle .. => false

/-- Every command opens with a micro-step, but for a test of the phase before it (log entry 13). -/
theorem bodyOf_opens {ph : Phase} (hb : bodyOf c i = some (b, p)) : (p.after (startTrail ph p)).opens = true := by
  cases i <;> obtain ⟨⟩ := hb <;> cases ph <;> rfl

/-- The notification that fires before a micro-step preempts the run there (R245). -/
theorem run_fires (hp : p.opens = true) (hf : s.envMove.fires = true) : run i b p trail s =
    (s.envMove.suspend { instr := i, trail := trail.reverse }).startHandler := by
  cases p with
  | ret | ifIdle => cases hp
  | act | sample => simp [run, hf]

/-- To run a sequence from its start is to run it after its test of the phase (R37, R131). -/
theorem run_startTrail {ph : Phase} (hp : p.On b) (hph : s.phase.get b = ph) :
    run i b (p.after (startTrail ph p)) (startTrail ph p).reverse s = run i b p [] s := by
  subst hph
  cases p with
  | ifIdle b' k =>
    obtain rfl : b' = b := hp.1
    cases h : k (s.phase.get b' == .idle) <;> simp [startTrail, Prog.after, run, h]
  | ret | act | sample => rfl

/-- MAIN issues while HANDLER does not run (R30, R245). -/
theorem State.ctx_owner_of_main (h : s.handlerRunning = false) : s.ctx.owner = .main := by
  simp [State.ctx, h, Ctx.owner]

/-- A command that may begin and is preempted at once has claimed its bus and stands at its start (R31, R37, R245). -/
theorem exec_fires (hb : bodyOf s.cfg i = some (b, p)) (hi : i.wellFormed = true) (hmay : s.mayUse b)
    (ht : needsTransaction i = true → s.phase.get b ≠ .idle) (hidle : needsIdle i = true → s.phase.get b = .idle)
    (hf : s.envMove.fires = true) : exec i s = .next
      ((s.setOwner b .main).envMove.suspend { instr := i, trail := startTrail (s.phase.get b) p }).startHandler := by
  have hctx : s.ctx.owner = .main := State.ctx_owner_of_main (State.not_handlerRunning_of_fires hf)
  rw [exec_bus hb hi, busCommand_of_met hmay (needOf_met ht hidle), hctx,
    ← run_startTrail (s := s.setOwner b .main) (ph := s.phase.get b) (bodyOf_on hb) rfl,
    run_fires (s := s.setOwner b .main) (bodyOf_opens hb) hf, List.reverse_reverse]

/-! ## Going on with a command in progress (R37) -/

theorem resume_of_bodyOf {j : Job} (hb : bodyOf s.cfg j.instr = some (b, p)) :
    resume j s = run j.instr b (p.after j.trail) j.trail.reverse s.clearJob := by
  simp [resume, hb]

theorem mainStep_of_job {j : Job} (hr : s.handlerRunning = false) (hj : s.mainJob = some j)
    (hb : bodyOf s.cfg j.instr = some (b, p)) :
    mainStep s = .next (run j.instr b (p.after j.trail) j.trail.reverse { s with mainJob := none }) := by
  have hclear : s.clearJob = { s with mainJob := none } := by simp [State.clearJob, hr]
  rw [← hclear, ← resume_of_bodyOf hb]
  simp [mainStep, hj]

theorem handlerStep_of_job {j : Job} (hr : s.handlerRunning = true) (hj : s.handlerJob = some j)
    (hb : bodyOf s.cfg j.instr = some (b, p)) :
    handlerStep s = .next (run j.instr b (p.after j.trail) j.trail.reverse { s with handlerJob := none }) := by
  have hclear : s.clearJob = { s with handlerJob := none } := by simp [State.clearJob, hr]
  rw [← hclear, ← resume_of_bodyOf hb]
  simp [handlerStep, hj]

/-! ## A sequence that is a list of micro-steps -/

/-- The first micro-steps of a well-behaved list are well-behaved. -/
theorem fine_take {n : Nat} {x y : Bool} {r r' : Result} (h : (acts.foldr Prog.act (.ret r)).Fine b n x y) :
    ((acts.take k).foldr Prog.act (.ret r')).Fine b n x y := by
  induction acts generalizing k n x y with
  | nil => rw [List.take_nil]; trivial
  | cons a acts ih =>
    cases k with
    | zero => trivial
    | succ k =>
      cases n with
      | zero => exact h.elim
      | succ n => exact ⟨h.1, h.2.1, ih h.2.2⟩

/-- The position after `k` micro-steps of a list is the rest of the list. -/
theorem foldr_act_after {r : Result} : (acts.foldr Prog.act (.ret r)).after (List.replicate k true) =
    (acts.drop k).foldr Prog.act (.ret r) := by
  induction acts generalizing k with
  | nil => cases k <;> rfl
  | cons a acts ih =>
    cases k with
    | zero => rfl
    | succ k => exact ih

theorem foldr_act_play {r : Result} {ph : Phase} {look : Nat → Bool} : (acts.foldr Prog.act (.ret r)).play ph look =
    { events := acts.flatMap Act.events, phase := acts.foldl Act.phaseAfter ph, result := r } := by
  induction acts generalizing ph look with
  | nil => rfl
  | cons a acts ih => exact congrArg (Course.after a.events) ih

/-! ## The positions of BUS_STOP (R136) -/

/-- The micro-steps of BUS_STOP (R136). -/
def stopActs (c : Config) (b : Bus) : List Act :=
  [.driveLow b .sda, dly c, .release b .scl, .waitHigh b, dly c, .release b .sda, .delay c.tSettle, .phase b .idle]

theorem busStopBody_eq_foldr (c : Config) (b : Bus) :
    busStopBody c b = (stopActs c b).foldr Prog.act (.ret .nothing) := rfl

/-- Before micro-step `k` the first `k` are done, and at least one is to come. -/
theorem busStopBody_eq_take (hk : k ≤ 7) :
    ∃ a rest, busStopBody c b = ((stopActs c b).take k).foldr Prog.act (.act a rest) := by
  cases hd : (stopActs c b).drop k with
  | nil =>
    have hlen := List.drop_eq_nil_iff.1 hd
    simp only [stopActs, List.length_cons, List.length_nil] at hlen
    omega
  | cons a acts =>
    refine ⟨a, acts.foldr Prog.act (.ret .nothing), ?_⟩
    calc busStopBody c b
      _ = ((stopActs c b).take k ++ (stopActs c b).drop k).foldr Prog.act (.ret .nothing) := by
        rw [List.take_append_drop, busStopBody_eq_foldr]
      _ = ((stopActs c b).take k).foldr Prog.act ((a :: acts).foldr Prog.act (.ret .nothing)) := by
        rw [List.foldr_append, hd]

theorem stopActs_take_length (hk : k ≤ 7) : ((stopActs c b).take k).length = k :=
  List.length_take_of_le (hk.trans (Nat.le_succ 7))

/-- Each of BUS_STOP's micro-steps but the last records one event, and the last sets the phase. -/
theorem stopActs_take (hk : k ≤ 7) (ph : Phase) :
    ((stopActs c b).take k).flatMap Act.events = (stopEvents b c.tHalf c.tSettle).take k ∧
      ((stopActs c b).take k).foldl Act.phaseAfter ph = ph := by
  interval_cases k <;> exact ⟨rfl, rfl⟩

theorem stopActs_drop (hk : k ≤ 7) (ph : Phase) :
    ((stopActs c b).drop k).flatMap Act.events = (stopEvents b c.tHalf c.tSettle).drop k ∧
      ((stopActs c b).drop k).foldl Act.phaseAfter ph = .idle := by
  interval_cases k <;> exact ⟨rfl, rfl⟩

/-- BUS_STOP waits for the clock at its fourth micro-step alone. -/
theorem eq_three_of_stopActs {j : Nat} (h : (stopActs c b)[j]? = some (.waitHigh b)) : j = 3 := by
  rcases j with _ | _ | _ | _ | _ | _ | _ | _ | j <;> simp [stopActs, dly] at h ⊢

/-- What is left of BUS_STOP waits for a clock it has released, or releases it first. -/
theorem stopActs_drop_fine (hk : k ≤ 7) :
    (((stopActs c b).drop k).foldr Prog.act (.ret .nothing)).Fine b 8 (decide (3 ≤ k)) false := by
  interval_cases k <;> simp [stopActs, dly, Prog.Fine, Act.on, Act.freeAfter]

/-- BUS_STOP preempted before micro-step `k` has done its first `k` micro-steps (R37, R136, R245). -/
theorem exec_busStop_preempted (hk : k ≤ 7) (hc : configWf s.cfg = true) (hw : s.pinsWf) (hmay : s.mayUse b)
    (hph : s.phase.get b ≠ .idle) (hm : s.masked = false) (hr : s.handlerRunning = false) (hraised : s.raised)
    (hfree : 3 < k → s.sclFree b 3 = true) (hquiet : ∀ j < k, (s.env.moveAt j).fire = false)
    (hfire : (s.env.moveAt k).fire = true) :
    ∃ m, Moved (s.setOwner b .main) m b ((stopEvents b s.cfg.tHalf s.cfg.tSettle).take k) (s.phase.get b) ∧
      m.owner = s.owner.set b .main ∧ m.returned = s.returned ∧
      exec (.busStop b) s =
        .next (m.suspend { instr := .busStop b, trail := List.replicate k true }).startHandler := by
  have hctx : s.ctx.owner = .main := State.ctx_owner_of_main hr
  have hlen : ((stopActs s.cfg b).take k).length = k := stopActs_take_length hk
  have hfine : (((stopActs s.cfg b).take k).foldr Prog.act (.ret .nothing)).Fine b 8 false false :=
    fine_take (r := .nothing) (stopSeq_fine (n := 0) ret_fine)
  have hclock : ∀ j, ((stopActs s.cfg b).take k)[j]? = some (.waitHigh b) → s.sclFree b j = true := by
    intro j hj
    rw [List.getElem?_take] at hj
    split_ifs at hj with hlt
    obtain rfl := eq_three_of_stopActs hj
    exact hfree hlt
  obtain ⟨a, rest, hbody⟩ := busStopBody_eq_take (c := s.cfg) (b := b) hk
  obtain ⟨hevents, hphase⟩ := stopActs_take (c := s.cfg) (b := b) hk (s.phase.get b)
  obtain ⟨m, hmoved, howner, hreturned, hrun⟩ := run_preempted (i := .busStop b) (s := s.setOwner b .main) (a := a)
    (rest := rest) (trail := []) hfine hc hw hm hr (State.raised_congr rfl hraised) nofun hclock
    (hlen.symm ▸ hquiet) (hlen.symm ▸ hfire)
  rw [hlen, ← hbody] at hrun
  refine ⟨m, ?_, howner, hreturned, ?_⟩
  · rwa [hevents, State.setOwner_phase, hphase] at hmoved
  · have hmet : (needOf (.busStop b)).met (s.phase.get b) = true := needOf_met (fun _ => hph) nofun
    rw [exec_bus (i := .busStop b) rfl rfl, busCommand_of_met hmay hmet, hctx, hrun]
    rfl

/-- BUS_STOP gone on with from before micro-step `k` does the micro-steps from there (R37, R136). -/
theorem resume_busStop_position (hk : k ≤ 7) (hready : s.ready b) (hown : s.owner.get b = s.ctx.owner)
    (hscl : 3 ≤ k → s.drivesLow b .scl = false) :
    Completed s.clearJob (resume { instr := .busStop b, trail := List.replicate k true } s) b
      ((stopEvents b s.cfg.tHalf s.cfg.tSettle).drop k) .idle .nothing := by
  obtain ⟨⟨hc, hw, -, hu⟩, -, hfree⟩ := hready
  obtain ⟨look, -, hplayed⟩ := run_calm (i := .busStop b) (s := s.clearJob) (trail := (List.replicate k true).reverse)
    (stopActs_drop_fine (c := s.cfg) hk) hc hw hu (fun _ j hj => hfree j (hj.trans (by decide)))
    (fun h => hscl (of_decide_eq_true h)) nofun
  obtain ⟨hevents, hphase⟩ := stopActs_drop (c := s.cfg) (b := b) hk (s.clearJob.phase.get b)
  rw [foldr_act_play, hevents, hphase] at hplayed
  rw [resume_of_bodyOf (j := { instr := .busStop b, trail := List.replicate k true }) (p := busStopBody s.cfg b) rfl,
    busStopBody_eq_foldr, foldr_act_after]
  exact hplayed.completed hown

/-- Settles O57: what stands in progress is a position in the command's sequence and nothing else. -/
theorem theNotificationsEntrySavesNothing : Obligations.TheNotificationsEntrySavesNothing := by
  refine ⟨fun i s b p hb hi hmay ht hidle hf => ⟨?_, fun u hu => run_startTrail (bodyOf_on hb) hu⟩,
    fun s j b p hb hfault => ⟨fun hr hf hj => ?_, fun hr hj => ?_⟩,
    fun s b k hk hc hw hmay hph hm hr hrtc hp hfree hquiet hfire => ?_, fun s b k hk hready hown _ hscl => ?_⟩
  · have hrunning : s.handlerRunning = false := State.not_handlerRunning_of_fires hf
    exact ⟨_, exec_fires hb hi hmay ht hidle hf, by simp [hrunning], rfl, rfl, rfl, rfl, rfl, rfl, rfl, rfl, rfl, rfl⟩
  · rw [step_of_not_fires hfault hr hf]
    exact mainStep_of_job (s := s.envMove) hr hj hb
  · rw [step_of_handlerRunning hfault hr]
    exact handlerStep_of_job (s := s.envMove) hr hj hb
  · obtain ⟨m, hmoved, howner, hreturned, he⟩ :=
      exec_busStop_preempted hk hc hw hmay hph hm hr ⟨hrtc, hp⟩ hfree hquiet hfire
    obtain ⟨-, -, -, -, hrunning, -⟩ := hmoved.host
    have hrunning : m.handlerRunning = false := hrunning.trans hr
    exact ⟨_, he, by simp [hrunning], rfl, hmoved.trace_eq, hmoved.phase.trans (PerBus.set_get_self _ _), howner,
      hreturned⟩
  · exact resume_busStop_position hk hready hown hscl

end Sys2Proof.Machine
end

section
/-! SUPPORT. The delays of the register framing and of a display refresh (70_reset_and_hazards.md R277): each part of a
transaction by its own count (`Counts`, R276), and a burst by 18 delays for each byte. Then the invariant at reset
(R260). -/

namespace Sys2Proof.Machine

variable {b : Bus} {c : Config} {data : List Byte} {evs : List Event} {ph : Phase}

/-! ## The delays of a transaction's parts -/

theorem delays_append (es es' : List Event) : delays (es ++ es') = delays es + delays es' := List.countP_append

theorem delays_write (t : Nat) (x : Byte) (a : Bool) : delays (writeEvents b t x a) = 18 := (counts_write t x a).2

theorem delays_stop (t settle : Nat) : delays (stopEvents b t settle) = 3 := (counts_stop t settle).2

/-- A start from IDLE has one delay, a repeated start two more (R131). -/
theorem delays_start (t : Nat) (idle : Bool) : delays (startEvents b t idle) = if idle then 1 else 3 := by
  cases idle <;> rfl

theorem delays_addressedStart (idle rw a : Bool) :
    delays (addressedStartEvents b c idle rw a) = (if idle then 1 else 3) + 18 := by
  rw [addressedStartEvents, delays_append, delays_start, (counts_xferOut _ _ _).2]

theorem delays_burst (t : Nat) (xs : List (Byte × Bool)) : delays (burstEvents b t xs) = 18 * xs.length := by
  induction xs with
  | nil => rfl
  | cons e xs ih =>
    calc delays (burstEvents b t (e :: xs))
      _ = delays (writeEvents b t e.1 e.2) + delays (burstEvents b t xs) := delays_append _ _
      _ = 18 * (e :: xs).length := by rw [delays_write, ih, List.length_cons]; omega

/-- Each byte of a burst has its acknowledgment. -/
theorem delays_burst_zip (t : Nat) {xs : List Byte} {acks : List Bool} (h : acks.length = xs.length) :
    delays (burstEvents b t (xs.zip acks)) = 18 * xs.length := by
  rw [delays_burst, List.length_zip, h, Nat.min_self]

/-- A byte of eight samples and its acknowledgment (R135). -/
theorem delays_read (t : Nat) {ss : List Bool} (last : Bool) (h : ss.length = 8) :
    delays (readEvents b t ss last) = 18 := by
  rw [readEvents, delays_append, (Counts.flatMap (counts_rbit t) ss).2, h, (counts_wbit t last).2]

theorem delays_readBurst (t : Nat) {sss : List (List Bool)} (h : ∀ ss ∈ sss, ss.length = 8) :
    delays (readBurstEvents b t sss) = 18 * sss.length := by
  induction sss with
  | nil => rfl
  | cons ss sss ih =>
    obtain ⟨hss, hrest⟩ := List.forall_mem_cons.1 h
    rw [readBurstEvents, delays_append, delays_read t _ hss, ih hrest, List.length_cons]
    omega

/-! ## The register framing (R180, R181) -/

/-- A write that runs to its end: start with address, register number and data, stop. -/
theorem WriteRegsRun.delays_eq {reg : Byte} (h : WriteRegsRun c reg data evs ph true) :
    delays evs = 40 + 18 * data.length := by
  rcases h with ⟨-, -, hok⟩ | ⟨acks, hacks, rfl, -, -⟩
  · cases hok
  · simp only [delays_append, delays_addressedStart, delays_burst_zip _ (xs := reg :: data) hacks, delays_stop,
      List.length_cons, if_true]
    omega

/-- A read that runs to its end: start with address, register number, repeated start with address, one byte for each
register, stop. -/
theorem ReadRegsRun.delays_eq {reg : Byte} {n : Nat} (h : ReadRegsRun c reg n evs ph (some data)) :
    delays evs = 61 + 18 * n ∧ data.length = n := by
  rcases h with ⟨-, -, hd⟩ | ⟨_, -, -, hd⟩ | ⟨a, sss, hn, hsamples, rfl, -, hd⟩
  · cases hd
  · cases hd
  · cases hd
    refine ⟨?_, (List.length_map _).trans hn⟩
    simp only [delays_append, delays_addressedStart, delays_write, delays_readBurst _ hsamples, delays_stop, hn,
      if_true, Bool.false_eq_true, if_false]
    omega

/-! ## A display refresh (R214) -/

theorem delays_dispTransaction {xs : List Byte} {acks : List Bool} (h : acks.length = xs.length) :
    delays (dispEvents c (xs.zip acks)) = 4 + 18 * xs.length := by
  simp only [dispEvents, delays_append, delays_start, delays_burst_zip _ h, delays_stop, if_true]
  omega

/-- Settles O52: a transaction's delays are those of its parts, and a refresh is three transactions of seven bytes. -/
theorem adapterOperationsCountTheirDelays : Obligations.AdapterOperationsCountTheirDelays := by
  refine fun c => ⟨fun _ _ _ _ h => h.delays_eq, fun _ _ _ _ _ h => h.delays_eq,
    fun s s0 s1 s2 s3 br hready hph => ?_⟩
  obtain ⟨t, a1, a2, a3, he, h1, h2, h3, hdone⟩ := dispShowFrameSendsThreeTransactions s s0 s1 s2 s3 br hready hph
  have htrace : t.trace = s.trace ++ (dispEvents s.cfg ([0x40].zip a1) ++
      dispEvents s.cfg ([0xC0, s0, s1, s2, s3].zip a2) ++
      dispEvents s.cfg ([BitVec.ofNat 8 (0x88 + br.toNat)].zip a3)) := hdone.trace_eq
  refine ⟨t, he, ?_⟩
  rw [htrace, delays_append, delays_append, delays_append, delays_dispTransaction h1, delays_dispTransaction h2,
    delays_dispTransaction h3]
  rfl

/-! ## The invariant at reset (R39, R260) -/

/-- The default board is sound (R7, R23, R263, log entry 1). -/
theorem configWf_default : configWf Config.default = true := by decide

/-- After reset the pin file lists nothing, so every pin is an input (R39). -/
theorem board_reset : State.reset.Board where
  cfg := configWf_default
  pins := ⟨rfl, nofun⟩
  drain _ _ hm := by cases hm
  peers b := by cases b <;> rfl

/-- After reset a bus has neither an open transaction nor an owner (R39). -/
theorem busOwned_reset (b : Bus) : State.reset.busOwned b := by
  cases b <;> exact ⟨fun h => absurd rfl h, fun h => absurd rfl h⟩

/-- Settles O8: the board is sound, no pin is an output, no bus is owned and no command is in progress. -/
theorem resetMeetsTheInvariant : Obligations.ResetMeetsTheInvariant :=
  State.inv_of_busOwned board_reset busOwned_reset ⟨nofun, nofun⟩

end Sys2Proof.Machine
end
